-- ==== Sys2Proof/Word.lean ====
section
/-! DEFINITION. The word, byte and register-index types (spec 00_scope.md R7, R9). -/

namespace Sys2Proof

/-- `Word32` of R9: registers, addresses, instruction words. -/
abbrev Word := BitVec 32

abbrev Byte := BitVec 8

/-- A general-register index, 0 to 31 (R7, R40). -/
abbrev Reg := BitVec 5

end Sys2Proof
end

