-- ==== Sys2Proof/Config.lean ====
section
/-! DEFINITION. What is fixed for a run (spec 00_scope.md R3, R8, 10_state.md R44): the plain options that State
carries unchanged, and the two collaborator functions, the Control Decoder and the Functional Unit, that the cycle
takes as parameters. The control bundle of 10_state.md R27 stands here because the decoder answers with it. -/

namespace Sys2Proof

/-- The memory parameter `ENDIAN` (20_memory.md R65). -/
inductive Endian where
  | little
  | big
  deriving DecidableEq, Repr

/-- The control bundle (10_state.md R27). `aluOp` is 2 bits wide, every other field 1 bit. -/
structure Ctrl where
  regdst   : Bool
  jump     : Bool
  jr       : Bool
  link     : Bool
  shift    : Bool
  branch   : Bool
  bne      : Bool
  memRead  : Bool
  memToReg : Bool
  aluOp    : BitVec 2
  memWrite : Bool
  half     : Bool
  byte     : Bool
  aluSrc   : Bool
  regWrite : Bool
  zext     : Bool
  deriving DecidableEq, Repr

/-- The all-zero bundle: of a bubble (R25), and of every inert word (30_encoding.md R94). -/
def Ctrl.inert : Ctrl where
  regdst := false
  jump := false
  jr := false
  link := false
  shift := false
  branch := false
  bne := false
  memRead := false
  memToReg := false
  aluOp := 0#2
  memWrite := false
  half := false
  byte := false
  aluSrc := false
  regWrite := false
  zext := false

/-- The options a run is launched with and never changes (R3, R44). `PRED_SIZE` is the length of the predictor table.
DESIGN CHOICE (notes/assumptions 1, 3): the spec leaves both OPEN, so both stand in State and statements range over
them. -/
structure Cfg where
  predEn : Bool
  endian : Endian
  deriving DecidableEq, Repr

/-- The two external functions the CORE calls (00_scope.md R8): `DEC` (30_encoding.md R93) and `FU`, whose arguments
are `alu_op`, `funct`, `opcode` and the two operands and whose answer is the result and the zero flag
(43_execute_forwarding.md R184). -/
structure Collaborators where
  dec : Word → Ctrl
  fu  : BitVec 2 → BitVec 6 → BitVec 6 → Word → Word → Word × Bool

end Sys2Proof
end

