-- ==== Sys2Proof/Syntax.lean ====
section
/-! DEFINITION. The instructions of the reference configuration: one constructor per row of spec/opcode_table.json
(46_instructions.md R247 to R282). Each carries every field of its word (30_encoding.md R86, R87), in the word's order
from the most significant down. A field the layout marks "ignored" is carried too, under a name that ends in `X`: the
pipeline registers latch it (10_state.md R22, R23), and the hazard unit compares it (R88), though no result depends on
it. DESIGN CHOICE (notes/assumptions 11). -/

namespace Sys2Proof

inductive Instr where
  | sll   (rsX rt rd : Reg) (sa : BitVec 5)
  | srl   (rsX rt rd : Reg) (sa : BitVec 5)
  | sra   (rsX rt rd : Reg) (sa : BitVec 5)
  | sllv  (rs rt rd : Reg) (saX : BitVec 5)
  | srlv  (rs rt rd : Reg) (saX : BitVec 5)
  | srav  (rs rt rd : Reg) (saX : BitVec 5)
  | jr    (rs rtX rdX : Reg) (saX : BitVec 5)
  | jalr  (rs rtX rd : Reg) (saX : BitVec 5)
  | add   (rs rt rd : Reg) (saX : BitVec 5)
  | addu  (rs rt rd : Reg) (saX : BitVec 5)
  | sub   (rs rt rd : Reg) (saX : BitVec 5)
  | subu  (rs rt rd : Reg) (saX : BitVec 5)
  | and   (rs rt rd : Reg) (saX : BitVec 5)
  | or    (rs rt rd : Reg) (saX : BitVec 5)
  | xor   (rs rt rd : Reg) (saX : BitVec 5)
  | nor   (rs rt rd : Reg) (saX : BitVec 5)
  | slt   (rs rt rd : Reg) (saX : BitVec 5)
  | sltu  (rs rt rd : Reg) (saX : BitVec 5)
  | j     (addr26 : BitVec 26)
  | jal   (addr26 : BitVec 26)
  | beq   (rs rt : Reg) (imm16 : BitVec 16)
  | bne   (rs rt : Reg) (imm16 : BitVec 16)
  | addi  (rs rt : Reg) (imm16 : BitVec 16)
  | addiu (rs rt : Reg) (imm16 : BitVec 16)
  | slti  (rs rt : Reg) (imm16 : BitVec 16)
  | sltiu (rs rt : Reg) (imm16 : BitVec 16)
  | andi  (rs rt : Reg) (imm16 : BitVec 16)
  | ori   (rs rt : Reg) (imm16 : BitVec 16)
  | xori  (rs rt : Reg) (imm16 : BitVec 16)
  | lui   (rsX rt : Reg) (imm16 : BitVec 16)
  | lb    (rs rt : Reg) (imm16 : BitVec 16)
  | lh    (rs rt : Reg) (imm16 : BitVec 16)
  | lw    (rs rt : Reg) (imm16 : BitVec 16)
  | sb    (rs rt : Reg) (imm16 : BitVec 16)
  | sh    (rs rt : Reg) (imm16 : BitVec 16)
  | sw    (rs rt : Reg) (imm16 : BitVec 16)
  deriving DecidableEq, Repr

/-- The row's mnemonic, as spec/opcode_table.json spells it. -/
def Instr.mnemonic : Instr → String
  | .sll .. => "sll"
  | .srl .. => "srl"
  | .sra .. => "sra"
  | .sllv .. => "sllv"
  | .srlv .. => "srlv"
  | .srav .. => "srav"
  | .jr .. => "jr"
  | .jalr .. => "jalr"
  | .add .. => "add"
  | .addu .. => "addu"
  | .sub .. => "sub"
  | .subu .. => "subu"
  | .and .. => "and"
  | .or .. => "or"
  | .xor .. => "xor"
  | .nor .. => "nor"
  | .slt .. => "slt"
  | .sltu .. => "sltu"
  | .j .. => "j"
  | .jal .. => "jal"
  | .beq .. => "beq"
  | .bne .. => "bne"
  | .addi .. => "addi"
  | .addiu .. => "addiu"
  | .slti .. => "slti"
  | .sltiu .. => "sltiu"
  | .andi .. => "andi"
  | .ori .. => "ori"
  | .xori .. => "xori"
  | .lui .. => "lui"
  | .lb .. => "lb"
  | .lh .. => "lh"
  | .lw .. => "lw"
  | .sb .. => "sb"
  | .sh .. => "sh"
  | .sw .. => "sw"

end Sys2Proof
end

