-- ==== Sys2Proof/WellFormed.lean ====
section
/-! DEFINITION. Which instructions the assembler of 30_encoding.md R100 can write. Every field already has its exact
width; what remains is that the fields the layout ignores (46_instructions.md R247 to R282, "(ignored)") are 0, since
the syntax gives them no operand. The machine does not check this: it runs every instruction, well-formed or not
(R97: "field values are not checked"). DESIGN CHOICE (notes/assumptions 11). -/

namespace Sys2Proof

def Instr.wellFormed : Instr → Bool
  | .sll rsX _ _ _ => rsX == 0#5
  | .srl rsX _ _ _ => rsX == 0#5
  | .sra rsX _ _ _ => rsX == 0#5
  | .sllv _ _ _ saX => saX == 0#5
  | .srlv _ _ _ saX => saX == 0#5
  | .srav _ _ _ saX => saX == 0#5
  | .jr _ rtX rdX saX => rtX == 0#5 && rdX == 0#5 && saX == 0#5
  | .jalr _ rtX _ saX => rtX == 0#5 && saX == 0#5
  | .add _ _ _ saX => saX == 0#5
  | .addu _ _ _ saX => saX == 0#5
  | .sub _ _ _ saX => saX == 0#5
  | .subu _ _ _ saX => saX == 0#5
  | .and _ _ _ saX => saX == 0#5
  | .or _ _ _ saX => saX == 0#5
  | .xor _ _ _ saX => saX == 0#5
  | .nor _ _ _ saX => saX == 0#5
  | .slt _ _ _ saX => saX == 0#5
  | .sltu _ _ _ saX => saX == 0#5
  | .j _ => true
  | .jal _ => true
  | .beq _ _ _ => true
  | .bne _ _ _ => true
  | .addi _ _ _ => true
  | .addiu _ _ _ => true
  | .slti _ _ _ => true
  | .sltiu _ _ _ => true
  | .andi _ _ _ => true
  | .ori _ _ _ => true
  | .xori _ _ _ => true
  | .lui rsX _ _ => rsX == 0#5
  | .lb _ _ _ => true
  | .lh _ _ _ => true
  | .lw _ _ _ => true
  | .sb _ _ _ => true
  | .sh _ _ _ => true
  | .sw _ _ _ => true

end Sys2Proof
end

