-- ==== Sys2Proof/Decode.lean ====
section
/-! DEFINITION. The instruction word's fields (30_encoding.md R86), the reference Control Decoder (R97 to R99: the
word to its instruction, the instruction to its bundle), and the encoder. Every word that matches no row is inert
(R94, R95): it is no instruction of the table, its bundle is all zero, and the machine still runs it. -/

namespace Sys2Proof

/-! ### Fields (R86) -/

def opcodeOf (w : Word) : BitVec 6 := w.extractLsb' 26 6
def rsOf (w : Word) : Reg := w.extractLsb' 21 5
def rtOf (w : Word) : Reg := w.extractLsb' 16 5
def rdOf (w : Word) : Reg := w.extractLsb' 11 5
def shamtOf (w : Word) : BitVec 5 := w.extractLsb' 6 5
def functOf (w : Word) : BitVec 6 := w.extractLsb' 0 6
def imm16Of (w : Word) : BitVec 16 := w.extractLsb' 0 16
def addr26Of (w : Word) : BitVec 26 := w.extractLsb' 0 26

/-! ### The word to its instruction (R97, R98, R99) -/

/-- R97: opcode 0, matched on `funct` alone. -/
def decodeRType (w : Word) : Option Instr :=
  let rs := rsOf w
  let rt := rtOf w
  let rd := rdOf w
  let sa := shamtOf w
  match (functOf w).toNat with
  | 0x00 => some (.sll rs rt rd sa)
  | 0x02 => some (.srl rs rt rd sa)
  | 0x03 => some (.sra rs rt rd sa)
  | 0x04 => some (.sllv rs rt rd sa)
  | 0x06 => some (.srlv rs rt rd sa)
  | 0x07 => some (.srav rs rt rd sa)
  | 0x08 => some (.jr rs rt rd sa)
  | 0x09 => some (.jalr rs rt rd sa)
  | 0x20 => some (.add rs rt rd sa)
  | 0x21 => some (.addu rs rt rd sa)
  | 0x22 => some (.sub rs rt rd sa)
  | 0x23 => some (.subu rs rt rd sa)
  | 0x24 => some (.and rs rt rd sa)
  | 0x25 => some (.or rs rt rd sa)
  | 0x26 => some (.xor rs rt rd sa)
  | 0x27 => some (.nor rs rt rd sa)
  | 0x2A => some (.slt rs rt rd sa)
  | 0x2B => some (.sltu rs rt rd sa)
  | _ => none

/-- R99: opcode 0 by `funct` (R97), any other opcode by itself (R98). `none` is an inert word (R95). -/
def decodeWord (w : Word) : Option Instr :=
  let rs := rsOf w
  let rt := rtOf w
  let imm := imm16Of w
  match (opcodeOf w).toNat with
  | 0x00 => decodeRType w
  | 0x02 => some (.j (addr26Of w))
  | 0x03 => some (.jal (addr26Of w))
  | 0x04 => some (.beq rs rt imm)
  | 0x05 => some (.bne rs rt imm)
  | 0x08 => some (.addi rs rt imm)
  | 0x09 => some (.addiu rs rt imm)
  | 0x0A => some (.slti rs rt imm)
  | 0x0B => some (.sltiu rs rt imm)
  | 0x0C => some (.andi rs rt imm)
  | 0x0D => some (.ori rs rt imm)
  | 0x0E => some (.xori rs rt imm)
  | 0x0F => some (.lui rs rt imm)
  | 0x20 => some (.lb rs rt imm)
  | 0x21 => some (.lh rs rt imm)
  | 0x23 => some (.lw rs rt imm)
  | 0x28 => some (.sb rs rt imm)
  | 0x29 => some (.sh rs rt imm)
  | 0x2B => some (.sw rs rt imm)
  | _ => none

/-! ### The instruction to its bundle (R97, R98) -/

/-- The R-type arithmetic rows and the variable shifts of R97. -/
def Ctrl.rAlu : Ctrl := { Ctrl.inert with regdst := true, aluOp := 2#2, regWrite := true }

/-- The shifts by an amount: as `rAlu`, with `shift`. -/
def Ctrl.rShift : Ctrl := { Ctrl.rAlu with shift := true }

def Ctrl.jrBundle : Ctrl := { Ctrl.inert with jump := true, jr := true, aluOp := 2#2 }

def Ctrl.jalrBundle : Ctrl :=
  { Ctrl.inert with regdst := true, jump := true, jr := true, link := true, aluOp := 2#2, regWrite := true }

def Ctrl.jBundle : Ctrl := { Ctrl.inert with jump := true }

def Ctrl.jalBundle : Ctrl := { Ctrl.inert with jump := true, link := true, regWrite := true }

def Ctrl.beqBundle : Ctrl := { Ctrl.inert with branch := true, aluOp := 1#2 }

def Ctrl.bneBundle : Ctrl := { Ctrl.inert with bne := true, aluOp := 1#2 }

/-- `addi`, `addiu`: class 0, sign-extended immediate. -/
def Ctrl.addImm : Ctrl := { Ctrl.inert with aluSrc := true, regWrite := true }

/-- `slti`, `sltiu`: class 3, sign-extended immediate. -/
def Ctrl.setImm : Ctrl := { Ctrl.addImm with aluOp := 3#2 }

/-- `andi`, `ori`, `xori`, `lui`: class 3, zero-extended immediate. -/
def Ctrl.logicImm : Ctrl := { Ctrl.setImm with zext := true }

def Ctrl.loadWord : Ctrl := { Ctrl.addImm with memRead := true, memToReg := true }
def Ctrl.loadHalf : Ctrl := { Ctrl.loadWord with half := true }
def Ctrl.loadByte : Ctrl := { Ctrl.loadWord with byte := true }

def Ctrl.storeWord : Ctrl := { Ctrl.inert with memWrite := true, aluSrc := true }
def Ctrl.storeHalf : Ctrl := { Ctrl.storeWord with half := true }
def Ctrl.storeByte : Ctrl := { Ctrl.storeWord with byte := true }

/-- The bundle columns of R97 and R98. -/
def controlOf : Instr → Ctrl
  | .sll .. => .rShift
  | .srl .. => .rShift
  | .sra .. => .rShift
  | .sllv .. => .rAlu
  | .srlv .. => .rAlu
  | .srav .. => .rAlu
  | .jr .. => .jrBundle
  | .jalr .. => .jalrBundle
  | .add .. => .rAlu
  | .addu .. => .rAlu
  | .sub .. => .rAlu
  | .subu .. => .rAlu
  | .and .. => .rAlu
  | .or .. => .rAlu
  | .xor .. => .rAlu
  | .nor .. => .rAlu
  | .slt .. => .rAlu
  | .sltu .. => .rAlu
  | .j .. => .jBundle
  | .jal .. => .jalBundle
  | .beq .. => .beqBundle
  | .bne .. => .bneBundle
  | .addi .. => .addImm
  | .addiu .. => .addImm
  | .slti .. => .setImm
  | .sltiu .. => .setImm
  | .andi .. => .logicImm
  | .ori .. => .logicImm
  | .xori .. => .logicImm
  | .lui .. => .logicImm
  | .lb .. => .loadByte
  | .lh .. => .loadHalf
  | .lw .. => .loadWord
  | .sb .. => .storeByte
  | .sh .. => .storeHalf
  | .sw .. => .storeWord

/-- The reference Control Decoder `DEC`, total on all words (R93): an inert word has the all-zero bundle (R94). -/
def referenceDec (w : Word) : Ctrl :=
  match decodeWord w with
  | some i => controlOf i
  | none => Ctrl.inert

/-- Every bundle the reference decoder can answer with (R97, R98, R94). -/
def referenceBundles : List Ctrl :=
  [.inert, .rAlu, .rShift, .jrBundle, .jalrBundle, .jBundle, .jalBundle, .beqBundle, .bneBundle, .addImm, .setImm,
   .logicImm, .loadByte, .loadHalf, .loadWord, .storeByte, .storeHalf, .storeWord]

/-! ### The table's mask and match columns (R99) -/

/-- One row of spec/opcode_table.json. -/
structure OpcodeRow where
  mnemonic : String
  mask     : Word
  value    : Word
  deriving DecidableEq, Repr

def OpcodeRow.matches (r : OpcodeRow) (w : Word) : Bool := w &&& r.mask == r.value

/-- The rows with opcode 0, matched on `funct`. -/
def rTypeRows : List OpcodeRow :=
  [⟨"sll", 0xFC00003F#32, 0x00000000#32⟩, ⟨"srl", 0xFC00003F#32, 0x00000002#32⟩,
   ⟨"sra", 0xFC00003F#32, 0x00000003#32⟩, ⟨"sllv", 0xFC00003F#32, 0x00000004#32⟩,
   ⟨"srlv", 0xFC00003F#32, 0x00000006#32⟩, ⟨"srav", 0xFC00003F#32, 0x00000007#32⟩,
   ⟨"jr", 0xFC00003F#32, 0x00000008#32⟩, ⟨"jalr", 0xFC00003F#32, 0x00000009#32⟩,
   ⟨"add", 0xFC00003F#32, 0x00000020#32⟩, ⟨"addu", 0xFC00003F#32, 0x00000021#32⟩,
   ⟨"sub", 0xFC00003F#32, 0x00000022#32⟩, ⟨"subu", 0xFC00003F#32, 0x00000023#32⟩,
   ⟨"and", 0xFC00003F#32, 0x00000024#32⟩, ⟨"or", 0xFC00003F#32, 0x00000025#32⟩,
   ⟨"xor", 0xFC00003F#32, 0x00000026#32⟩, ⟨"nor", 0xFC00003F#32, 0x00000027#32⟩,
   ⟨"slt", 0xFC00003F#32, 0x0000002A#32⟩, ⟨"sltu", 0xFC00003F#32, 0x0000002B#32⟩]

/-- The rows matched on `opcode`. -/
def otherRows : List OpcodeRow :=
  [⟨"j", 0xFC000000#32, 0x08000000#32⟩, ⟨"jal", 0xFC000000#32, 0x0C000000#32⟩,
   ⟨"beq", 0xFC000000#32, 0x10000000#32⟩, ⟨"bne", 0xFC000000#32, 0x14000000#32⟩,
   ⟨"addi", 0xFC000000#32, 0x20000000#32⟩, ⟨"addiu", 0xFC000000#32, 0x24000000#32⟩,
   ⟨"slti", 0xFC000000#32, 0x28000000#32⟩, ⟨"sltiu", 0xFC000000#32, 0x2C000000#32⟩,
   ⟨"andi", 0xFC000000#32, 0x30000000#32⟩, ⟨"ori", 0xFC000000#32, 0x34000000#32⟩,
   ⟨"xori", 0xFC000000#32, 0x38000000#32⟩, ⟨"lui", 0xFC000000#32, 0x3C000000#32⟩,
   ⟨"lb", 0xFC000000#32, 0x80000000#32⟩, ⟨"lh", 0xFC000000#32, 0x84000000#32⟩,
   ⟨"lw", 0xFC000000#32, 0x8C000000#32⟩, ⟨"sb", 0xFC000000#32, 0xA0000000#32⟩,
   ⟨"sh", 0xFC000000#32, 0xA4000000#32⟩, ⟨"sw", 0xFC000000#32, 0xAC000000#32⟩]

def opcodeRows : List OpcodeRow := rTypeRows ++ otherRows

/-! ### The encoder (R87, with the opcode and funct values of R97, R98) -/

/-- R format: opcode 0, rs, rt, rd, shamt, funct. -/
def wordR (rs rt rd : Reg) (sa : BitVec 5) (funct : BitVec 6) : Word := 0#6 ++ rs ++ rt ++ rd ++ sa ++ funct

/-- I format: opcode, rs, rt, imm16. -/
def wordI (op : BitVec 6) (rs rt : Reg) (imm : BitVec 16) : Word := op ++ rs ++ rt ++ imm

/-- J format: opcode, addr26. -/
def wordJ (op : BitVec 6) (addr : BitVec 26) : Word := op ++ addr

def encode : Instr → Word
  | .sll rs rt rd sa => wordR rs rt rd sa 0x00#6
  | .srl rs rt rd sa => wordR rs rt rd sa 0x02#6
  | .sra rs rt rd sa => wordR rs rt rd sa 0x03#6
  | .sllv rs rt rd sa => wordR rs rt rd sa 0x04#6
  | .srlv rs rt rd sa => wordR rs rt rd sa 0x06#6
  | .srav rs rt rd sa => wordR rs rt rd sa 0x07#6
  | .jr rs rt rd sa => wordR rs rt rd sa 0x08#6
  | .jalr rs rt rd sa => wordR rs rt rd sa 0x09#6
  | .add rs rt rd sa => wordR rs rt rd sa 0x20#6
  | .addu rs rt rd sa => wordR rs rt rd sa 0x21#6
  | .sub rs rt rd sa => wordR rs rt rd sa 0x22#6
  | .subu rs rt rd sa => wordR rs rt rd sa 0x23#6
  | .and rs rt rd sa => wordR rs rt rd sa 0x24#6
  | .or rs rt rd sa => wordR rs rt rd sa 0x25#6
  | .xor rs rt rd sa => wordR rs rt rd sa 0x26#6
  | .nor rs rt rd sa => wordR rs rt rd sa 0x27#6
  | .slt rs rt rd sa => wordR rs rt rd sa 0x2A#6
  | .sltu rs rt rd sa => wordR rs rt rd sa 0x2B#6
  | .j addr => wordJ 0x02#6 addr
  | .jal addr => wordJ 0x03#6 addr
  | .beq rs rt imm => wordI 0x04#6 rs rt imm
  | .bne rs rt imm => wordI 0x05#6 rs rt imm
  | .addi rs rt imm => wordI 0x08#6 rs rt imm
  | .addiu rs rt imm => wordI 0x09#6 rs rt imm
  | .slti rs rt imm => wordI 0x0A#6 rs rt imm
  | .sltiu rs rt imm => wordI 0x0B#6 rs rt imm
  | .andi rs rt imm => wordI 0x0C#6 rs rt imm
  | .ori rs rt imm => wordI 0x0D#6 rs rt imm
  | .xori rs rt imm => wordI 0x0E#6 rs rt imm
  | .lui rs rt imm => wordI 0x0F#6 rs rt imm
  | .lb rs rt imm => wordI 0x20#6 rs rt imm
  | .lh rs rt imm => wordI 0x21#6 rs rt imm
  | .lw rs rt imm => wordI 0x23#6 rs rt imm
  | .sb rs rt imm => wordI 0x28#6 rs rt imm
  | .sh rs rt imm => wordI 0x29#6 rs rt imm
  | .sw rs rt imm => wordI 0x2B#6 rs rt imm

/-! ### Bytes: byte order decided once (20_memory.md R65) -/

/-- The low `n` bytes of a value, the least significant first. -/
def bytesOf : Nat → Word → List Byte
  | 0, _ => []
  | n + 1, v => v.setWidth 8 :: bytesOf n (v >>> 8)

/-- The value of bytes given the least significant first: the sum of `byte j << 8j` (R65). -/
def valueOf : List Byte → Word
  | [] => 0#32
  | b :: bs => b.setWidth 32 ||| (valueOf bs <<< 8)

/-- Bytes between significance order and address order: little-endian keeps them, big-endian turns them round. -/
def inOrder (e : Endian) (bs : List Byte) : List Byte :=
  match e with
  | .little => bs
  | .big => bs.reverse

/-- Why bytes are no instruction of the table. -/
inductive DecodeReason where
  /-- Fewer than the four bytes of an instruction (R85). -/
  | truncated
  /-- A word that matches no row (R95): the machine runs it as inert, it is not an error of the machine. -/
  | inertWord (w : Word)
  deriving DecidableEq, Repr

inductive DecodeResult where
  | decoded (i : Instr) (rest : List Byte)
  | rejected (why : DecodeReason)
  deriving DecidableEq, Repr

/-- Decode the bytes at an address, lowest address first. -/
def decode (e : Endian) : List Byte → DecodeResult
  | b0 :: b1 :: b2 :: b3 :: rest =>
    let w := valueOf (inOrder e [b0, b1, b2, b3])
    match decodeWord w with
    | some i => .decoded i rest
    | none => .rejected (.inertWord w)
  | _ => .rejected .truncated

/-- The bytes of an instruction as memory holds them, lowest address first. -/
def encodeBytes (e : Endian) (i : Instr) : List Byte := inOrder e (bytesOf 4 (encode i))

/-- The instruction read from a table row's word: its bits above `nbits` are 0, and it lies in memory in the reference
memory's byte order (20_memory.md R77). -/
def decodeTableWord (nbits w : Nat) : Option Instr :=
  match decode .little (inOrder .little (bytesOf 4 (BitVec.ofNat 32 (w % 2 ^ nbits)))) with
  | .decoded i _ => some i
  | .rejected _ => none

end Sys2Proof
end

