-- ==== Sys2Proof/Machine/State.lean ====
section
/-! DEFINITION. The machine's state as plain data (spec 10_state.md), its stops, and reset (R45, 70_reset_and_hazards.md
R320). -/

namespace Sys2Proof.Machine

/-- Why a run stops. Neither is a trap of the CORE, which has none (60_exceptions.md R300): the model stops, as R303 (1)
asks under `MISALIGN = fault`, instead of choosing an outcome for an access the spec leaves open (20_memory.md R66). Both
are SAFE: a stopped run proves nothing false (notes/assumptions 4). -/
inductive Fault where
  /-- Raised by the cycle when the fetch stage issues an access at a PC that is no multiple of 4 (R66, 93 I6). Safe. -/
  | misalignedFetch (pc : Word)
  /-- Raised by the cycle when the memory stage issues an access at an address that is no multiple of its width of
  `bytes` bytes (R66, 93 I5). Safe. -/
  | misalignedData (addr : Word) (bytes : Nat)
  deriving DecidableEq, Repr

/-- Why an instruction has no meaning. No arm of `exec` refuses, so no step answers with it. -/
inductive Refusal where
  /-- Raised by an arm of `exec` whose instruction has no meaning yet (none is left). Safe. -/
  | notModelled (mnemonic : String)
  deriving DecidableEq, Repr

/-! ### Pipeline registers -/

/-- `FD` (R21). -/
structure FetchDecode where
  valid     : Bool
  word      : Word
  pc        : Word
  predTaken : Bool
  deriving DecidableEq, Repr

/-- `DE` (R22). -/
structure DecodeExecute where
  valid     : Bool
  opcode    : BitVec 6
  rs        : Reg
  rt        : Reg
  rd        : Reg
  shamt     : BitVec 5
  funct     : BitVec 6
  imm16     : BitVec 16
  addr26    : BitVec 26
  rsVal     : Word
  rtVal     : Word
  ctrl      : Ctrl
  pc        : Word
  predTaken : Bool
  deriving DecidableEq, Repr

/-- `EM` (R23). `zero` is the FU zero flag, the CORE's only flag (R35). -/
structure ExecuteMemory where
  valid     : Bool
  imm32     : Word
  storeVal  : Word
  rd        : Reg
  rt        : Reg
  aluResult : Word
  zero      : Bool
  ctrl      : Ctrl
  pc        : Word
  deriving DecidableEq, Repr

/-- `MW` (R24). -/
structure MemoryWriteback where
  valid : Bool
  dest  : Reg
  value : Word
  ctrl  : Ctrl
  pc    : Word
  deriving DecidableEq, Repr

/-- `BUBBLE` (R25): every field 0. -/
def FetchDecode.bubble : FetchDecode where
  valid := false
  word := 0#32
  pc := 0#32
  predTaken := false

def DecodeExecute.bubble : DecodeExecute where
  valid := false
  opcode := 0#6
  rs := 0#5
  rt := 0#5
  rd := 0#5
  shamt := 0#5
  funct := 0#6
  imm16 := 0#16
  addr26 := 0#26
  rsVal := 0#32
  rtVal := 0#32
  ctrl := Ctrl.inert
  pc := 0#32
  predTaken := false

def ExecuteMemory.bubble : ExecuteMemory where
  valid := false
  imm32 := 0#32
  storeVal := 0#32
  rd := 0#5
  rt := 0#5
  aluResult := 0#32
  zero := false
  ctrl := Ctrl.inert
  pc := 0#32

def MemoryWriteback.bubble : MemoryWriteback where
  valid := false
  dest := 0#5
  value := 0#32
  ctrl := Ctrl.inert
  pc := 0#32

/-! ### Storage and inputs -/

/-- A 2-bit saturating counter, 0 to 3 (R30). -/
abbrev Counter := Fin 4

/-- The register file (R40): 32 cells. Cell 0 is never read and never written (R41; `readReg`, `writeReg`). -/
abbrev RegFile := Vector Word 32

/-- Memory contents (R43, 20_memory.md R60): the bytes that differ from what an unlisted address reads as, addresses
rising (`Memory.wf`). -/
abbrev Memory := List Host.Cell

/-- The memory's two answers of one cycle: `IREADY(t)` and `DREADY(t)` (20_memory.md R64). -/
structure PortReady where
  iReady : Bool
  dReady : Bool
  deriving DecidableEq, Repr

/-- The answers still to come, the next cycle's first, and what every later cycle answers. A free input held as data:
statements range over every schedule. DESIGN CHOICE (notes/assumptions 7). -/
structure Readiness where
  sched : List PortReady
  rest  : PortReady
  deriving DecidableEq, Repr

/-- Everything the spec gives the machine (10_state.md), with the collaborators' storage the step reads (40_cycle.md
R120) and the run's options. `PRED_SIZE` is the length of `pt`. -/
structure State where
  cfg       : Cfg
  pc        : Word
  fd        : FetchDecode
  de        : DecodeExecute
  em        : ExecuteMemory
  mw        : MemoryWriteback
  pt        : List Counter
  fetchWait : Nat
  memWait   : Nat
  rf        : RegFile
  mem       : Memory
  ports     : Readiness
  deriving DecidableEq, Repr

/-- Reset as the spec has it (70_reset_and_hazards.md R320): the initial state built from the launch arguments, with
the reset values of R45. -/
def State.launch (cfg : Cfg) (predSize : Nat) (rf0 : RegFile) (mem0 : Memory) (ports : Readiness) : State where
  cfg := cfg
  pc := 0#32
  fd := .bubble
  de := .bubble
  em := .bubble
  mw := .bubble
  pt := List.replicate predSize 0
  fetchWait := 0
  memWait := 0
  rf := rf0
  mem := mem0
  ports := ports

/-- The machine right after reset, with the launch arguments the model names: prediction off and 16 counters
(notes/assumptions 1, 2), little-endian (3), registers 1 to 31 zero (5), memory with nothing listed (6), both ports
ready in every cycle (7). DESIGN CHOICE: the spec leaves each to the launch. -/
def State.reset : State :=
  State.launch ⟨false, .little⟩ 16 (Vector.replicate 32 0#32) [] ⟨[], ⟨true, true⟩⟩

end Sys2Proof.Machine
end

