-- ==== Sys2Proof/Machine/Signals.lean ====
section
/-! DEFINITION. The values that pass between the stages and the ports within one cycle (40_cycle.md R121, 20_memory.md
R61). None of them is state. -/

namespace Sys2Proof.Machine

/-- The width of a data access (20_memory.md R63). -/
inductive Width where
  | byte
  | half
  | word
  deriving DecidableEq, Repr

/-- One access at a port (20_memory.md R61). -/
structure PortRequest where
  addr        : Word
  width       : Width
  readEnable  : Bool
  writeEnable : Bool
  writeValue  : Word
  deriving DecidableEq, Repr

/-- The answers of both ports in one cycle: the arguments `IREADY_t`, `iword_t`, `DREADY_t`, `rdata_t` of the step
(40_cycle.md R120). -/
structure PortAnswers where
  iReady : Bool
  iWord  : Word
  dReady : Bool
  rData  : Word
  deriving DecidableEq, Repr

/-- The forwarding selector (43_execute_forwarding.md R179). -/
inductive FwdSel where
  | noForward
  | forwardFromMemoryStage
  | forwardFromWritebackStage
  deriving DecidableEq, Repr

/-- What the execute stage answers (40_cycle.md R130): `em_out`, `redirect` with its `target` (44_control_transfer.md
R200), and the predictor update, an index and the outcome (R210). -/
structure ExecuteOut where
  em       : ExecuteMemory
  redirect : Option Word
  ptUpd    : Option (Nat × Bool)
  deriving DecidableEq, Repr

/-- What the cycle makes of the front end: the columns `PC'`, `FD'`, `DE'` of 40_cycle.md R126 and `fetch_wait'` of
R129. -/
structure FrontEnd where
  pc        : Word
  fd        : FetchDecode
  de        : DecodeExecute
  fetchWait : Nat
  deriving DecidableEq, Repr

end Sys2Proof.Machine
end

