-- ==== Sys2Proof/Machine/Ops.lean ====
section
/-! DEFINITION. The named operations over memory, registers, the predictor table and the readiness schedule. The CORE
has no exception entry and no return from one (60_exceptions.md R300, R307, R308), so there is no operation for them. -/

namespace Sys2Proof.Machine

/-! ### Memory (20_memory.md) -/

/-- What an address that no cell lists reads as: 0, as the reference memory gives (R77, 93 I9). DESIGN CHOICE
(notes/assumptions 6). -/
def unlistedByte : Byte := 0#8

/-- The canonical form from address `lo` up: addresses rising and inside the 32-bit space, no cell equal to what an
unlisted address reads as. -/
def Memory.wfFrom : Nat → Memory → Bool
  | _, [] => true
  | lo, (a, b) :: m => decide (lo ≤ a) && decide (a < 4294967296) && !(b == unlistedByte) && Memory.wfFrom (a + 1) m

/-- Memory is in its canonical form. -/
def Memory.wf (m : Memory) : Bool := Memory.wfFrom 0 m

def readByte : Memory → Nat → Byte
  | [], _ => unlistedByte
  | (k, b) :: m, a => if k = a then b else readByte m a

/-- Writes one byte and keeps the canonical form: writing what an unlisted address reads as removes the cell. -/
def writeByte : Memory → Nat → Byte → Memory
  | [], a, v => if v = unlistedByte then [] else [(a, v)]
  | (k, b) :: m, a, v =>
    if a < k then (if v = unlistedByte then (k, b) :: m else (a, v) :: (k, b) :: m)
    else if a = k then (if v = unlistedByte then m else (a, v) :: m)
    else (k, b) :: writeByte m a v

/-- `n` bytes from address `a` up; addresses are modulo 2^32 (R60; an aligned access never wraps). -/
def readBytes (m : Memory) (a : Word) : Nat → List Byte
  | 0 => []
  | n + 1 => readByte m a.toNat :: readBytes m (a + 1#32) n

def writeBytes (m : Memory) (a : Word) : List Byte → Memory
  | [] => m
  | b :: bs => writeBytes (writeByte m a.toNat b) (a + 1#32) bs

/-- The width in bytes (R63, R67). -/
def Width.bytes : Width → Nat
  | .byte => 1
  | .half => 2
  | .word => 4

/-- `width(ctrl)` (R63). -/
def widthOf (c : Ctrl) : Width := if c.byte then .byte else if c.half then .half else .word

/-- `MemRead(addr, n)` (R62, R65): the datum lies in the low bits. -/
def memRead (e : Endian) (m : Memory) (a : Word) (w : Width) : Word := valueOf (inOrder e (readBytes m a w.bytes))

/-- `MemWrite(addr, n, v)` (R62, R65): only the low `8n` bits of `v` are stored. -/
def memWrite (e : Endian) (m : Memory) (a : Word) (w : Width) (v : Word) : Memory :=
  writeBytes m a (inOrder e (bytesOf w.bytes v))

/-- The address is a multiple of the width (R66). -/
def aligned (a : Word) (w : Width) : Bool := a.toNat % w.bytes == 0

/-- What the memory returns for a request that answers ready: the bytes read before any write of the same access
(45_memory_writeback.md R225; DESIGN CHOICE, notes/assumptions 16). Ignored unless the access reads. -/
def PortRequest.readValue (r : PortRequest) (e : Endian) (m : Memory) : Word :=
  if r.readEnable then memRead e m r.addr r.width else 0#32

/-- What a request that answers ready makes of memory (R62). -/
def PortRequest.written (r : PortRequest) (e : Endian) (m : Memory) : Memory :=
  if r.writeEnable then memWrite e m r.addr r.width r.writeValue else m

def PortRequest.aligned (r : PortRequest) : Bool := Machine.aligned r.addr r.width

/-! ### Readiness (20_memory.md R64) -/

/-- This cycle's two answers. -/
def Readiness.now (p : Readiness) : PortReady :=
  match p.sched with
  | [] => p.rest
  | a :: _ => a

/-- The answers left for the cycles after this one. -/
def Readiness.later (p : Readiness) : Readiness := { p with sched := p.sched.tail }

/-! ### Registers (10_state.md R40, R41) -/

/-- A register read: index 0 reads 0. -/
def readReg (rf : RegFile) (r : Reg) : Word := if r = 0#5 then 0#32 else rf.get r.toFin

/-- A register write: a write to index 0 has no effect. -/
def writeReg (rf : RegFile) (r : Reg) (v : Word) : RegFile := if r = 0#5 then rf else rf.set r.toNat v r.isLt

/-- The destination function (R29). -/
def dest (c : Ctrl) (rt rd : Reg) : Reg := if c.regdst then rd else if c.link then 31#5 else rt

/-! ### The predictor table (10_state.md R30 to R32, 44_control_transfer.md R210) -/

/-- `idx(a) = (a >>u 2) mod PRED_SIZE` (R31). -/
def ptIndex (pt : List Counter) (a : Word) : Nat := (a.toNat / 4) % pt.length

/-- The counter of an address. The table of a launched machine is not empty (R8), so the default is never read. -/
def ptCounter (pt : List Counter) (a : Word) : Counter := pt.getD (ptIndex pt a) 0

/-- `predict(a)` (R32). -/
def ptPredicts (pt : List Counter) (a : Word) : Bool := decide (2 ≤ (ptCounter pt a).val)

/-- One step of a saturating counter (R210, R211). -/
def bump (c : Counter) (taken : Bool) : Counter :=
  if taken then (if c = 3 then 3 else c + 1) else (if c = 0 then 0 else c - 1)

/-- `apply(pt_upd, PT)` (R210). -/
def applyUpd (u : Option (Nat × Bool)) (pt : List Counter) : List Counter :=
  match u with
  | none => pt
  | some (i, taken) => pt.set i (bump (pt.getD i 0) taken)

/-! ### Decoded fields, and placing an instruction -/

/-- DE as the word `w` makes it, with given operand values (30_encoding.md R86, 42 R159). -/
def DecodeExecute.ofWord (w rsVal rtVal : Word) (c : Ctrl) (pc : Word) (predTaken : Bool) : DecodeExecute where
  valid := true
  opcode := opcodeOf w
  rs := rsOf w
  rt := rtOf w
  rd := rdOf w
  shamt := shamtOf w
  funct := functOf w
  imm16 := imm16Of w
  addr26 := addr26Of w
  rsVal := rsVal
  rtVal := rtVal
  ctrl := c
  pc := pc
  predTaken := predTaken

/-- The state with the word stored at the PC and carried through fetch and decode, as a ready fetch at the PC that
predicts nothing and then a fetch miss make of FD, DE and PC (R126, R143, R159). The next cycle is the one in which the
word executes. DESIGN CHOICE (notes/assumptions 9, 20): the spec has no placing of a word, and one that is placed is
predicted not taken, with the PC 4 further, also where `fetchPredict` would predict it taken (R145). -/
def placeWord (dec : Word → Ctrl) (s : State) (w : Word) : State :=
  { s with
    mem := memWrite s.cfg.endian s.mem s.pc .word w
    pc := s.pc + 4#32
    fd := .bubble
    de := .ofWord w (readReg s.rf (rsOf w)) (readReg s.rf (rtOf w)) (dec w) s.pc false }

end Sys2Proof.Machine
end

