-- ==== Sys2Proof/Machine/Operands.lean ====
section
/-! DEFINITION. Every operand form: immediates and targets (30_encoding.md R89 to R92), the forwarding unit
(43_execute_forwarding.md R177 to R180), the ALU operands (R181 to R183) and writeback-to-decode forwarding
(42_decode_hazard.md R162). -/

namespace Sys2Proof.Machine

/-- `sext_16`. -/
def sext16 (v : BitVec 16) : Word := v.signExtend 32

/-- `zext_16`. -/
def zext16 (v : BitVec 16) : Word := v.setWidth 32

/-- `zext_5`. -/
def zext5 (v : BitVec 5) : Word := v.setWidth 32

/-- The extended immediate (R90). -/
def extendImm (zext : Bool) (imm : BitVec 16) : Word := if zext then zext16 imm else sext16 imm

/-- `btarget(pc, imm16)` (R91): always sign-extended. -/
def btarget (pc : Word) (imm : BitVec 16) : Word := pc + 4#32 + (sext16 imm <<< 2)

/-- `jtarget(pc, addr26)` (R92): the top 4 bits of the jump's own pc. -/
def jtarget (pc : Word) (addr : BitVec 26) : Word := (pc &&& 0xF0000000#32) ||| (addr.setWidth 32 <<< 2)

/-! ### Forwarding into execute (R178) -/

/-- `prev.EM` holds a register write with destination `i`. -/
def emWrites (s : State) (i : Reg) : Bool :=
  s.em.valid && s.em.ctrl.regWrite && dest s.em.ctrl s.em.rt s.em.rd == i

/-- `prev.MW` holds a register write with destination `i`. -/
def mwWrites (s : State) (i : Reg) : Bool := s.mw.valid && s.mw.ctrl.regWrite && s.mw.dest == i

/-- `fwdsel(i)`: index 0 is never forwarded, EM comes before MW (R178, R180). -/
def fwdsel (s : State) (i : Reg) : FwdSel :=
  if i = 0#5 then .noForward
  else if emWrites s i then .forwardFromMemoryStage
  else if mwWrites s i then .forwardFromWritebackStage
  else .noForward

/-- `fwd(i, v)` (R178). -/
def fwd (s : State) (i : Reg) (v : Word) : Word :=
  match fwdsel s i with
  | .noForward => v
  | .forwardFromMemoryStage => s.em.aluResult
  | .forwardFromWritebackStage => s.mw.value

/-- `A_reg`, the forwarded `rs` operand of the instruction in execute, given its `rs` field (R178). -/
def operandA (s : State) (rs : Reg) : Word := fwd s rs s.de.rsVal

/-- `B_reg`, the forwarded `rt` operand, given the `rt` field; also the value to store (R178, R182). -/
def operandB (s : State) (rt : Reg) : Word := fwd s rt s.de.rtVal

/-- ALU operand 1 (R181). -/
def opA (shift : Bool) (shamt : BitVec 5) (a : Word) : Word := if shift then zext5 shamt else a

/-- ALU operand 2 (R183). -/
def opB (aluSrc : Bool) (imm32 b : Word) : Word := if aluSrc then imm32 else b

/-! ### Forwarding into decode (R162) -/

/-- `fwdWB(i, v)` (R162): index 0 is never forwarded (R164). -/
def fwdWB (s : State) (i : Reg) (v : Word) : Word := if !(i == 0#5) && mwWrites s i then s.mw.value else v

end Sys2Proof.Machine
end

