-- ==== Sys2Proof/Machine/Flags.lean ====
section
/-! DEFINITION. The one flag of the CORE, the FU zero flag (10_state.md R35), and the branch outcome read from it
(44_control_transfer.md R204). -/

namespace Sys2Proof.Machine

/-- The zero flag of the reference FU: `z = (res = 0)` (43_execute_forwarding.md R190). -/
def zeroFlag (res : Word) : Bool := res == 0#32

/-- `taken` (R204). A bundle with both bits set is always taken. -/
def branchTaken (c : Ctrl) (z : Bool) : Bool := (c.branch && z) || (c.bne && !z)

end Sys2Proof.Machine
end

