-- ==== Sys2Proof/Machine/FunctionalUnit.lean ====
section
/-! DEFINITION. The reference Functional Unit (43_execute_forwarding.md R190, R191) and the operations it is made of,
which the instructions' meanings share. -/

namespace Sys2Proof.Machine

/-- `zext_1` of a comparison. -/
def boolWord (b : Bool) : Word := if b then 1#32 else 0#32

/-- `s32(a) < s32(b)` (R191). -/
def sltWord (a b : Word) : Word := boolWord (decide (a.toInt < b.toInt))

/-- `a <u b` (R191). -/
def sltuWord (a b : Word) : Word := boolWord (decide (a.toNat < b.toNat))

/-- `sh = a[4:0]` (R190). -/
def shiftAmount (a : Word) : Nat := a.toNat % 32

/-- `b << sh`. -/
def sllWord (a b : Word) : Word := b <<< shiftAmount a

/-- `b >>u sh`. -/
def srlWord (a b : Word) : Word := b >>> shiftAmount a

/-- `b` shifted right by `sh`, bit 31 replicated. -/
def sraWord (a b : Word) : Word := b.sshiftRight (shiftAmount a)

/-- `~(a | b)`. -/
def norWord (a b : Word) : Word := ~~~(a ||| b)

/-- `b << 16`. -/
def luiWord (b : Word) : Word := b <<< 16

/-- The rows of R190 with `alu_op` 2, selected by `funct`; any other `funct` gives 0. -/
def aluByFunct (funct : BitVec 6) (a b : Word) : Word :=
  match funct.toNat with
  | 0x00 => sllWord a b
  | 0x02 => srlWord a b
  | 0x03 => sraWord a b
  | 0x04 => sllWord a b
  | 0x06 => srlWord a b
  | 0x07 => sraWord a b
  | 0x20 => a + b
  | 0x21 => a + b
  | 0x22 => a - b
  | 0x23 => a - b
  | 0x24 => a &&& b
  | 0x25 => a ||| b
  | 0x26 => a ^^^ b
  | 0x27 => norWord a b
  | 0x2A => sltWord a b
  | 0x2B => sltuWord a b
  | _ => 0#32

/-- The rows of R190 with `alu_op` 3, selected by `opcode`; any other `opcode` gives 0. -/
def aluByOpcode (opcode : BitVec 6) (a b : Word) : Word :=
  match opcode.toNat with
  | 0x0A => sltWord a b
  | 0x0B => sltuWord a b
  | 0x0C => a &&& b
  | 0x0D => a ||| b
  | 0x0E => a ^^^ b
  | 0x0F => luiWord b
  | _ => 0#32

/-- The result column of R190. -/
def aluResult (op : BitVec 2) (funct opcode : BitVec 6) (a b : Word) : Word :=
  match op.toNat with
  | 0 => a + b
  | 1 => a - b
  | 2 => aluByFunct funct a b
  | _ => aluByOpcode opcode a b

/-- The reference `FU` (R190): the result and `z = (res = 0)`. -/
def referenceFu (op : BitVec 2) (funct opcode : BitVec 6) (a b : Word) : Word × Bool :=
  (aluResult op funct opcode a b, zeroFlag (aluResult op funct opcode a b))

/-- The reference configuration's decoder and FU (00_scope.md R6; notes/assumptions 8). -/
def referenceCfg : Collaborators where
  dec := referenceDec
  fu := referenceFu

end Sys2Proof.Machine
end

