-- ==== Sys2Proof/Machine/Cycle.lean ====
section
/-! DEFINITION. One clock cycle around a given answer of the execute stage (40_cycle.md): fetch (41), decode and the
load-use check (42), the memory and writeback stages (45), the multiplexers of R126 to R129, and the memory's two
answers. `dec` is the Control Decoder, a parameter (00_scope.md R8). -/

namespace Sys2Proof.Machine

/-! ### Requests and stalls -/

/-- `dreq` with its request (45_memory_writeback.md R223): the `DPort` access the memory stage issues. -/
def dportRequest (s : State) : Option PortRequest :=
  if s.em.valid && (s.em.ctrl.memRead || s.em.ctrl.memWrite) then
    some
      { addr := s.em.aluResult, width := widthOf s.em.ctrl, readEnable := s.em.ctrl.memRead,
        writeEnable := s.em.ctrl.memWrite, writeValue := s.em.storeVal }
  else none

/-- `mem_stall = dreq ∧ ¬DREADY_t` (R122). -/
def memStall (s : State) (dReady : Bool) : Bool := (dportRequest s).isSome && !dReady

/-- `load_use` (42_decode_hazard.md R156, R157): both source positions of the raw word, whatever its format. -/
def loadUse (s : State) : Bool :=
  s.fd.valid && s.de.valid && s.de.ctrl.memRead && s.de.ctrl.regWrite &&
    (rsOf s.fd.word == dest s.de.ctrl s.de.rt s.de.rd || rtOf s.fd.word == dest s.de.ctrl s.de.rt s.de.rd)

/-- `f_issue` (41_fetch.md R141). -/
def fetchIssues (s : State) (dReady : Bool) : Bool := !memStall s dReady && !loadUse s

/-- The `IPort` access of the cycle, if one is issued (20_memory.md R61, 41_fetch.md R141). -/
def iportRequest (s : State) (dReady : Bool) : Option PortRequest :=
  if fetchIssues s dReady then
    some { addr := s.pc, width := .word, readEnable := true, writeEnable := false, writeValue := 0#32 }
  else none

/-! ### Fetch (41_fetch.md) -/

/-- `FetchPredict(a, w)` (R145). -/
def fetchPredict (dec : Word → Ctrl) (s : State) (a w : Word) : Bool :=
  s.cfg.predEn && ((dec w).branch || (dec w).bne) && ptPredicts s.pt a

/-- `fd_out` (R143). -/
def fetchOut (dec : Word → Ctrl) (s : State) (iWord : Word) : FetchDecode where
  valid := true
  word := iWord
  pc := s.pc
  predTaken := fetchPredict dec s s.pc iWord

/-- `pc_seq` (R143, R144). -/
def pcSeq (dec : Word → Ctrl) (s : State) (iWord : Word) : Word :=
  if fetchPredict dec s s.pc iWord then btarget s.pc (imm16Of iWord) else s.pc + 4#32

/-! ### Decode (42_decode_hazard.md) -/

/-- The operand decode latches for index `i`: the register's value before this cycle's write (R160), after
writeback forwarding (R162). -/
def decodeRead (s : State) (i : Reg) : Word := fwdWB s i (readReg s.rf i)

/-- `de_out` (R158, R159). -/
def decodeOut (dec : Word → Ctrl) (s : State) : DecodeExecute :=
  if s.fd.valid then
    .ofWord s.fd.word (decodeRead s (rsOf s.fd.word)) (decodeRead s (rtOf s.fd.word)) (dec s.fd.word) s.fd.pc
      s.fd.predTaken
  else .bubble

/-! ### Memory stage and writeback (45_memory_writeback.md) -/

/-- `loaded` (R227): sub-word data are sign-extended whatever `zext` says. -/
def loadedValue (c : Ctrl) (rData : Word) : Word :=
  if c.memRead then
    match widthOf c with
    | .word => rData
    | .half => (rData.setWidth 16).signExtend 32
    | .byte => (rData.setWidth 8).signExtend 32
  else 0#32

/-- `mw_out` (R222, R228). -/
def memoryOut (em : ExecuteMemory) (rData : Word) : MemoryWriteback :=
  if em.valid then
    { valid := true, dest := dest em.ctrl em.rt em.rd,
      value := if em.ctrl.memToReg then loadedValue em.ctrl rData else em.aluResult, ctrl := em.ctrl, pc := em.pc }
  else .bubble

/-- The register write of writeback (R233). -/
def writeBack (mw : MemoryWriteback) (rf : RegFile) : RegFile :=
  if mw.valid && mw.ctrl.regWrite then writeReg rf mw.dest mw.value else rf

/-- The retirement of the cycle (R235): the address of the instruction written back, if one is. -/
def retires (s : State) (dReady : Bool) : Option Word :=
  if memStall s dReady then none else if s.mw.valid then some s.mw.pc else none

/-! ### The next state (40_cycle.md R126 to R129) -/

/-- The front end of a cycle without a memory stall: rows 2 to 5 of R126, and `fetch_wait'` of R129. A redirect comes
before a load-use stall, that before the fetch's hit or miss (R123). -/
def frontEnd (dec : Word → Ctrl) (redirect : Option Word) (ans : PortAnswers) (s : State) : FrontEnd :=
  match redirect with
  | some target => { pc := target, fd := .bubble, de := .bubble, fetchWait := 0 }
  | none =>
    if loadUse s then { pc := s.pc, fd := s.fd, de := .bubble, fetchWait := s.fetchWait }
    else if ans.iReady then
      { pc := pcSeq dec s ans.iWord, fd := fetchOut dec s ans.iWord, de := decodeOut dec s, fetchWait := 0 }
    else { pc := s.pc, fd := .bubble, de := decodeOut dec s, fetchWait := s.fetchWait + 1 }

/-- Row 1 of R126: a data-memory stall holds everything but `mem_wait` (R125). -/
def frozen (s : State) : State := { s with memWait := s.memWait + 1 }

/-- Rows 2 to 5 of R126: every cycle without a data-memory stall, given the execute stage's and the ports' answers. -/
def advanced (dec : Word → Ctrl) (x : ExecuteOut) (ans : PortAnswers) (s : State) : State :=
  { s with
    pc := (frontEnd dec x.redirect ans s).pc
    fd := (frontEnd dec x.redirect ans s).fd
    de := (frontEnd dec x.redirect ans s).de
    em := x.em
    mw := memoryOut s.em ans.rData
    pt := applyUpd x.ptUpd s.pt
    fetchWait := (frontEnd dec x.redirect ans s).fetchWait
    memWait := 0
    rf := writeBack s.mw s.rf }

/-- The CORE's own next state (R130), a function of its state, the execute stage's answer and the ports' answers. Memory
contents and the schedule are the collaborator's (`cycleNext`). -/
def coreNext (dec : Word → Ctrl) (x : ExecuteOut) (ans : PortAnswers) (s : State) : State :=
  if memStall s ans.dReady then frozen s else advanced dec x ans s

/-! ### The memory's answers -/

/-- The answers of both ports. Both read memory as it stands at the start of the cycle: the fetch comes before the
cycle's store (20_memory.md R75), and an access reads before it writes (45 R225). -/
def answers (s : State) : PortAnswers where
  iReady := s.ports.now.iReady
  iWord := memRead s.cfg.endian s.mem s.pc .word
  dReady := s.ports.now.dReady
  rData := match dportRequest s with
    | some r => r.readValue s.cfg.endian s.mem
    | none => 0#32

/-- Memory after the cycle's data access: written exactly when a store answers ready (20_memory.md R62, 40 R128). -/
def memNext (s : State) : Memory :=
  match dportRequest s with
  | some r => if s.ports.now.dReady then r.written s.cfg.endian s.mem else s.mem
  | none => s.mem

/-- The cycle issues a fetch at an address that is no multiple of 4 (R66). -/
def fetchMisaligned (s : State) : Bool := fetchIssues s s.ports.now.dReady && !aligned s.pc .word

/-- The data access the cycle issues, if its address is no multiple of its width (R66). -/
def dataMisaligned (s : State) : Option PortRequest := (dportRequest s).filter (fun r => !r.aligned)

/-- The state after a cycle that does not stop: the CORE's next state, memory after the data access, the schedule moved
on by one cycle. -/
def cycleNext (dec : Word → Ctrl) (s : State) (x : ExecuteOut) : State :=
  { coreNext dec x (answers s) s with mem := memNext s, ports := s.ports.later }

/-- One cycle, given the Control Decoder and the execute stage's answer. A misaligned access stops the model when it is
issued, the fetch port's first (R75; notes/assumptions 4, 12). -/
def cycle (dec : Word → Ctrl) (s : State) (x : ExecuteOut) : Host.Outcome State Fault Refusal :=
  if fetchMisaligned s then .fault (.misalignedFetch s.pc)
  else
    match dataMisaligned s with
    | some r => .fault (.misalignedData r.addr r.width.bytes)
    | none => .next (cycleNext dec s x)

end Sys2Proof.Machine
end

