-- ==== Sys2Proof/Machine/Execute.lean ====
section
/-! DEFINITION. The execute stage: first as the CORE has it, driven by the control bundle and any Functional Unit
(43_execute_forwarding.md, 44_control_transfer.md), then the shared operations the instructions' meanings are made of. -/

namespace Sys2Proof.Machine

/-! ### The bundle-driven execute stage -/

/-- `is_jump` (44 R201), of a valid instruction. -/
def isJump (c : Ctrl) : Bool := c.jump || c.jr

/-- `is_branch` (44 R201), of a valid instruction: a jump bit wins (R202). -/
def isBranch (c : Ctrl) : Bool := !isJump c && (c.branch || c.bne)

/-- The FU call of the instruction in DE (43 R181, R183, R184). -/
def fuCall (k : Collaborators) (s : State) : Word × Bool :=
  let d := s.de
  k.fu d.ctrl.aluOp d.funct d.opcode (opA d.ctrl.shift d.shamt (operandA s d.rs))
    (opB d.ctrl.aluSrc (extendImm d.ctrl.zext d.imm16) (operandB s d.rt))

/-- `em_out` of a valid instruction (43 R185, R186). -/
def executeEm (k : Collaborators) (s : State) : ExecuteMemory :=
  let d := s.de
  { valid := true, imm32 := extendImm d.ctrl.zext d.imm16, storeVal := operandB s d.rt, rd := d.rd, rt := d.rt,
    aluResult := if d.ctrl.link then d.pc + 8#32 else (fuCall k s).1, zero := (fuCall k s).2, ctrl := d.ctrl, pc := d.pc }

/-- `actual_next` of a branch (44 R205). -/
def actualNext (pc : Word) (imm : BitVec 16) (taken : Bool) : Word := if taken then btarget pc imm else pc + 4#32

/-- `redirect` and `target` (44 R201, R202, R205). -/
def executeRedirect (k : Collaborators) (s : State) : Option Word :=
  let d := s.de
  if isJump d.ctrl then some (if d.ctrl.jr then operandA s d.rs else jtarget d.pc d.addr26)
  else if isBranch d.ctrl then
    let taken := branchTaken d.ctrl (fuCall k s).2
    if taken != d.predTaken then some (actualNext d.pc d.imm16 taken) else none
  else none

/-- `pt_upd` (44 R210). -/
def executePtUpd (k : Collaborators) (s : State) : Option (Nat × Bool) :=
  let d := s.de
  if s.cfg.predEn && isBranch d.ctrl then some (ptIndex s.pt d.pc, branchTaken d.ctrl (fuCall k s).2) else none

/-- The execute stage on `prev.DE`: a bubble gives a bubble (43 R176). -/
def executeStage (k : Collaborators) (s : State) : ExecuteOut :=
  if s.de.valid then { em := executeEm k s, redirect := executeRedirect k s, ptUpd := executePtUpd k s }
  else { em := .bubble, redirect := none, ptUpd := none }

/-- The whole CORE cycle for any decoder, any Functional Unit and any contents of the pipeline registers (40_cycle.md
R130). -/
def coreCycle (k : Collaborators) (s : State) : Host.Outcome State Fault Refusal := cycle k.dec s (executeStage k s)

/-! ### Which instruction is in execute -/

/-- The word DE was decoded from: its opcode and its address field hold all 32 bits. -/
def DecodeExecute.word (d : DecodeExecute) : Word := d.opcode ++ d.addr26

/-- DE is what decoding its own word gives: the fields agree with the word, and the bundle is the reference decoder's. So
of every DE a run reaches; a state with another DE runs by its bundle (notes/assumptions 10). -/
def DecodeExecute.coherent (d : DecodeExecute) : Bool :=
  d == .ofWord d.word d.rsVal d.rtVal (referenceDec d.word) d.pc d.predTaken

/-- The instruction of the table in the execute stage, if there is one. -/
def inExecute (d : DecodeExecute) : Option Instr := if d.coherent then decodeWord d.word else none

/-! ### Shared operations of the meanings

The instruction in execute is given by its fields; DE supplies what depends on the run: its pc, its prediction and the
operand values decode latched. -/

/-- The low 16 bits of an R-format word. -/
def immR (rd : Reg) (sa : BitVec 5) (funct : BitVec 6) : BitVec 16 := rd ++ sa ++ funct

/-- The `rd` field of an I-format word. -/
def rdOfImm (imm : BitVec 16) : Reg := imm.extractLsb' 11 5

/-- `em_out` (43 R186), given the fields, the FU result `res` and the value `alu_result` latches. -/
def emOut (s : State) (c : Ctrl) (rt rd : Reg) (imm : BitVec 16) (res result : Word) : ExecuteMemory where
  valid := true
  imm32 := extendImm c.zext imm
  storeVal := operandB s rt
  rd := rd
  rt := rt
  aluResult := result
  zero := zeroFlag res
  ctrl := c
  pc := s.de.pc

/-- The cycle with an instruction in execute that transfers no control. -/
def runPlain (s : State) (em : ExecuteMemory) : Host.Outcome State Fault Refusal :=
  cycle referenceDec s { em := em, redirect := none, ptUpd := none }

/-- The cycle with a jump in execute: it always redirects (44 R202). -/
def runJump (s : State) (em : ExecuteMemory) (target : Word) : Host.Outcome State Fault Refusal :=
  cycle referenceDec s { em := em, redirect := some target, ptUpd := none }

/-- The cycle with a conditional branch in execute: it redirects to its actual next address exactly on a difference from
the carried prediction, and trains its counter when prediction is enabled (44 R205, R207, R210). -/
def runBranch (s : State) (em : ExecuteMemory) (imm : BitVec 16) (taken : Bool) : Host.Outcome State Fault Refusal :=
  cycle referenceDec s
    { em := em
      redirect := if taken != s.de.predTaken then some (actualNext s.de.pc imm taken) else none
      ptUpd := if s.cfg.predEn then some (ptIndex s.pt s.de.pc, taken) else none }

/-- An R-format instruction that writes the FU result `res` to `rd`, under bundle `c`. -/
def runR (s : State) (c : Ctrl) (rt rd : Reg) (sa : BitVec 5) (funct : BitVec 6) (res : Word) :
    Host.Outcome State Fault Refusal :=
  runPlain s (emOut s c rt rd (immR rd sa funct) res res)

/-- An I-format instruction whose FU result is `res`: written to `rt`, or the address of its data access. -/
def runI (s : State) (c : Ctrl) (rt : Reg) (imm : BitVec 16) (res : Word) : Host.Outcome State Fault Refusal :=
  runPlain s (emOut s c rt (rdOfImm imm) imm res res)

/-- The effective address of a load or store: `x[rs] + sext_16(offset)` (46_instructions.md R277 to R282). -/
def effectiveAddress (s : State) (rs : Reg) (imm : BitVec 16) : Word := operandA s rs + sext16 imm

end Sys2Proof.Machine
end

