-- ==== Sys2Proof/Machine/Branch.lean ====
section
/-! DEFINITION. The branches (46_instructions.md R267, R268), resolved from the zero flag of `x[rs] - x[rt]` (44_control_transfer.md
R204), both operands forwarded. -/

namespace Sys2Proof.Machine

/-- `beq` (R267): `if x[rs] = x[rt] then pc <- pc + 4 + (sext_16(offset) << 2)`. -/
def execBeq (rs rt : Reg) (imm : BitVec 16) (s : State) : Host.Outcome State Fault Refusal :=
  let diff := operandA s rs - operandB s rt
  runBranch s (emOut s .beqBundle rt (rdOfImm imm) imm diff diff) imm (zeroFlag diff)

/-- `bne` (R268): `if x[rs] ≠ x[rt] then pc <- pc + 4 + (sext_16(offset) << 2)`. -/
def execBne (rs rt : Reg) (imm : BitVec 16) (s : State) : Host.Outcome State Fault Refusal :=
  let diff := operandA s rs - operandB s rt
  runBranch s (emOut s .bneBundle rt (rdOfImm imm) imm diff diff) imm (!zeroFlag diff)


end Sys2Proof.Machine
end

