-- ==== Sys2Proof/Machine/ImmediateAlu.lean ====
section
/-! DEFINITION. Immediate arithmetic, logic and compare (46_instructions.md R269 to R276). -/

namespace Sys2Proof.Machine

/-- `addi` (R269): `x[rt] <- x[rs] + sext_16(imm)`, modulo 2^32, no trap on overflow. -/
def execAddi (rs rt : Reg) (imm : BitVec 16) (s : State) : Host.Outcome State Fault Refusal :=
  runI s .addImm rt imm (operandA s rs + sext16 imm)

/-- `addiu` (R270): `x[rt] <- x[rs] + sext_16(imm)`, modulo 2^32. -/
def execAddiu (rs rt : Reg) (imm : BitVec 16) (s : State) : Host.Outcome State Fault Refusal :=
  runI s .addImm rt imm (operandA s rs + sext16 imm)

/-- `slti` (R271): `x[rt] <- (s32(x[rs]) < s32(sext_16(imm))) ? 1 : 0`. -/
def execSlti (rs rt : Reg) (imm : BitVec 16) (s : State) : Host.Outcome State Fault Refusal :=
  runI s .setImm rt imm (sltWord (operandA s rs) (sext16 imm))

/-- `sltiu` (R272): `x[rt] <- (x[rs] <u sext_16(imm)) ? 1 : 0`. -/
def execSltiu (rs rt : Reg) (imm : BitVec 16) (s : State) : Host.Outcome State Fault Refusal :=
  runI s .setImm rt imm (sltuWord (operandA s rs) (sext16 imm))

/-- `andi` (R273): `x[rt] <- x[rs] & zext_16(imm)`. -/
def execAndi (rs rt : Reg) (imm : BitVec 16) (s : State) : Host.Outcome State Fault Refusal :=
  runI s .logicImm rt imm (operandA s rs &&& zext16 imm)

/-- `ori` (R274): `x[rt] <- x[rs] | zext_16(imm)`. -/
def execOri (rs rt : Reg) (imm : BitVec 16) (s : State) : Host.Outcome State Fault Refusal :=
  runI s .logicImm rt imm (operandA s rs ||| zext16 imm)

/-- `xori` (R275): `x[rt] <- x[rs] ^ zext_16(imm)`. -/
def execXori (rs rt : Reg) (imm : BitVec 16) (s : State) : Host.Outcome State Fault Refusal :=
  runI s .logicImm rt imm (operandA s rs ^^^ zext16 imm)

/-- `lui` (R276): `x[rt] <- imm << 16`. The `rs` field has no effect on the result. -/
def execLui (_rsX rt : Reg) (imm : BitVec 16) (s : State) : Host.Outcome State Fault Refusal :=
  runI s .logicImm rt imm (luiWord (zext16 imm))


end Sys2Proof.Machine
end

