-- ==== Sys2Proof/Machine/Jump.lean ====
section
/-! DEFINITION. The jumps (46_instructions.md R253, R254, R265, R266). A jump always redirects and discards the two slots behind it; there
is no delay slot (44_control_transfer.md R202, R206, 70_reset_and_hazards.md R332). A link is `pc + 8` (43 R185). -/

namespace Sys2Proof.Machine

/-- The `rs`, `rt`, `rd` and `imm16` positions of a J-format word, which the pipeline latches like any word's
(30_encoding.md R86). -/
def rsOfAddr (addr : BitVec 26) : Reg := addr.extractLsb' 21 5
def rtOfAddr (addr : BitVec 26) : Reg := addr.extractLsb' 16 5
def rdOfAddr (addr : BitVec 26) : Reg := addr.extractLsb' 11 5
def immOfAddr (addr : BitVec 26) : BitVec 16 := addr.extractLsb' 0 16

/-- The FU result of a J-format instruction: class 0, the sum of whatever the word's index positions read. No rule uses
it but the latches of EM (43_execute_forwarding.md R184, R186). -/
def jumpSum (addr : BitVec 26) (s : State) : Word := operandA s (rsOfAddr addr) + operandB s (rtOfAddr addr)

/-- `j` (R265): `pc <- (pc & 0xF0000000) | (addr26 << 2)`. -/
def execJ (addr : BitVec 26) (s : State) : Host.Outcome State Fault Refusal :=
  runJump s (emOut s .jBundle (rtOfAddr addr) (rdOfAddr addr) (immOfAddr addr) (jumpSum addr s) (jumpSum addr s))
    (jtarget s.de.pc addr)

/-- `jal` (R266): `x[31] <- pc + 8; pc <- (pc & 0xF0000000) | (addr26 << 2)`. -/
def execJal (addr : BitVec 26) (s : State) : Host.Outcome State Fault Refusal :=
  runJump s (emOut s .jalBundle (rtOfAddr addr) (rdOfAddr addr) (immOfAddr addr) (jumpSum addr s) (s.de.pc + 8#32))
    (jtarget s.de.pc addr)

/-- `jr` (R253): `pc <- x[rs]`. The FU gives 0 (43_execute_forwarding.md R190), which nothing reads. -/
def execJr (rs rtX rdX : Reg) (saX : BitVec 5) (s : State) : Host.Outcome State Fault Refusal :=
  runJump s (emOut s .jrBundle rtX rdX (immR rdX saX 0x08#6) 0#32 0#32) (operandA s rs)

/-- `jalr` (R254): `x[rd] <- pc + 8; pc <- x[rs]`, the target read before the link is written. -/
def execJalr (rs rtX rd : Reg) (saX : BitVec 5) (s : State) : Host.Outcome State Fault Refusal :=
  runJump s (emOut s .jalrBundle rtX rd (immR rd saX 0x09#6) 0#32 (s.de.pc + 8#32)) (operandA s rs)


end Sys2Proof.Machine
end

