-- ==== Sys2Proof/Machine/Load.lean ====
section
/-! DEFINITION. The loads (46_instructions.md R277 to R279). Execute computes the address; the access is made, and the value extended,
by the memory stage in the next cycle without a stall (45_memory_writeback.md R223, R227, R228). -/

namespace Sys2Proof.Machine

/-- `lb` (R277): `x[rt] <- sext_8(MemRead(x[rs] + sext_16(offset), 1))`. -/
def execLb (rs rt : Reg) (imm : BitVec 16) (s : State) : Host.Outcome State Fault Refusal :=
  runI s .loadByte rt imm (effectiveAddress s rs imm)

/-- `lh` (R278): `x[rt] <- sext_16(MemRead(x[rs] + sext_16(offset), 2))`. -/
def execLh (rs rt : Reg) (imm : BitVec 16) (s : State) : Host.Outcome State Fault Refusal :=
  runI s .loadHalf rt imm (effectiveAddress s rs imm)

/-- `lw` (R279): `x[rt] <- MemRead(x[rs] + sext_16(offset), 4)`. -/
def execLw (rs rt : Reg) (imm : BitVec 16) (s : State) : Host.Outcome State Fault Refusal :=
  runI s .loadWord rt imm (effectiveAddress s rs imm)


end Sys2Proof.Machine
end

