-- ==== Sys2Proof/Machine/RegisterAlu.lean ====
section
/-! DEFINITION. Register arithmetic, logic and compare (46_instructions.md R255 to R264). -/

namespace Sys2Proof.Machine

/-- `add` (R255): `x[rd] <- x[rs] + x[rt]`, modulo 2^32, no trap on overflow. -/
def execAdd (rs rt rd : Reg) (saX : BitVec 5) (s : State) : Host.Outcome State Fault Refusal :=
  runR s .rAlu rt rd saX 0x20#6 (operandA s rs + operandB s rt)

/-- `addu` (R256): `x[rd] <- x[rs] + x[rt]`, modulo 2^32. -/
def execAddu (rs rt rd : Reg) (saX : BitVec 5) (s : State) : Host.Outcome State Fault Refusal :=
  runR s .rAlu rt rd saX 0x21#6 (operandA s rs + operandB s rt)

/-- `sub` (R257): `x[rd] <- x[rs] - x[rt]`, modulo 2^32, no trap on overflow. -/
def execSub (rs rt rd : Reg) (saX : BitVec 5) (s : State) : Host.Outcome State Fault Refusal :=
  runR s .rAlu rt rd saX 0x22#6 (operandA s rs - operandB s rt)

/-- `subu` (R258): `x[rd] <- x[rs] - x[rt]`, modulo 2^32. -/
def execSubu (rs rt rd : Reg) (saX : BitVec 5) (s : State) : Host.Outcome State Fault Refusal :=
  runR s .rAlu rt rd saX 0x23#6 (operandA s rs - operandB s rt)

/-- `and` (R259): `x[rd] <- x[rs] & x[rt]`. -/
def execAnd (rs rt rd : Reg) (saX : BitVec 5) (s : State) : Host.Outcome State Fault Refusal :=
  runR s .rAlu rt rd saX 0x24#6 (operandA s rs &&& operandB s rt)

/-- `or` (R260): `x[rd] <- x[rs] | x[rt]`. -/
def execOr (rs rt rd : Reg) (saX : BitVec 5) (s : State) : Host.Outcome State Fault Refusal :=
  runR s .rAlu rt rd saX 0x25#6 (operandA s rs ||| operandB s rt)

/-- `xor` (R261): `x[rd] <- x[rs] ^ x[rt]`. -/
def execXor (rs rt rd : Reg) (saX : BitVec 5) (s : State) : Host.Outcome State Fault Refusal :=
  runR s .rAlu rt rd saX 0x26#6 (operandA s rs ^^^ operandB s rt)

/-- `nor` (R262): `x[rd] <- ~(x[rs] | x[rt])`. -/
def execNor (rs rt rd : Reg) (saX : BitVec 5) (s : State) : Host.Outcome State Fault Refusal :=
  runR s .rAlu rt rd saX 0x27#6 (norWord (operandA s rs) (operandB s rt))

/-- `slt` (R263): `x[rd] <- (s32(x[rs]) < s32(x[rt])) ? 1 : 0`. -/
def execSlt (rs rt rd : Reg) (saX : BitVec 5) (s : State) : Host.Outcome State Fault Refusal :=
  runR s .rAlu rt rd saX 0x2A#6 (sltWord (operandA s rs) (operandB s rt))

/-- `sltu` (R264): `x[rd] <- (x[rs] <u x[rt]) ? 1 : 0`. -/
def execSltu (rs rt rd : Reg) (saX : BitVec 5) (s : State) : Host.Outcome State Fault Refusal :=
  runR s .rAlu rt rd saX 0x2B#6 (sltuWord (operandA s rs) (operandB s rt))


end Sys2Proof.Machine
end

