-- ==== Sys2Proof/Machine/Shift.lean ====
section
/-! DEFINITION. The shifts (46_instructions.md R247 to R252). A shift by an amount takes `zext_5(sa)` as operand 1, which is never
forwarded (43_execute_forwarding.md R181). -/

namespace Sys2Proof.Machine

/-- `sll` (R247): `x[rd] <- x[rt] << sa`. -/
def execSll (_rsX rt rd : Reg) (sa : BitVec 5) (s : State) : Host.Outcome State Fault Refusal :=
  runR s .rShift rt rd sa 0x00#6 (sllWord (zext5 sa) (operandB s rt))

/-- `srl` (R248): `x[rd] <- x[rt] >>u sa`. -/
def execSrl (_rsX rt rd : Reg) (sa : BitVec 5) (s : State) : Host.Outcome State Fault Refusal :=
  runR s .rShift rt rd sa 0x02#6 (srlWord (zext5 sa) (operandB s rt))

/-- `sra` (R249): `x[rd] <- x[rt] >>s sa`. -/
def execSra (_rsX rt rd : Reg) (sa : BitVec 5) (s : State) : Host.Outcome State Fault Refusal :=
  runR s .rShift rt rd sa 0x03#6 (sraWord (zext5 sa) (operandB s rt))

/-- `sllv` (R250): `x[rd] <- x[rt] << x[rs][4:0]`. -/
def execSllv (rs rt rd : Reg) (saX : BitVec 5) (s : State) : Host.Outcome State Fault Refusal :=
  runR s .rAlu rt rd saX 0x04#6 (sllWord (operandA s rs) (operandB s rt))

/-- `srlv` (R251): `x[rd] <- x[rt] >>u x[rs][4:0]`. -/
def execSrlv (rs rt rd : Reg) (saX : BitVec 5) (s : State) : Host.Outcome State Fault Refusal :=
  runR s .rAlu rt rd saX 0x06#6 (srlWord (operandA s rs) (operandB s rt))

/-- `srav` (R252): `x[rd] <- x[rt] >>s x[rs][4:0]`. -/
def execSrav (rs rt rd : Reg) (saX : BitVec 5) (s : State) : Host.Outcome State Fault Refusal :=
  runR s .rAlu rt rd saX 0x07#6 (sraWord (operandA s rs) (operandB s rt))


end Sys2Proof.Machine
end

