-- ==== Sys2Proof/Machine/Store.lean ====
section
/-! DEFINITION. The stores (46_instructions.md R280 to R282). Execute computes the address and latches the forwarded `x[rt]` as the value to
store (43_execute_forwarding.md R182); the memory stage performs the store once, when the access answers ready
(45_memory_writeback.md R223, R225). -/

namespace Sys2Proof.Machine

/-- `sb` (R280): `MemWrite(x[rs] + sext_16(offset), 1, x[rt][7:0])`. -/
def execSb (rs rt : Reg) (imm : BitVec 16) (s : State) : Host.Outcome State Fault Refusal :=
  runI s .storeByte rt imm (effectiveAddress s rs imm)

/-- `sh` (R281): `MemWrite(x[rs] + sext_16(offset), 2, x[rt][15:0])`. -/
def execSh (rs rt : Reg) (imm : BitVec 16) (s : State) : Host.Outcome State Fault Refusal :=
  runI s .storeHalf rt imm (effectiveAddress s rs imm)

/-- `sw` (R282): `MemWrite(x[rs] + sext_16(offset), 4, x[rt])`. -/
def execSw (rs rt : Reg) (imm : BitVec 16) (s : State) : Host.Outcome State Fault Refusal :=
  runI s .storeWord rt imm (effectiveAddress s rs imm)


end Sys2Proof.Machine
end

