-- ==== Sys2Proof/Machine/Dispatch.lean ====
section
/-! DEFINITION. The meaning of each instruction: the cycle in which it is in the execute stage (40_cycle.md R130, notes/assumptions 9). -/

namespace Sys2Proof.Machine

def exec (i : Instr) (s : State) : Host.Outcome State Fault Refusal :=
  match i with
  | .sll rs rt rd sa => Sys2Proof.Machine.execSll rs rt rd sa s
  | .srl rs rt rd sa => Sys2Proof.Machine.execSrl rs rt rd sa s
  | .sra rs rt rd sa => Sys2Proof.Machine.execSra rs rt rd sa s
  | .sllv rs rt rd sa => Sys2Proof.Machine.execSllv rs rt rd sa s
  | .srlv rs rt rd sa => Sys2Proof.Machine.execSrlv rs rt rd sa s
  | .srav rs rt rd sa => Sys2Proof.Machine.execSrav rs rt rd sa s
  | .jr rs rt rd sa => Sys2Proof.Machine.execJr rs rt rd sa s
  | .jalr rs rt rd sa => Sys2Proof.Machine.execJalr rs rt rd sa s
  | .add rs rt rd sa => Sys2Proof.Machine.execAdd rs rt rd sa s
  | .addu rs rt rd sa => Sys2Proof.Machine.execAddu rs rt rd sa s
  | .sub rs rt rd sa => Sys2Proof.Machine.execSub rs rt rd sa s
  | .subu rs rt rd sa => Sys2Proof.Machine.execSubu rs rt rd sa s
  | .and rs rt rd sa => Sys2Proof.Machine.execAnd rs rt rd sa s
  | .or rs rt rd sa => Sys2Proof.Machine.execOr rs rt rd sa s
  | .xor rs rt rd sa => Sys2Proof.Machine.execXor rs rt rd sa s
  | .nor rs rt rd sa => Sys2Proof.Machine.execNor rs rt rd sa s
  | .slt rs rt rd sa => Sys2Proof.Machine.execSlt rs rt rd sa s
  | .sltu rs rt rd sa => Sys2Proof.Machine.execSltu rs rt rd sa s
  | .j addr => Sys2Proof.Machine.execJ addr s
  | .jal addr => Sys2Proof.Machine.execJal addr s
  | .beq rs rt imm => Sys2Proof.Machine.execBeq rs rt imm s
  | .bne rs rt imm => Sys2Proof.Machine.execBne rs rt imm s
  | .addi rs rt imm => Sys2Proof.Machine.execAddi rs rt imm s
  | .addiu rs rt imm => Sys2Proof.Machine.execAddiu rs rt imm s
  | .slti rs rt imm => Sys2Proof.Machine.execSlti rs rt imm s
  | .sltiu rs rt imm => Sys2Proof.Machine.execSltiu rs rt imm s
  | .andi rs rt imm => Sys2Proof.Machine.execAndi rs rt imm s
  | .ori rs rt imm => Sys2Proof.Machine.execOri rs rt imm s
  | .xori rs rt imm => Sys2Proof.Machine.execXori rs rt imm s
  | .lui rs rt imm => Sys2Proof.Machine.execLui rs rt imm s
  | .lb rs rt imm => Sys2Proof.Machine.execLb rs rt imm s
  | .lh rs rt imm => Sys2Proof.Machine.execLh rs rt imm s
  | .lw rs rt imm => Sys2Proof.Machine.execLw rs rt imm s
  | .sb rs rt imm => Sys2Proof.Machine.execSb rs rt imm s
  | .sh rs rt imm => Sys2Proof.Machine.execSh rs rt imm s
  | .sw rs rt imm => Sys2Proof.Machine.execSw rs rt imm s

end Sys2Proof.Machine
end

