-- ==== Sys2Proof/Machine/Step.lean ====
section
/-! DEFINITION. The step: one clock cycle (40_cycle.md R120). The instruction in the execute stage gives the cycle its
meaning; a bubble, an inert word, or a bundle that no word of the reference decoder has, runs the bundle-driven cycle. -/

namespace Sys2Proof.Machine

/-- One call of `advance()`. -/
def step (s : State) : Host.Outcome State Fault Refusal :=
  match inExecute s.de with
  | some i => exec i s
  | none => coreCycle referenceCfg s

/-- The word (the bits above `nbits` zero) stored where the machine fetches and carried to the execute stage, so that
the very next step runs it, predicted not taken (DESIGN CHOICE, notes/assumptions 9, 20). -/
def State.withFetchWord (s : State) (nbits w : Nat) : State := placeWord referenceDec s (BitVec.ofNat 32 (w % 2 ^ nbits))

end Sys2Proof.Machine
end

