-- ==== Sys2Proof/Machine/Sequential.lean ====
section
/-! DEFINITION. The operation lines of 46_instructions.md (R247 to R282), one instruction at a time and with no delay
slot: the sequential execution that R284 compares the pipeline with. No step runs it; statements about the pipeline are
made against it. -/

namespace Sys2Proof.Machine

/-- What sequential execution sees: the next instruction's address, the registers and memory. -/
structure ArchState where
  pc  : Word
  rf  : RegFile
  mem : Memory
  deriving DecidableEq, Repr

/-- `x[rd] <- v`, then pc + 4. -/
def ArchState.writes (a : ArchState) (rd : Reg) (v : Word) : Option ArchState :=
  some { a with pc := a.pc + 4#32, rf := writeReg a.rf rd v }

/-- `x[rt] <- ext(MemRead(ea, n))`; no answer for a misaligned address (20_memory.md R66). -/
def ArchState.loads (a : ArchState) (e : Endian) (rt : Reg) (ea : Word) (w : Width) (ext : Word → Word) :
    Option ArchState :=
  if aligned ea w then a.writes rt (ext (memRead e a.mem ea w)) else none

/-- `MemWrite(ea, n, v)`; no answer for a misaligned address. -/
def ArchState.stores (a : ArchState) (e : Endian) (ea : Word) (w : Width) (v : Word) : Option ArchState :=
  if aligned ea w then some { a with pc := a.pc + 4#32, mem := memWrite e a.mem ea w v } else none

/-- `if c then pc <- pc + 4 + (sext_16(offset) << 2)`. -/
def ArchState.branches (a : ArchState) (c : Bool) (imm : BitVec 16) : Option ArchState :=
  some { a with pc := if c then btarget a.pc imm else a.pc + 4#32 }

/-- `pc <- target`. -/
def ArchState.jumps (a : ArchState) (target : Word) : Option ArchState := some { a with pc := target }

/-- `x[rd] <- pc + 8; pc <- target`. -/
def ArchState.links (a : ArchState) (rd : Reg) (target : Word) : Option ArchState :=
  some { a with pc := target, rf := writeReg a.rf rd (a.pc + 8#32) }

/-- `sext_8` and `sext_16` of a loaded datum, which lies in the low bits. -/
def sextByte (v : Word) : Word := (v.setWidth 8).signExtend 32
def sextHalf (v : Word) : Word := (v.setWidth 16).signExtend 32

/-- One instruction, the one at `a.pc`. -/
def seqExec (e : Endian) (i : Instr) (a : ArchState) : Option ArchState :=
  let x := readReg a.rf
  match i with
  | .sll _ rt rd sa => a.writes rd (x rt <<< sa.toNat)
  | .srl _ rt rd sa => a.writes rd (x rt >>> sa.toNat)
  | .sra _ rt rd sa => a.writes rd ((x rt).sshiftRight sa.toNat)
  | .sllv rs rt rd _ => a.writes rd (x rt <<< ((x rs).toNat % 32))
  | .srlv rs rt rd _ => a.writes rd (x rt >>> ((x rs).toNat % 32))
  | .srav rs rt rd _ => a.writes rd ((x rt).sshiftRight ((x rs).toNat % 32))
  | .jr rs _ _ _ => a.jumps (x rs)
  | .jalr rs _ rd _ => a.links rd (x rs)
  | .add rs rt rd _ => a.writes rd (x rs + x rt)
  | .addu rs rt rd _ => a.writes rd (x rs + x rt)
  | .sub rs rt rd _ => a.writes rd (x rs - x rt)
  | .subu rs rt rd _ => a.writes rd (x rs - x rt)
  | .and rs rt rd _ => a.writes rd (x rs &&& x rt)
  | .or rs rt rd _ => a.writes rd (x rs ||| x rt)
  | .xor rs rt rd _ => a.writes rd (x rs ^^^ x rt)
  | .nor rs rt rd _ => a.writes rd (~~~(x rs ||| x rt))
  | .slt rs rt rd _ => a.writes rd (if (x rs).toInt < (x rt).toInt then 1#32 else 0#32)
  | .sltu rs rt rd _ => a.writes rd (if (x rs).toNat < (x rt).toNat then 1#32 else 0#32)
  | .j addr => a.jumps (jtarget a.pc addr)
  | .jal addr => a.links 31#5 (jtarget a.pc addr)
  | .beq rs rt imm => a.branches (decide (x rs = x rt)) imm
  | .bne rs rt imm => a.branches (decide (x rs ≠ x rt)) imm
  | .addi rs rt imm => a.writes rt (x rs + sext16 imm)
  | .addiu rs rt imm => a.writes rt (x rs + sext16 imm)
  | .slti rs rt imm => a.writes rt (if (x rs).toInt < (sext16 imm).toInt then 1#32 else 0#32)
  | .sltiu rs rt imm => a.writes rt (if (x rs).toNat < (sext16 imm).toNat then 1#32 else 0#32)
  | .andi rs rt imm => a.writes rt (x rs &&& zext16 imm)
  | .ori rs rt imm => a.writes rt (x rs ||| zext16 imm)
  | .xori rs rt imm => a.writes rt (x rs ^^^ zext16 imm)
  | .lui _ rt imm => a.writes rt (zext16 imm <<< 16)
  | .lb rs rt imm => a.loads e rt (x rs + sext16 imm) .byte sextByte
  | .lh rs rt imm => a.loads e rt (x rs + sext16 imm) .half sextHalf
  | .lw rs rt imm => a.loads e rt (x rs + sext16 imm) .word id
  | .sb rs rt imm => a.stores e (x rs + sext16 imm) .byte (x rt)
  | .sh rs rt imm => a.stores e (x rs + sext16 imm) .half (x rt)
  | .sw rs rt imm => a.stores e (x rs + sext16 imm) .word (x rt)

/-- Fetch and execute one word. An inert word does nothing but pass (46_instructions.md R283). -/
def seqStep (e : Endian) (a : ArchState) : Option ArchState :=
  match decodeWord (memRead e a.mem a.pc .word) with
  | some i => seqExec e i a
  | none => some { a with pc := a.pc + 4#32 }

/-- `n` words one at a time. -/
def seqRun (e : Endian) : Nat → ArchState → Option ArchState
  | 0, a => some a
  | n + 1, a => (seqStep e a).bind (seqRun e n)

end Sys2Proof.Machine
end

