-- ==== Sys2Proof/Safety.lean ====
section
/-! DEFINITION. The terms statements are made in: a cycle that flows, the invariant of every reachable state
(60_exceptions.md R304), the settled view the instruction in execute observes (46_instructions.md R245), and the
retirement sequence (45_memory_writeback.md R235). -/

namespace Sys2Proof.Machine

/-! ### Cycles -/

/-- The cycle has a data-memory stall (40_cycle.md R122). -/
def State.stalls (s : State) : Bool := memStall s s.ports.now.dReady

/-- The cycle makes no misaligned access, so it does not stop (60_exceptions.md R303). -/
def State.accessesAligned (s : State) : Bool := !fetchMisaligned s && (dataMisaligned s).isNone

/-- The instruction in execute leaves it in this cycle (44_control_transfer.md R212): no stop, no stall. -/
def State.flows (s : State) : Bool := s.accessesAligned && !s.stalls

/-- The redirect of the cycle, with its target (44_control_transfer.md R200). -/
def State.redirects (s : State) : Option Word := (executeStage referenceCfg s).redirect

/-- The cycle has no stop, no stall of either kind and no redirect, and its fetch answers ready. -/
def State.straight (s : State) : Bool := s.flows && !loadUse s && s.redirects.isNone && s.ports.now.iReady

/-- The first `k` cycles are all so. -/
def runsStraight : Nat → State → Bool
  | 0, _ => true
  | k + 1, s =>
    s.straight &&
      match step s with
      | .next t => runsStraight k t
      | _ => false

/-- `k` cycles run without a stop. -/
def runsSafely (k : Nat) (s : State) : Bool :=
  match core.run k s with
  | .next _ => true
  | _ => false

/-- The retirement sequence of the first `k` cycles (R235), up to a stop. -/
def retirements : Nat → State → List Word
  | 0, _ => []
  | k + 1, s =>
    match step s with
    | .next t => (retires s s.ports.now.dReady).toList ++ retirements k t
    | _ => []

/-! ### The executed path (R304 (f)) -/

/-- Where fetch goes after the word in FD: its predicted path (41_fetch.md R143). -/
def FetchDecode.successor (f : FetchDecode) : Word := if f.predTaken then btarget f.pc (imm16Of f.word) else f.pc + 4#32

def DecodeExecute.successor (d : DecodeExecute) : Word := if d.predTaken then btarget d.pc d.imm16 else d.pc + 4#32

/-- The instruction after the one in EM, from what EM holds; a jump's target is no longer there. -/
def ExecuteMemory.successor (e : ExecuteMemory) : Option Word :=
  if isJump e.ctrl then none
  else if isBranch e.ctrl && branchTaken e.ctrl e.zero then some (e.pc + 4#32 + (e.imm32 <<< 2))
  else some (e.pc + 4#32)

/-- The instruction after the one in MW, where MW still tells it. -/
def MemoryWriteback.successor (m : MemoryWriteback) : Option Word :=
  if isJump m.ctrl || isBranch m.ctrl then none else some (m.pc + 4#32)

/-- The address of the oldest instruction not yet past decode: in FD, or else the next one fetched. -/
def State.fromFetch (s : State) : Word := if s.fd.valid then s.fd.pc else s.pc

/-- The address of the oldest instruction not yet executed. -/
def State.nextPc (s : State) : Word := if s.de.valid then s.de.pc else s.fromFetch

/-- The address of the oldest instruction not yet past the memory stage. -/
def State.fromMemory (s : State) : Word := if s.em.valid then s.em.pc else s.nextPc

/-- The `pc` fields of the valid registers, from MW to FD and on to PC, are consecutive instructions of the executed path;
bubbles lie between them (R304 (f)). -/
structure State.OnPath (s : State) : Prop where
  fromFd : s.fd.valid = true → s.pc = s.fd.successor
  fromDe : s.de.valid = true → s.fromFetch = s.de.successor
  fromEm : s.em.valid = true → ∀ a, s.em.successor = some a → s.nextPc = a
  fromMw : s.mw.valid = true → ∀ a, s.mw.successor = some a → s.fromMemory = a

/-! ### The invariant -/

/-- What holds in every reachable state: R304 (b), (d), (e), (f); the memory's canonical form; a predictor table that is
not empty (00_scope.md R8); bundles of the reference decoder and a DE that agrees with its word; a prediction only on a
branch (41_fetch.md R145); operand latches equal to the registers (42_decode_hazard.md R163); and the load-use interlock
(43_execute_forwarding.md R187). R304 (a) and (c) hold by the definitions of `fwdsel`, `fwdWB` and `Counter`. -/
structure State.Inv (s : State) : Prop where
  memCanonical : s.mem.wf = true
  tableNonempty : s.pt ≠ []
  fdBubble : s.fd.valid = false → s.fd = .bubble
  deBubble : s.de.valid = false → s.de = .bubble
  emBubble : s.em.valid = false → s.em = .bubble
  mwBubble : s.mw.valid = false → s.mw = .bubble
  deCoherent : s.de.valid = true → s.de.coherent = true
  emBundle : s.em.ctrl ∈ referenceBundles
  mwBundle : s.mw.ctrl ∈ referenceBundles
  waitPending : 0 < s.memWait → s.em.valid = true ∧ (s.em.ctrl.memRead = true ∨ s.em.ctrl.memWrite = true)
  unpredicted : s.cfg.predEn = false → s.fd.predTaken = false ∧ s.de.predTaken = false
  fdPredicted : s.fd.predTaken = true → (referenceDec s.fd.word).branch = true ∨ (referenceDec s.fd.word).bne = true
  dePredicted : s.de.predTaken = true → s.de.ctrl.branch = true ∨ s.de.ctrl.bne = true
  latches : s.de.valid = true → s.de.rsVal = readReg s.rf s.de.rs ∧ s.de.rtVal = readReg s.rf s.de.rt
  interlock : s.de.valid = true → s.em.valid = true → s.em.ctrl.memRead = true → s.em.ctrl.regWrite = true →
    dest s.em.ctrl s.em.rt s.em.rd ≠ s.de.rs ∧ dest s.em.ctrl s.em.rt s.em.rd ≠ s.de.rt
  onPath : s.OnPath

/-! ### The settled view (the model's own device for statements; notes/assumptions 15) -/

/-- The registers as the instruction in execute must observe them: with the writes of the two older instructions in MW
and EM done, a load in EM reading memory as it stands. -/
def State.settledRf (s : State) : RegFile := writeBack (memoryOut s.em (answers s).rData) (writeBack s.mw s.rf)

/-- Memory as the instruction in execute must observe it: with the store in EM done. -/
def State.settledMem (s : State) : Memory :=
  match dportRequest s with
  | some r => r.written s.cfg.endian s.mem
  | none => s.mem

/-- The state sequential execution would be in before the instruction in execute. Once EM and MW are bubbles it is the
committed state itself. -/
def State.settled (s : State) : ArchState where
  pc := s.nextPc
  rf := s.settledRf
  mem := s.settledMem

/-! ### Runs against sequential execution (46_instructions.md R284) -/

/-- How many words the first `k` cycles take out of execute. -/
def executed : Nat → State → Nat
  | 0, _ => 0
  | k + 1, s =>
    match step s with
    | .next t => (if s.de.valid && !s.stalls then 1 else 0) + executed k t
    | _ => 0

/-- In each of the first `k` cycles, the word in execute is what memory holds at its address once the older instructions
are done: no instruction observes a modification of instruction memory after it was fetched. -/
def runsCurrentCode : Nat → State → Bool
  | 0, _ => true
  | k + 1, s =>
    (!s.de.valid || s.de.word == memRead s.cfg.endian s.settledMem s.de.pc .word) &&
      match step s with
      | .next t => runsCurrentCode k t
      | _ => true

/-! ### Results and frames -/

/-- Register `rd` holds `v`, unless it is register 0, which still reads 0; every other register is as before. -/
def writesOnly (rf rf' : RegFile) (rd : Reg) (v : Word) : Prop :=
  ∀ r, readReg rf' r = if r = rd ∧ rd ≠ 0#5 then v else readReg rf r

/-- Every register is as before. -/
def sameRegs (rf rf' : RegFile) : Prop := ∀ r, readReg rf' r = readReg rf r

/-- Every byte of memory is as before. -/
def sameBytes (m m' : Memory) : Prop := ∀ a, readByte m' a = readByte m a

/-- What a flowing cycle does whichever instruction is in execute: that instruction moves on to EM with its bundle, the two
older ones have their effects, the options stay, and the schedule moves on. -/
structure State.Advances (s t : State) : Prop where
  options : t.cfg = s.cfg
  moved : t.em.valid = true ∧ t.em.pc = s.de.pc ∧ t.em.ctrl = s.de.ctrl
  registers : t.rf = writeBack s.mw s.rf
  writeback : t.mw = memoryOut s.em (answers s).rData
  memory : t.mem = s.settledMem
  memWait : t.memWait = 0
  ports : t.ports = s.ports.later

/-- The instruction writes `v` to `rd` and changes nothing else: no other register, no byte of memory, no counter of the
predictor; it is followed by the next word. -/
structure State.Writes (s t : State) (rd : Reg) (v : Word) : Prop where
  advances : s.Advances t
  registers : writesOnly s.settledRf t.settledRf rd v
  memory : sameBytes s.settledMem t.settledMem
  predictor : t.pt = s.pt
  next : t.nextPc = s.de.pc + 4#32

/-- The instruction transfers control to `target`: the two younger slots are discarded (44_control_transfer.md R206). -/
structure State.Transfers (s t : State) (target : Word) : Prop where
  pc : t.pc = target
  fd : t.fd = .bubble
  de : t.de = .bubble
  next : t.nextPc = target

end Sys2Proof.Machine
end

