-- ==== Sys2Proof/Certificates/Slice0/Obligations.lean ====
section
/-! DEFINITION. The statements for the provers. They come from the rules R<n> of spec/; each docstring names what it
formalises, and says where a clause rests on the model's own choice. -/

open Sys2Proof Sys2Proof.Machine

/-! ### Reset -/

/-- R45: what reset leaves. The launch arguments are kept as given (`RF0`, `MEM0`), register 0 reads 0. -/
def Obligations.LaunchLeavesTheResetValues : Prop :=
  ∀ (cfg : Cfg) (n : Nat) (rf0 : RegFile) (mem0 : Memory) (ports : Readiness),
    let s := State.launch cfg n rf0 mem0 ports
    let zero : Ctrl := ⟨false, false, false, false, false, false, false, false, false, 0#2, false, false, false, false,
      false, false⟩
    s.pc = 0x00000000#32 ∧
    s.fd = ⟨false, 0#32, 0#32, false⟩ ∧
    s.de = ⟨false, 0#6, 0#5, 0#5, 0#5, 0#5, 0#6, 0#16, 0#26, 0#32, 0#32, zero, 0#32, false⟩ ∧
    s.em = ⟨false, 0#32, 0#32, 0#5, 0#5, 0#32, false, zero, 0#32⟩ ∧
    s.mw = ⟨false, 0#5, 0#32, zero, 0#32⟩ ∧
    s.pt.length = n ∧ (∀ c ∈ s.pt, c.val = 0) ∧
    s.fetchWait = 0 ∧ s.memWait = 0 ∧
    s.rf = rf0 ∧ readReg s.rf 0#5 = 0#32 ∧ s.mem = mem0

/-- The invariant of R304 holds at every launch with a predictor of at least one counter (R8) and canonical memory, and at
`State.reset`, whose launch arguments are the model's choice (notes/assumptions 1, 2, 3, 5, 6, 7). -/
def Obligations.LaunchMeetsTheInvariant : Prop :=
  (∀ (cfg : Cfg) (n : Nat) (rf0 : RegFile) (mem0 : Memory) (ports : Readiness),
    0 < n → mem0.wf = true → (State.launch cfg n rf0 mem0 ports).Inv) ∧
  State.reset.Inv

/-! ### Encoding -/

/-- A few words written out from the layouts of R247 to R282 decode to what they stand for, in either byte order. The
bit positions are the spec's own general knowledge; big-endian is the model's reading (notes/assumptions 3, 8). -/
def Obligations.SampleWordsDecode : Prop :=
  decode .little [0x00#8, 0x19#8, 0x02#8, 0x00#8] = .decoded (.sll 0#5 2#5 3#5 4#5) [] ∧
  decode .big [0x00#8, 0x02#8, 0x19#8, 0x00#8] = .decoded (.sll 0#5 2#5 3#5 4#5) [] ∧
  decodeWord 0b00000000001000100001100000100000#32 = some (.add 1#5 2#5 3#5 0#5) ∧
  decodeWord 0b00000011111000000000000000001000#32 = some (.jr 31#5 0#5 0#5 0#5) ∧
  decodeWord 0b00001000000000000000000000000110#32 = some (.j 6#26) ∧
  decodeWord 0b00010100001000101111111111111110#32 = some (.bne 1#5 2#5 0xFFFE#16) ∧
  decodeWord 0b00100000001000010000000000000001#32 = some (.addi 1#5 1#5 1#16) ∧
  decodeWord 0b10001100001000110000000000000000#32 = some (.lw 1#5 3#5 0#16) ∧
  decodeWord 0b10100000001000100000000000000101#32 = some (.sb 1#5 2#5 5#16)

/-- R86, R159: what decode makes of the word in FD. It extracts every field of every word, whatever its format, and reads
both index positions: a register's value from before this cycle's write (R160), unless the word in MW writes it in this
cycle (R162). A bubble stays a bubble (R158). -/
def Obligations.DecodeSlicesEveryWord : Prop :=
  ∀ (dec : Word → Ctrl) (s : State),
    let w := s.fd.word.toNat
    let d := decodeOut dec s
    let value (r : Reg) : Word :=
      if r ≠ 0#5 ∧ s.mw.valid = true ∧ s.mw.ctrl.regWrite = true ∧ s.mw.dest = r then s.mw.value else readReg s.rf r
    (s.fd.valid = false → d = .bubble) ∧
    (s.fd.valid = true →
      d.valid = true ∧
      d.opcode.toNat = w / 2 ^ 26 ∧
      d.rs.toNat = w / 2 ^ 21 % 2 ^ 5 ∧
      d.rt.toNat = w / 2 ^ 16 % 2 ^ 5 ∧
      d.rd.toNat = w / 2 ^ 11 % 2 ^ 5 ∧
      d.shamt.toNat = w / 2 ^ 6 % 2 ^ 5 ∧
      d.funct.toNat = w % 2 ^ 6 ∧
      d.imm16.toNat = w % 2 ^ 16 ∧
      d.addr26.toNat = w % 2 ^ 26 ∧
      d.rsVal = value d.rs ∧ d.rtVal = value d.rt ∧
      d.ctrl = dec s.fd.word ∧ d.pc = s.fd.pc ∧ d.predTaken = s.fd.predTaken)

/-- R97: the opcode 0 rows of the reference decoder, columns in the order of R27; no other field is checked. -/
def Obligations.RTypeRowsHaveTheirBundles : Prop :=
  ∀ w : Word, opcodeOf w = 0#6 →
    let row (funct : BitVec 6) (mnemonic : String) (c : Ctrl) : Prop :=
      functOf w = funct → (decodeWord w).map Instr.mnemonic = some mnemonic ∧ referenceDec w = c
    row 0x00#6 "sll"
      ⟨true, false, false, false, true, false, false, false, false, 2#2, false, false, false, false, true, false⟩ ∧
    row 0x02#6 "srl"
      ⟨true, false, false, false, true, false, false, false, false, 2#2, false, false, false, false, true, false⟩ ∧
    row 0x03#6 "sra"
      ⟨true, false, false, false, true, false, false, false, false, 2#2, false, false, false, false, true, false⟩ ∧
    row 0x04#6 "sllv"
      ⟨true, false, false, false, false, false, false, false, false, 2#2, false, false, false, false, true, false⟩ ∧
    row 0x06#6 "srlv"
      ⟨true, false, false, false, false, false, false, false, false, 2#2, false, false, false, false, true, false⟩ ∧
    row 0x07#6 "srav"
      ⟨true, false, false, false, false, false, false, false, false, 2#2, false, false, false, false, true, false⟩ ∧
    row 0x08#6 "jr"
      ⟨false, true, true, false, false, false, false, false, false, 2#2, false, false, false, false, false, false⟩ ∧
    row 0x09#6 "jalr"
      ⟨true, true, true, true, false, false, false, false, false, 2#2, false, false, false, false, true, false⟩ ∧
    row 0x20#6 "add"
      ⟨true, false, false, false, false, false, false, false, false, 2#2, false, false, false, false, true, false⟩ ∧
    row 0x21#6 "addu"
      ⟨true, false, false, false, false, false, false, false, false, 2#2, false, false, false, false, true, false⟩ ∧
    row 0x22#6 "sub"
      ⟨true, false, false, false, false, false, false, false, false, 2#2, false, false, false, false, true, false⟩ ∧
    row 0x23#6 "subu"
      ⟨true, false, false, false, false, false, false, false, false, 2#2, false, false, false, false, true, false⟩ ∧
    row 0x24#6 "and"
      ⟨true, false, false, false, false, false, false, false, false, 2#2, false, false, false, false, true, false⟩ ∧
    row 0x25#6 "or"
      ⟨true, false, false, false, false, false, false, false, false, 2#2, false, false, false, false, true, false⟩ ∧
    row 0x26#6 "xor"
      ⟨true, false, false, false, false, false, false, false, false, 2#2, false, false, false, false, true, false⟩ ∧
    row 0x27#6 "nor"
      ⟨true, false, false, false, false, false, false, false, false, 2#2, false, false, false, false, true, false⟩ ∧
    row 0x2A#6 "slt"
      ⟨true, false, false, false, false, false, false, false, false, 2#2, false, false, false, false, true, false⟩ ∧
    row 0x2B#6 "sltu"
      ⟨true, false, false, false, false, false, false, false, false, 2#2, false, false, false, false, true, false⟩

/-- R98: the other rows of the reference decoder, matched on the opcode alone. -/
def Obligations.OtherRowsHaveTheirBundles : Prop :=
  ∀ w : Word,
    let row (opcode : BitVec 6) (mnemonic : String) (c : Ctrl) : Prop :=
      opcodeOf w = opcode → (decodeWord w).map Instr.mnemonic = some mnemonic ∧ referenceDec w = c
    row 0x02#6 "j"
      ⟨false, true, false, false, false, false, false, false, false, 0#2, false, false, false, false, false, false⟩ ∧
    row 0x03#6 "jal"
      ⟨false, true, false, true, false, false, false, false, false, 0#2, false, false, false, false, true, false⟩ ∧
    row 0x04#6 "beq"
      ⟨false, false, false, false, false, true, false, false, false, 1#2, false, false, false, false, false, false⟩ ∧
    row 0x05#6 "bne"
      ⟨false, false, false, false, false, false, true, false, false, 1#2, false, false, false, false, false, false⟩ ∧
    row 0x08#6 "addi"
      ⟨false, false, false, false, false, false, false, false, false, 0#2, false, false, false, true, true, false⟩ ∧
    row 0x09#6 "addiu"
      ⟨false, false, false, false, false, false, false, false, false, 0#2, false, false, false, true, true, false⟩ ∧
    row 0x0A#6 "slti"
      ⟨false, false, false, false, false, false, false, false, false, 3#2, false, false, false, true, true, false⟩ ∧
    row 0x0B#6 "sltiu"
      ⟨false, false, false, false, false, false, false, false, false, 3#2, false, false, false, true, true, false⟩ ∧
    row 0x0C#6 "andi"
      ⟨false, false, false, false, false, false, false, false, false, 3#2, false, false, false, true, true, true⟩ ∧
    row 0x0D#6 "ori"
      ⟨false, false, false, false, false, false, false, false, false, 3#2, false, false, false, true, true, true⟩ ∧
    row 0x0E#6 "xori"
      ⟨false, false, false, false, false, false, false, false, false, 3#2, false, false, false, true, true, true⟩ ∧
    row 0x0F#6 "lui"
      ⟨false, false, false, false, false, false, false, false, false, 3#2, false, false, false, true, true, true⟩ ∧
    row 0x20#6 "lb"
      ⟨false, false, false, false, false, false, false, true, true, 0#2, false, false, true, true, true, false⟩ ∧
    row 0x21#6 "lh"
      ⟨false, false, false, false, false, false, false, true, true, 0#2, false, true, false, true, true, false⟩ ∧
    row 0x23#6 "lw"
      ⟨false, false, false, false, false, false, false, true, true, 0#2, false, false, false, true, true, false⟩ ∧
    row 0x28#6 "sb"
      ⟨false, false, false, false, false, false, false, false, false, 0#2, true, false, true, true, false, false⟩ ∧
    row 0x29#6 "sh"
      ⟨false, false, false, false, false, false, false, false, false, 0#2, true, true, false, true, false, false⟩ ∧
    row 0x2B#6 "sw"
      ⟨false, false, false, false, false, false, false, false, false, 0#2, true, false, false, true, false, false⟩

/-- R95: the encodings that are inert in the reference decoder. -/
def Obligations.UnlistedEncodingsAreInert : Prop :=
  ∀ w : Word,
    ((∀ r ∈ opcodeRows, r.matches w = false) → decodeWord w = none) ∧
    (decodeWord w = none → referenceDec w = Ctrl.inert) ∧
    ((opcodeOf w).toNat ∈ [0x01, 0x06, 0x07, 0x10, 0x11, 0x12, 0x13, 0x22, 0x24, 0x25, 0x26, 0x2A, 0x2E] ∨
        0x30 ≤ (opcodeOf w).toNat → decodeWord w = none) ∧
    (opcodeOf w = 0#6 →
      (functOf w).toNat ∈ [0x0C, 0x0D, 0x10, 0x11, 0x12, 0x13, 0x18, 0x19, 0x1A, 0x1B] ∨
        (functOf w).toNat ∉ [0x00, 0x02, 0x03, 0x04, 0x06, 0x07, 0x08, 0x09, 0x20, 0x21, 0x22, 0x23, 0x24, 0x25, 0x26, 0x27, 0x2A, 0x2B] →
      decodeWord w = none)

/-- R99: the decoder answers with exactly the row whose mask and match the word meets, a word meets one row or none, and
no two rows overlap. -/
def Obligations.EveryWordMeetsOneRowOrNone : Prop :=
  (∀ (w : Word), ∀ r ∈ opcodeRows, r.matches w = true ↔ (decodeWord w).map Instr.mnemonic = some r.mnemonic) ∧
  (∀ (w : Word), (∀ r ∈ opcodeRows, r.matches w = false) ↔ decodeWord w = none) ∧
  opcodeRows.Pairwise (fun r q => ∀ w : Word, ¬(r.matches w = true ∧ q.matches w = true))

/-- Decoding the bytes of an instruction gives it back, with every operand at every value, in either byte order. The ignored
fields are operands of the model's syntax (notes/assumptions 11), big-endian its reading (notes/assumptions 3). -/
def Obligations.DecodeInvertsEncode : Prop :=
  ∀ (e : Endian) (i : Instr) (rest : List Byte), decode e (encodeBytes e i ++ rest) = .decoded i rest

/-- Bytes that decode to an instruction are that instruction's own bytes: no bit of a word is dropped
(notes/assumptions 11). -/
def Obligations.EncodeInvertsDecode : Prop :=
  ∀ (e : Endian) (bs rest : List Byte) (i : Instr), decode e bs = .decoded i rest → bs = encodeBytes e i ++ rest

/-! ### Immediates and targets -/

/-- R90: the extended immediate, as a number; it is latched in EM and is ALU operand 2 when `alu_src` is set. -/
def Obligations.ImmediatesAreExtendedByZext : Prop :=
  ∀ (k : Collaborators) (s : State), s.de.valid = true →
    let imm := s.de.imm16.toNat
    let imm32 := (executeStage k s).em.imm32
    imm32.toNat = (if s.de.ctrl.zext = true ∨ imm < 2 ^ 15 then imm else imm + (2 ^ 32 - 2 ^ 16)) ∧
    ∀ b : Word, opB true imm32 b = imm32

/-- R91: the branch target, modulo 2^32, always sign-extended, and its range. -/
def Obligations.BranchTargetIsRelative : Prop :=
  ∀ (pc : Word) (imm : BitVec 16),
    btarget pc imm = BitVec.ofInt 32 (pc.toNat + 4 + 4 * imm.toInt) ∧
    -131072 ≤ 4 * imm.toInt ∧ 4 * imm.toInt ≤ 131068

/-- R92: the top 4 bits of the jump's own pc, the address field, and two zero bits; it differs from the target taken from
`pc + 4` only for an aligned jump that is the last word of its 256 MB region. -/
def Obligations.JumpTargetIsConcatenated : Prop :=
  ∀ (pc : Word) (addr : BitVec 26),
    (jtarget pc addr).toNat = pc.toNat / 2 ^ 28 * 2 ^ 28 + addr.toNat * 4 ∧
    (pc.toNat % 4 = 0 → (jtarget pc addr ≠ jtarget (pc + 4#32) addr ↔ pc.toNat % 2 ^ 28 = 0xFFFFFFC))

/-! ### Execute -/

/-- R190: the reference Functional Unit, as arithmetic on numbers. -/
def Obligations.ReferenceUnitComputes : Prop :=
  ∀ (a b : Word) (funct opcode : BitVec 6),
    let res (op : BitVec 2) : Word := (referenceFu op funct opcode a b).1
    let sum := (a.toNat + b.toNat) % 2 ^ 32
    let diff := (a.toNat + (2 ^ 32 - b.toNat)) % 2 ^ 32
    let sh := a.toNat % 32
    let less := if a.toInt < b.toInt then 1 else 0
    let below := if a.toNat < b.toNat then 1 else 0
    (∀ op, (referenceFu op funct opcode a b).2 = decide (res op = 0#32)) ∧
    (res 0#2).toNat = sum ∧
    (res 1#2).toNat = diff ∧
    (funct ∈ [0x20#6, 0x21#6] → (res 2#2).toNat = sum) ∧
    (funct ∈ [0x22#6, 0x23#6] → (res 2#2).toNat = diff) ∧
    (funct = 0x24#6 → res 2#2 = a &&& b) ∧
    (funct = 0x25#6 → res 2#2 = a ||| b) ∧
    (funct = 0x26#6 → res 2#2 = a ^^^ b) ∧
    (funct = 0x27#6 → res 2#2 = ~~~(a ||| b)) ∧
    (funct = 0x2A#6 → (res 2#2).toNat = less) ∧
    (funct = 0x2B#6 → (res 2#2).toNat = below) ∧
    (funct ∈ [0x00#6, 0x04#6] → (res 2#2).toNat = b.toNat * 2 ^ sh % 2 ^ 32) ∧
    (funct ∈ [0x02#6, 0x06#6] → (res 2#2).toNat = b.toNat / 2 ^ sh) ∧
    (funct ∈ [0x03#6, 0x07#6] → (res 2#2).toInt = b.toInt / 2 ^ sh) ∧
    (funct.toNat ∉ [0x00, 0x02, 0x03, 0x04, 0x06, 0x07, 0x20, 0x21, 0x22, 0x23, 0x24, 0x25, 0x26, 0x27, 0x2A, 0x2B] →
      res 2#2 = 0#32) ∧
    (opcode = 0x0A#6 → (res 3#2).toNat = less) ∧
    (opcode = 0x0B#6 → (res 3#2).toNat = below) ∧
    (opcode = 0x0C#6 → res 3#2 = a &&& b) ∧
    (opcode = 0x0D#6 → res 3#2 = a ||| b) ∧
    (opcode = 0x0E#6 → res 3#2 = a ^^^ b) ∧
    (opcode = 0x0F#6 → (res 3#2).toNat = b.toNat * 65536 % 2 ^ 32) ∧
    (opcode.toNat ∉ [0x0A, 0x0B, 0x0C, 0x0D, 0x0E, 0x0F] → res 3#2 = 0#32)

/-- R178: the forwarding selector and the forwarded value, for every operand index. -/
def Obligations.ForwardingPrefersTheYoungerProducer : Prop :=
  ∀ (s : State) (i : Reg) (v : Word),
    let dM := if s.em.ctrl.regdst then s.em.rd else if s.em.ctrl.link then 31#5 else s.em.rt
    let fromEm := s.em.valid = true ∧ s.em.ctrl.regWrite = true ∧ dM = i
    let fromMw := s.mw.valid = true ∧ s.mw.ctrl.regWrite = true ∧ s.mw.dest = i
    (i = 0#5 → fwdsel s i = .noForward ∧ fwd s i v = v) ∧
    (i ≠ 0#5 → fromEm → fwdsel s i = .forwardFromMemoryStage ∧ fwd s i v = s.em.aluResult) ∧
    (i ≠ 0#5 → ¬fromEm → fromMw → fwdsel s i = .forwardFromWritebackStage ∧ fwd s i v = s.mw.value) ∧
    (i ≠ 0#5 → ¬fromEm → ¬fromMw → fwdsel s i = .noForward ∧ fwd s i v = v) ∧
    operandA s s.de.rs = fwd s s.de.rs s.de.rsVal ∧ operandB s s.de.rt = fwd s s.de.rt s.de.rtVal

/-- R41: register 0 reads 0, a write to it does nothing, and it is never forwarded to decode or to execute (R164, R304
(a)). -/
def Obligations.RegisterZeroIsHardWired : Prop :=
  ∀ (s : State) (rf : RegFile) (v : Word),
    readReg rf 0#5 = 0#32 ∧ writeReg rf 0#5 v = rf ∧ fwdWB s 0#5 v = v ∧ fwdsel s 0#5 = .noForward ∧
    fwd s 0#5 v = v ∧ decodeRead s 0#5 = 0#32

/-- R186, with R181 to R185 for any Functional Unit: what execute latches into EM, in every cycle without a data stall, a
redirect cycle included. A bubble latches a bubble (R176). -/
def Obligations.ExecuteLatchesItsOutput : Prop :=
  ∀ (k : Collaborators) (s t : State), coreCycle k s = .next t → s.stalls = false →
    (s.de.valid = false → t.em = .bubble) ∧
    (s.de.valid = true →
      let c := s.de.ctrl
      let imm32 := extendImm c.zext s.de.imm16
      let op1 := if c.shift then s.de.shamt.setWidth 32 else operandA s s.de.rs
      let op2 := if c.aluSrc then imm32 else operandB s s.de.rt
      let r := k.fu c.aluOp s.de.funct s.de.opcode op1 op2
      t.em =
        { valid := true, imm32 := imm32, storeVal := operandB s s.de.rt, rd := s.de.rd, rt := s.de.rt,
          aluResult := if c.link then s.de.pc + 8#32 else r.1, zero := r.2, ctrl := c, pc := s.de.pc })

/-- R201, R202, R204, R205 for any Functional Unit: classification; a jump always redirects and wins over a branch bit; a
branch redirects, to its actual next address, exactly when the outcome differs from the carried prediction (R207). -/
def Obligations.ControlTransfersResolve : Prop :=
  ∀ (k : Collaborators) (s : State),
    let c := s.de.ctrl
    let x := executeStage k s
    let z := x.em.zero
    let taken := (c.branch && z) || (c.bne && !z)
    (s.de.valid = true → c.jump = true ∨ c.jr = true →
      x.redirect = some (if c.jr then operandA s s.de.rs else jtarget s.de.pc s.de.addr26) ∧ x.ptUpd = none) ∧
    (s.de.valid = true → c.jump = false → c.jr = false → c.branch = true ∨ c.bne = true →
      (taken = s.de.predTaken → x.redirect = none) ∧
      (taken = true → s.de.predTaken = false →
        x.redirect = some (s.de.pc + 4#32 + (s.de.imm16.signExtend 32 <<< 2))) ∧
      (taken = false → s.de.predTaken = true → x.redirect = some (s.de.pc + 4#32))) ∧
    (s.de.valid = false ∨ (c.jump = false ∧ c.jr = false ∧ c.branch = false ∧ c.bne = false) →
      x.redirect = none ∧ x.ptUpd = none)

/-- R210: in a cycle without a data stall a branch trains its counter, saturating, when prediction is enabled; no other
counter changes, and none in any other cycle. -/
def Obligations.BranchesTrainTheirCounter : Prop :=
  ∀ (k : Collaborators) (s t : State), coreCycle k s = .next t →
    let c := s.de.ctrl
    let branch := s.de.valid = true ∧ c.jump = false ∧ c.jr = false ∧ (c.branch = true ∨ c.bne = true)
    let z := (executeStage k s).em.zero
    let taken := (c.branch && z) || (c.bne && !z)
    t.pt.length = s.pt.length ∧
    ∀ j, j < s.pt.length →
      (t.pt.getD j 0).val =
        if s.stalls = false ∧ s.cfg.predEn = true ∧ branch ∧ j = s.de.pc.toNat / 4 % s.pt.length then
          if taken then min 3 ((s.pt.getD j 0).val + 1) else (s.pt.getD j 0).val - 1
        else (s.pt.getD j 0).val

/-! ### The cycle -/

/-- R126: the next value of every pipeline register and of PC, for any decoder, any Functional Unit and any contents. The
cycle goes on because no access is misaligned (notes/assumptions 4). -/
def Obligations.NextStateTable : Prop :=
  ∀ (k : Collaborators) (s : State), s.accessesAligned = true →
    ∃ t, coreCycle k s = .next t ∧
      let x := executeStage k s
      let w := memRead s.cfg.endian s.mem s.pc .word
      let p := s.cfg.predEn && ((k.dec w).branch || (k.dec w).bne) && ptPredicts s.pt s.pc
      (s.stalls = true → t.pc = s.pc ∧ t.fd = s.fd ∧ t.de = s.de ∧ t.em = s.em ∧ t.mw = s.mw) ∧
      (s.stalls = false → t.em = x.em ∧ t.mw = memoryOut s.em (answers s).rData) ∧
      (∀ target, s.stalls = false → x.redirect = some target → t.pc = target ∧ t.fd = .bubble ∧ t.de = .bubble) ∧
      (s.stalls = false → x.redirect = none → loadUse s = true → t.pc = s.pc ∧ t.fd = s.fd ∧ t.de = .bubble) ∧
      (s.stalls = false → x.redirect = none → loadUse s = false → s.ports.now.iReady = true →
        t.pc = (if p then btarget s.pc (imm16Of w) else s.pc + 4#32) ∧
        t.fd = { valid := true, word := w, pc := s.pc, predTaken := p } ∧ t.de = decodeOut k.dec s) ∧
      (s.stalls = false → x.redirect = none → loadUse s = false → s.ports.now.iReady = false →
        t.pc = s.pc ∧ t.fd = .bubble ∧ t.de = decodeOut k.dec s)

/-- R129: the wait counters. -/
def Obligations.WaitCountersCountMisses : Prop :=
  ∀ (k : Collaborators) (s t : State), coreCycle k s = .next t →
    t.memWait = (if s.stalls then s.memWait + 1 else 0) ∧
    t.fetchWait =
      (if s.stalls then s.fetchWait
       else if (executeStage k s).redirect.isSome then 0
       else if loadUse s then s.fetchWait
       else if s.ports.now.iReady then 0
       else s.fetchWait + 1)

/-- R34: no decision reads the wait counters: whatever they hold, a cycle stops or goes on alike, and leaves everything
but them alike. -/
def Obligations.WaitCountersSteerNothing : Prop :=
  ∀ (k : Collaborators) (s : State) (a b : Nat),
    (∀ t, coreCycle k s = .next t →
      ∃ c d, coreCycle k { s with fetchWait := a, memWait := b } = .next { t with fetchWait := c, memWait := d }) ∧
    (∀ f, coreCycle k s = .fault f → coreCycle k { s with fetchWait := a, memWait := b } = .fault f)

/-- R125: a data miss freezes the pipeline, whichever instruction is in execute: only `mem_wait` counts, no fetch is
issued, and the next cycle re-issues the same data access. The schedule of answers moves on (notes/assumptions 7). -/
def Obligations.DataMissFreezesThePipeline : Prop :=
  ∀ (i : Instr) (s : State), s.accessesAligned = true → s.stalls = true →
    ∃ t, exec i s = .next t ∧ step s = .next t ∧
      t = { s with memWait := s.memWait + 1, ports := s.ports.later } ∧
      iportRequest s s.ports.now.dReady = none ∧ dportRequest t = dportRequest s

/-- What stops the model, and nothing else does: an access issued at an address that is no multiple of its width, which
R66 and R303 (1) leave to the memory and ask a model to treat as a fault. That both are issued and the fetch comes first,
and that a data access stops when issued, ready or not, is the model's choice (notes/assumptions 4, 12). -/
def Obligations.OnlyMisalignedAccessesStop : Prop :=
  ∀ (k : Collaborators) (i : Instr) (s : State),
    let badFetch := s.stalls = false ∧ loadUse s = false ∧ s.pc.toNat % 4 ≠ 0
    let badData (r : PortRequest) := dportRequest s = some r ∧ r.addr.toNat % r.width.bytes ≠ 0
    (s.accessesAligned = false ↔ badFetch ∨ ∃ r, badData r) ∧
    (s.accessesAligned = true → (∃ t, coreCycle k s = .next t) ∧ (∃ t, exec i s = .next t) ∧ ∃ t, step s = .next t) ∧
    (badFetch →
      coreCycle k s = .fault (.misalignedFetch s.pc) ∧ exec i s = .fault (.misalignedFetch s.pc) ∧
      step s = .fault (.misalignedFetch s.pc)) ∧
    (¬badFetch → ∀ r, badData r →
      coreCycle k s = .fault (.misalignedData r.addr r.width.bytes) ∧
      exec i s = .fault (.misalignedData r.addr r.width.bytes) ∧
      step s = .fault (.misalignedData r.addr r.width.bytes))

/-- A step is the meaning of the instruction in execute; with none there (a bubble, an inert word, or a DE that no word
decodes to) it is the bundle-driven cycle. An instruction placed with `withFetchWord` is the very next to run
(notes/assumptions 9). -/
def Obligations.StepRunsTheInstructionInExecute : Prop :=
  ∀ s : State,
    (∀ i, inExecute s.de = some i → step s = exec i s) ∧
    (inExecute s.de = none → step s = coreCycle referenceCfg s) ∧
    (∀ nbits w i, decodeTableWord nbits w = some i →
      step (s.withFetchWord nbits w) = exec i (s.withFetchWord nbits w) ∧ (s.withFetchWord nbits w).de.pc = s.pc)

/-- The meanings of the 36 instructions, written one by one, are together the bundle-driven cycle of R130 under the
reference decoder and Functional Unit, from every state. -/
def Obligations.StepIsTheCoreCycle : Prop :=
  ∀ s : State, step s = coreCycle referenceCfg s

/-- Bytes at PC that decode to an instruction reach execute two flowing cycles later, with their own pc, and the third
step is that instruction's meaning (R339). -/
def Obligations.FetchedBytesReachExecute : Prop :=
  ∀ (s t u : State) (i : Instr) (rest : List Byte),
    decode s.cfg.endian (readBytes s.mem s.pc 4) = .decoded i rest →
    s.straight = true → step s = .next t →
    t.flows = true → loadUse t = false → t.redirects = none → step t = .next u →
      t.fd.valid = true ∧ t.fd.pc = s.pc ∧ inExecute u.de = some i ∧ u.de.pc = s.pc ∧ step u = exec i u

/-- A run's options and the size of its predictor never change (R8, R44). -/
def Obligations.OptionsNeverChange : Prop :=
  ∀ (n : Nat) (s t : State), core.run n s = .next t → t.cfg = s.cfg ∧ t.pt.length = s.pt.length

/-! ### Fetch and decode -/

/-- R143, R145: a fetch hit. The word is read from memory as it stands before this cycle's store (R75), and the table as
it stands before this cycle's update. -/
def Obligations.FetchHitAdvances : Prop :=
  ∀ (k : Collaborators) (s t : State), coreCycle k s = .next t →
    s.stalls = false → loadUse s = false → (executeStage k s).redirect = none → s.ports.now.iReady = true →
      let w := memRead s.cfg.endian s.mem s.pc .word
      let counter := (s.pt.getD (s.pc.toNat / 4 % s.pt.length) 0).val
      let predicted := s.cfg.predEn = true ∧ ((k.dec w).branch = true ∨ (k.dec w).bne = true) ∧ 2 ≤ counter
      iportRequest s s.ports.now.dReady = some ⟨s.pc, .word, true, false, 0#32⟩ ∧
      t.fd.valid = true ∧ t.fd.word = w ∧ t.fd.pc = s.pc ∧ (t.fd.predTaken = true ↔ predicted) ∧
      (predicted → t.pc = s.pc + 4#32 + ((imm16Of w).signExtend 32 <<< 2)) ∧
      (¬predicted → t.pc = s.pc + 4#32) ∧ t.fetchWait = 0

/-- R147: with prediction disabled nothing is predicted, fetch goes on to the next word, and the table is never read: it
may be replaced by any other. -/
def Obligations.DisabledPredictorIsNeverRead : Prop :=
  ∀ (k : Collaborators) (s : State), s.cfg.predEn = false →
    (∀ a w, fetchPredict k.dec s a w = false) ∧
    (∀ w, (fetchOut k.dec s w).predTaken = false ∧ pcSeq k.dec s w = s.pc + 4#32) ∧
    (∀ (t : State) (pt : List Counter), coreCycle k s = .next t → coreCycle k { s with pt := pt } = .next { t with pt := pt }) ∧
    (∀ (f : Fault) (pt : List Counter), coreCycle k s = .fault f → coreCycle k { s with pt := pt } = .fault f)

/-- R157, R165: the load-use stall. It compares both index fields of the raw word, destination 0 not excluded; it holds FD
and PC, empties DE and issues no fetch; the next cycle has none (R166). -/
def Obligations.LoadUseStallsOneCycle : Prop :=
  ∀ (k : Collaborators) (s : State),
    let d := if s.de.ctrl.regdst then s.de.rd else if s.de.ctrl.link then 31#5 else s.de.rt
    (loadUse s = true ↔
      s.fd.valid = true ∧ s.de.valid = true ∧ s.de.ctrl.memRead = true ∧ s.de.ctrl.regWrite = true ∧
        (s.fd.word.extractLsb' 21 5 = d ∨ s.fd.word.extractLsb' 16 5 = d)) ∧
    ∀ t, coreCycle k s = .next t → s.stalls = false → (executeStage k s).redirect = none → loadUse s = true →
      t.de = .bubble ∧ t.fd = s.fd ∧ t.pc = s.pc ∧ iportRequest s s.ports.now.dReady = none ∧ loadUse t = false

/-- R166: after the one stall cycle the held word decodes, and it executes with the load in MW, reading the loaded
value. -/
def Obligations.LoadedValueReachesItsConsumer : Prop :=
  ∀ s t u : State, s.Inv → s.flows = true → loadUse s = true → s.de.ctrl.memToReg = true → step s = .next t →
    t.flows = true → step t = .next u →
      let d := dest s.de.ctrl s.de.rt s.de.rd
      let loaded := loadedValue s.de.ctrl (memRead t.cfg.endian t.mem t.em.aluResult (widthOf s.de.ctrl))
      u.de.valid = true ∧ u.de.word = s.fd.word ∧ u.de.pc = s.fd.pc ∧ u.mw.valid = true ∧ u.mw.pc = s.de.pc ∧
      u.mw.value = loaded ∧
      (d ≠ 0#5 → rsOf s.fd.word = d → operandA u (rsOf s.fd.word) = loaded) ∧
      (d ≠ 0#5 → rtOf s.fd.word = d → operandB u (rtOf s.fd.word) = loaded)

/-! ### Memory, writeback, retirement -/

/-- R223: the data request, and R63's width. -/
def Obligations.DataPortRequest : Prop :=
  ∀ s : State,
    let c := s.em.ctrl
    let width := if c.byte then Width.byte else if c.half then .half else .word
    (s.em.valid = true → c.memRead = true ∨ c.memWrite = true →
      dportRequest s = some ⟨s.em.aluResult, width, c.memRead, c.memWrite, s.em.storeVal⟩) ∧
    (s.em.valid = false ∨ (c.memRead = false ∧ c.memWrite = false) →
      dportRequest s = none ∧ ∀ ready, memStall s ready = false)

/-- R227: loaded bytes and halfwords are sign-extended, whatever `zext` says. -/
def Obligations.LoadedDataIsSignExtended : Prop :=
  ∀ (c : Ctrl) (rData : Word),
    (c.memRead = false → loadedValue c rData = 0#32) ∧
    (c.memRead = true → c.byte = true → (loadedValue c rData).toInt = Int.bmod rData.toNat 256) ∧
    (c.memRead = true → c.byte = false → c.half = true → (loadedValue c rData).toInt = Int.bmod rData.toNat 65536) ∧
    (c.memRead = true → c.byte = false → c.half = false → loadedValue c rData = rData)

/-- R222, R227, R228: what the memory stage passes to MW. With both enables set, which no reference bundle has, the value
loaded is what memory held before the access's own write: the spec leaves it to the memory (R225, 93 I11), and the model
takes the reference memory's answer (notes/assumptions 16). -/
def Obligations.MemoryStageOutput : Prop :=
  ∀ (k : Collaborators) (s t : State), coreCycle k s = .next t → s.stalls = false →
    let c := s.em.ctrl
    (s.em.valid = false → t.mw = .bubble) ∧
    (s.em.valid = true →
      t.mw.valid = true ∧
      t.mw.dest = (if c.regdst then s.em.rd else if c.link then 31#5 else s.em.rt) ∧
      t.mw.value =
        (if c.memToReg then
          (if c.memRead then loadedValue c (memRead s.cfg.endian s.mem s.em.aluResult (widthOf c)) else 0#32)
         else s.em.aluResult) ∧
      t.mw.ctrl = c ∧ t.mw.pc = s.em.pc)

/-- R62, R225: a store is performed in the cycle its access answers ready and in no other, and EM then moves on, so it is
performed once; a not-ready access changes nothing and is issued again unchanged. -/
def Obligations.StoresHappenWhenReady : Prop :=
  ∀ (k : Collaborators) (s t : State), coreCycle k s = .next t →
    (dportRequest s = none → t.mem = s.mem) ∧
    (∀ r, dportRequest s = some r → s.ports.now.dReady = false → t.mem = s.mem ∧ dportRequest t = some r) ∧
    (∀ r, dportRequest s = some r → s.ports.now.dReady = true →
      t.em = (executeStage k s).em ∧
      (r.writeEnable = false → t.mem = s.mem) ∧
      (r.writeEnable = true → t.mem = memWrite s.cfg.endian s.mem r.addr r.width r.writeValue))

/-- R62, R65: an aligned write reads back, its low bytes only; every other byte is as before, and memory stays canonical. -/
def Obligations.MemoryReadsBackWhatWasWritten : Prop :=
  ∀ (e : Endian) (m : Memory) (a : Word) (w : Width) (v : Word), m.wf = true → a.toNat % w.bytes = 0 →
    (memRead e (memWrite e m a w v) a w).toNat = v.toNat % 256 ^ w.bytes ∧
    (∀ b, (∀ j, j < w.bytes → b ≠ a.toNat + j) → readByte (memWrite e m a w v) b = readByte m b) ∧
    Memory.wf (memWrite e m a w v) = true

/-- R65: the two byte orders of an aligned read, as sums over the bytes at rising addresses. The big-endian sum is the
model's reading of the OPEN parameter's other value (notes/assumptions 3). -/
def Obligations.ReadsAssembleBytes : Prop :=
  ∀ (m : Memory) (a : Word) (w : Width), a.toNat % w.bytes = 0 →
    let at_ (j : Nat) : Nat := (readByte m (a.toNat + j)).toNat
    (memRead .little m a w).toNat = ((List.range w.bytes).map (fun j => at_ j * 256 ^ j)).sum ∧
    (memRead .big m a w).toNat = ((List.range w.bytes).map (fun j => at_ j * 256 ^ (w.bytes - 1 - j))).sum

/-- R233, R127: the one register write of a cycle, and every other register kept. -/
def Obligations.WritebackWritesOneRegister : Prop :=
  ∀ (k : Collaborators) (s t : State), coreCycle k s = .next t → ∀ r : Reg,
    readReg t.rf r =
      if s.stalls = false ∧ s.mw.valid = true ∧ s.mw.ctrl.regWrite = true ∧ r = s.mw.dest ∧ r ≠ 0#5 then s.mw.value
      else readReg s.rf r

/-- R339, R235: a word fetched with no stall and no redirect around it is in FD, DE, EM and MW after its first, second,
third and fourth cycle, and retires in the fifth, in which its register is written. -/
def Obligations.EveryWordRetiresInItsFifthCycle : Prop :=
  ∀ s0 s1 s2 s3 s4 s5 : State,
    s0.straight = true → s1.flows = true → loadUse s1 = false → s1.redirects = none →
    s2.flows = true → s3.flows = true → s4.flows = true →
    step s0 = .next s1 → step s1 = .next s2 → step s2 = .next s3 → step s3 = .next s4 → step s4 = .next s5 →
      let w := memRead s0.cfg.endian s0.mem s0.pc .word
      (s1.fd.valid = true ∧ s1.fd.pc = s0.pc ∧ s1.fd.word = w) ∧
      (s2.de.valid = true ∧ s2.de.pc = s0.pc ∧ s2.de.word = w) ∧
      (s3.em.valid = true ∧ s3.em.pc = s0.pc ∧ s3.em.ctrl = referenceDec w) ∧
      (s4.mw.valid = true ∧ s4.mw.pc = s0.pc ∧ s4.mw.ctrl = referenceDec w) ∧
      retires s4 s4.ports.now.dReady = some s0.pc ∧ s5.rf = writeBack s4.mw s4.rf

/-- R322, R338: from a launch with prediction off, as long as every cycle is straight, nothing retires in the first four
cycles and then one word a cycle, in address order. -/
def Obligations.StraightLineCodeRetiresInOrder : Prop :=
  ∀ (e : Endian) (size n : Nat) (rf0 : RegFile) (mem0 : Memory) (ports : Readiness),
    let s := State.launch ⟨false, e⟩ size rf0 mem0 ports
    runsStraight (n + 4) s = true →
      retirements (n + 4) s = (List.range n).map (fun j => BitVec.ofNat 32 (4 * j))

/-- R237: a data access that answers not-ready for `k` cycles changes only `mem_wait`, and shifts the remaining run by `k`
cycles: the same outcome but for the wait counters, and the same retirements. -/
def Obligations.DataMissShiftsTheRun : Prop :=
  ∀ (s : State) (l later : List PortReady),
    s.accessesAligned = true → (dportRequest s).isSome = true →
    (∀ a ∈ l, a.dReady = false) → s.ports.sched = l ++ later →
      let ready := { s with ports := { s.ports with sched := later } }
      core.run l.length s = .next { ready with memWait := s.memWait + l.length } ∧
      ∀ n,
        retirements (l.length + n) s = retirements n ready ∧
        ∀ t, core.run n ready = .next t → ∃ c d, core.run (l.length + n) s = .next { t with fetchWait := c, memWait := d }

/-! ### The settled view, the invariant, sequential execution -/

/-- R163, R187, R188, R189: under the invariant, the operands of the word in execute are the registers with the writes of
both older instructions done, and a load in EM is never forwarded to it. The settled view is the model's device
(notes/assumptions 15). -/
def Obligations.OperandsAreTheSettledRegisters : Prop :=
  ∀ s : State, s.Inv → s.de.valid = true →
    operandA s s.de.rs = readReg s.settledRf s.de.rs ∧ operandB s s.de.rt = readReg s.settledRf s.de.rt ∧
    (s.em.valid = true → s.em.ctrl.memRead = true →
      fwdsel s s.de.rs ≠ .forwardFromMemoryStage ∧ fwdsel s s.de.rt ≠ .forwardFromMemoryStage)

/-- The settled view becomes the committed state: memory after one flowing cycle, the registers after two; and it is the
committed state when EM and MW are bubbles (notes/assumptions 15). -/
def Obligations.SettledValuesAreCommitted : Prop :=
  (∀ s t u : State, s.flows = true → step s = .next t →
    t.mem = s.settledMem ∧ (t.flows = true → step t = .next u → u.rf = s.settledRf)) ∧
  (∀ s : State, s.em = .bubble → s.mw = .bubble → s.settledRf = s.rf ∧ s.settledMem = s.mem)

/-- R304: every step keeps the invariant. -/
def Obligations.StepKeepsTheInvariant : Prop :=
  ∀ s t : State, s.Inv → step s = .next t → t.Inv

/-- R284, one step: a stall, and a cycle with a bubble in execute, leave the settled state; an inert word only moves on to
the next word; an instruction does to it exactly what its operation line says, and where that line has a misaligned access
the next step stops (notes/assumptions 4, 15). -/
def Obligations.StepRefinesSequentialExecution : Prop :=
  ∀ s t : State, s.Inv → step s = .next t →
    (s.stalls = true ∨ s.de.valid = false → t.settled = s.settled) ∧
    (s.stalls = false → s.de.valid = true → decodeWord s.de.word = none →
      t.settled = { s.settled with pc := s.settled.pc + 4#32 }) ∧
    (∀ i, s.stalls = false → inExecute s.de = some i →
      (∀ a, seqExec s.cfg.endian i s.settled = some a → t.settled = a) ∧
      (seqExec s.cfg.endian i s.settled = none → ∃ f, step t = .fault f))

/-- R284, whole runs: a run of the pipeline reaches exactly the state that executing as many words one at a time reaches,
if no word observes a modification of instruction memory after its fetch and the state reached issues no misaligned
access (notes/assumptions 4, 15). -/
def Obligations.PipelineRunsAreSequentialRuns : Prop :=
  ∀ (k : Nat) (s t : State), s.Inv → core.run k s = .next t → runsCurrentCode k s = true → t.accessesAligned = true →
    seqRun s.cfg.endian (executed k s) s.settled = some t.settled

/-- R94, R283: an inert word takes its slot and does nothing: no register write, no memory access, no control transfer, no
predictor update; it retires. -/
def Obligations.InertWordsHaveNoEffect : Prop :=
  ∀ s : State, s.Inv → s.flows = true → s.de.valid = true → decodeWord s.de.word = none →
    ∃ t, step s = .next t ∧ s.Advances t ∧ sameRegs s.settledRf t.settledRf ∧ sameBytes s.settledMem t.settledMem ∧
      t.pt = s.pt ∧ t.nextPc = s.de.pc + 4#32 ∧ s.redirects = none ∧ dportRequest t = none ∧
      ∀ u, step t = .next u → u.mw.valid = true ∧ u.mw.pc = s.de.pc ∧ u.mw.ctrl.regWrite = false ∧
        (u.stalls = false → retires u u.ports.now.dReady = some s.de.pc)

/-! ### The instructions

In each, `x` gives the registers the instruction observes (46_instructions.md R245), with both older writes done. With a
data miss every instruction waits (`DataMissFreezesThePipeline`), and a misaligned access stops the model
(`OnlyMisalignedAccessesStop`). -/

/-- R247, R248, R249: the shifts by an amount. The `rs` field is ignored. -/
def Obligations.ShiftsByAmount : Prop :=
  ∀ (s : State) (rsX rt rd : Reg) (sa : BitVec 5), s.Inv → s.flows = true →
    let x := readReg s.settledRf
    let gives (i : Instr) (v : Word) : Prop :=
      inExecute s.de = some i → ∃ t, exec i s = .next t ∧ s.Writes t rd v ∧ t.em.zero = decide (v = 0#32)
    gives (.sll rsX rt rd sa) (x rt <<< sa.toNat) ∧
    gives (.srl rsX rt rd sa) (x rt >>> sa.toNat) ∧
    gives (.sra rsX rt rd sa) ((x rt).sshiftRight sa.toNat)

/-- R250, R251, R252: the variable shifts. Only the low 5 bits of `x[rs]` count. -/
def Obligations.VariableShifts : Prop :=
  ∀ (s : State) (rs rt rd : Reg) (saX : BitVec 5), s.Inv → s.flows = true →
    let x := readReg s.settledRf
    let amount := (x rs).toNat % 32
    let gives (i : Instr) (v : Word) : Prop :=
      inExecute s.de = some i → ∃ t, exec i s = .next t ∧ s.Writes t rd v ∧ t.em.zero = decide (v = 0#32)
    gives (.sllv rs rt rd saX) (x rt <<< amount) ∧
    gives (.srlv rs rt rd saX) (x rt >>> amount) ∧
    gives (.srav rs rt rd saX) ((x rt).sshiftRight amount)

/-- R255 to R258: `add`, `addu`, `sub`, `subu`. All wrap; none traps. -/
def Obligations.RegisterArithmetic : Prop :=
  ∀ (s : State) (rs rt rd : Reg) (saX : BitVec 5), s.Inv → s.flows = true →
    let x := readReg s.settledRf
    let gives (i : Instr) (v : Word) : Prop :=
      inExecute s.de = some i → ∃ t, exec i s = .next t ∧ s.Writes t rd v ∧ t.em.zero = decide (v = 0#32)
    gives (.add rs rt rd saX) (x rs + x rt) ∧
    gives (.addu rs rt rd saX) (x rs + x rt) ∧
    gives (.sub rs rt rd saX) (x rs - x rt) ∧
    gives (.subu rs rt rd saX) (x rs - x rt)

/-- R259 to R264: `and`, `or`, `xor`, `nor`, `slt` (signed), `sltu` (unsigned). -/
def Obligations.RegisterLogicAndCompare : Prop :=
  ∀ (s : State) (rs rt rd : Reg) (saX : BitVec 5), s.Inv → s.flows = true →
    let x := readReg s.settledRf
    let gives (i : Instr) (v : Word) : Prop :=
      inExecute s.de = some i → ∃ t, exec i s = .next t ∧ s.Writes t rd v ∧ t.em.zero = decide (v = 0#32)
    gives (.and rs rt rd saX) (x rs &&& x rt) ∧
    gives (.or rs rt rd saX) (x rs ||| x rt) ∧
    gives (.xor rs rt rd saX) (x rs ^^^ x rt) ∧
    gives (.nor rs rt rd saX) (~~~(x rs ||| x rt)) ∧
    gives (.slt rs rt rd saX) (if (x rs).toInt < (x rt).toInt then 1#32 else 0#32) ∧
    gives (.sltu rs rt rd saX) (if (x rs).toNat < (x rt).toNat then 1#32 else 0#32)

/-- R269 to R272: `addi`, `addiu`, `slti`, `sltiu`: the immediate is sign-extended, for the unsigned compare too. -/
def Obligations.ImmediateArithmeticAndCompare : Prop :=
  ∀ (s : State) (rs rt : Reg) (imm : BitVec 16), s.Inv → s.flows = true →
    let x := readReg s.settledRf
    let simm := imm.signExtend 32
    let gives (i : Instr) (v : Word) : Prop :=
      inExecute s.de = some i → ∃ t, exec i s = .next t ∧ s.Writes t rt v ∧ t.em.zero = decide (v = 0#32)
    gives (.addi rs rt imm) (x rs + simm) ∧
    gives (.addiu rs rt imm) (x rs + simm) ∧
    gives (.slti rs rt imm) (if (x rs).toInt < simm.toInt then 1#32 else 0#32) ∧
    gives (.sltiu rs rt imm) (if (x rs).toNat < simm.toNat then 1#32 else 0#32)

/-- R273 to R276: `andi`, `ori`, `xori`, `lui`: the immediate is zero-extended; `lui` ignores its `rs` field. -/
def Obligations.ImmediateLogic : Prop :=
  ∀ (s : State) (rs rt : Reg) (imm : BitVec 16), s.Inv → s.flows = true →
    let x := readReg s.settledRf
    let zimm := imm.setWidth 32
    let gives (i : Instr) (v : Word) : Prop :=
      inExecute s.de = some i → ∃ t, exec i s = .next t ∧ s.Writes t rt v ∧ t.em.zero = decide (v = 0#32)
    gives (.andi rs rt imm) (x rs &&& zimm) ∧
    gives (.ori rs rt imm) (x rs ||| zimm) ∧
    gives (.xori rs rt imm) (x rs ^^^ zimm) ∧
    gives (.lui rs rt imm) (zimm <<< 16)

/-- R277, R278, R279: the loads. The load moves to the memory stage with its request; at an aligned address it writes the
loaded value, sign-extended, to `rt`; at a misaligned one the next step stops (notes/assumptions 4). -/
def Obligations.Loads : Prop :=
  ∀ (s : State) (rs rt : Reg) (imm : BitVec 16), s.Inv → s.flows = true →
    let ea := readReg s.settledRf rs + imm.signExtend 32
    let gives (i : Instr) (w : Width) (v : Word) : Prop :=
      inExecute s.de = some i →
        ∃ t, exec i s = .next t ∧ s.Advances t ∧ t.em.zero = decide (ea = 0#32) ∧
          (∃ b, dportRequest t = some ⟨ea, w, true, false, b⟩) ∧
          (ea.toNat % w.bytes = 0 → s.Writes t rt v) ∧
          (ea.toNat % w.bytes ≠ 0 → ∃ f, step t = .fault f)
    let byte := memRead s.cfg.endian s.settledMem ea .byte
    let half := memRead s.cfg.endian s.settledMem ea .half
    gives (.lb rs rt imm) .byte ((byte.setWidth 8).signExtend 32) ∧
    gives (.lh rs rt imm) .half ((half.setWidth 16).signExtend 32) ∧
    gives (.lw rs rt imm) .word (memRead s.cfg.endian s.settledMem ea .word)

/-- R280, R281, R282: the stores. The store moves to the memory stage with its request; at an aligned address the bytes
of the low part of `x[rt]` stand at the effective address, in the memory's order, every other byte and every register is
as before; at a misaligned one the next step stops (notes/assumptions 4; big-endian: 3). -/
def Obligations.Stores : Prop :=
  ∀ (s : State) (rs rt : Reg) (imm : BitVec 16), s.Inv → s.flows = true →
    let x := readReg s.settledRf
    let ea := effectiveAddress s rs imm
    let gives (i : Instr) (w : Width) : Prop :=
      inExecute s.de = some i →
        ea = x rs + imm.signExtend 32 ∧
        ∃ t, exec i s = .next t ∧ s.Advances t ∧ t.em.zero = decide (ea = 0#32) ∧
          dportRequest t = some ⟨ea, w, false, true, x rt⟩ ∧
          sameRegs s.settledRf t.settledRf ∧ t.pt = s.pt ∧ t.nextPc = s.de.pc + 4#32 ∧
          (ea.toNat % w.bytes = 0 →
            (∀ a, (∀ j, j < w.bytes → a ≠ ea.toNat + j) → readByte t.settledMem a = readByte s.settledMem a) ∧
            (∀ j, j < w.bytes → s.cfg.endian = .little →
              readByte t.settledMem (ea.toNat + j) = (x rt >>> (8 * j)).setWidth 8) ∧
            (∀ j, j < w.bytes → s.cfg.endian = .big →
              readByte t.settledMem (ea.toNat + j) = (x rt >>> (8 * (w.bytes - 1 - j))).setWidth 8)) ∧
          (ea.toNat % w.bytes ≠ 0 → ∃ f, step t = .fault f)
    gives (.sb rs rt imm) .byte ∧ gives (.sh rs rt imm) .half ∧ gives (.sw rs rt imm) .word

/-- R265, R266: `j` and `jal`. `jal` links `pc + 8` in register 31. -/
def Obligations.Jumps : Prop :=
  ∀ (s : State) (addr : BitVec 26), s.Inv → s.flows = true →
    let target := jtarget s.de.pc addr
    (inExecute s.de = some (.j addr) →
      ∃ t, exec (.j addr) s = .next t ∧ s.Advances t ∧ s.Transfers t target ∧ t.pt = s.pt ∧
        sameRegs s.settledRf t.settledRf ∧ sameBytes s.settledMem t.settledMem) ∧
    (inExecute s.de = some (.jal addr) →
      ∃ t, exec (.jal addr) s = .next t ∧ s.Advances t ∧ s.Transfers t target ∧ t.pt = s.pt ∧
        writesOnly s.settledRf t.settledRf 31#5 (s.de.pc + 8#32) ∧ sameBytes s.settledMem t.settledMem)

/-- R253, R254: `jr` and `jalr`. The target is `x[rs]` from before the link is written. -/
def Obligations.RegisterJumps : Prop :=
  ∀ (s : State) (rs rtX rd : Reg) (saX : BitVec 5), s.Inv → s.flows = true →
    let target := readReg s.settledRf rs
    (inExecute s.de = some (.jr rs rtX rd saX) →
      ∃ t, exec (.jr rs rtX rd saX) s = .next t ∧ s.Advances t ∧ s.Transfers t target ∧ t.pt = s.pt ∧
        sameRegs s.settledRf t.settledRf ∧ sameBytes s.settledMem t.settledMem) ∧
    (inExecute s.de = some (.jalr rs rtX rd saX) →
      ∃ t, exec (.jalr rs rtX rd saX) s = .next t ∧ s.Advances t ∧ s.Transfers t target ∧ t.pt = s.pt ∧
        writesOnly s.settledRf t.settledRf rd (s.de.pc + 8#32) ∧ sameBytes s.settledMem t.settledMem)

/-- R267, R268: `beq` and `bne`. The branch goes to its target or to the next word; the two younger slots are discarded
exactly when the outcome is not the predicted one; it writes no register and no byte, and trains its counter when
prediction is enabled. -/
def Obligations.Branches : Prop :=
  ∀ (s : State) (rs rt : Reg) (imm : BitVec 16), s.Inv → s.flows = true →
    let x := readReg s.settledRf
    let j := s.de.pc.toNat / 4 % s.pt.length
    let gives (i : Instr) (taken : Bool) : Prop :=
      inExecute s.de = some i →
        let actual := if taken then s.de.pc + 4#32 + (imm.signExtend 32 <<< 2) else s.de.pc + 4#32
        ∃ t, exec i s = .next t ∧ s.Advances t ∧ t.em.zero = decide (x rs = x rt) ∧
          sameRegs s.settledRf t.settledRf ∧ sameBytes s.settledMem t.settledMem ∧ t.nextPc = actual ∧
          (taken ≠ s.de.predTaken → s.Transfers t actual) ∧
          (taken = s.de.predTaken → t.de = decodeOut referenceDec s) ∧
          t.pt = (if s.cfg.predEn then s.pt.set j (bump (s.pt.getD j 0) taken) else s.pt)
    gives (.beq rs rt imm) (decide (x rs = x rt)) ∧ gives (.bne rs rt imm) (decide (x rs ≠ x rt))
end

