-- ==== Sys2Proof/Laws/Registers.lean ====
section
/-! SUPPORT. What register, predictor-table and readiness operations do. -/

namespace Sys2Proof.Machine

/-- Register 0 reads 0 (10_state.md R41). -/
@[simp] theorem readReg_zero (rf : RegFile) : readReg rf 0#5 = 0#32 := rfl

/-- A write to register 0 has no effect (R41). -/
@[simp] theorem writeReg_zero (rf : RegFile) (v : Word) : writeReg rf 0#5 v = rf := rfl

/-- A register reads back as written, register 0 as 0; every other register is left alone. -/
theorem readReg_writeReg (rf : RegFile) (r r' : Reg) (v : Word) :
    readReg (writeReg rf r v) r' = if r' = r ∧ r ≠ 0#5 then v else readReg rf r' := by
  unfold readReg writeReg
  by_cases h0 : r = 0#5
  · simp [h0]
  · by_cases h : r' = r
    · subst h
      simp [h0, Vector.get_eq_getElem]
    · by_cases h0' : r' = 0#5
      · subst h0'
        simp [h0, Ne.symm h0]
      · have hne : r.toNat ≠ r'.toNat := fun e => h (BitVec.eq_of_toNat_eq e.symm)
        simp [h0, h, h0', Vector.get_eq_getElem, hne]

/-- A writeback writes its destination, unless it is register 0, and nothing else (45_memory_writeback.md R233). -/
theorem readReg_writeBack (mw : MemoryWriteback) (rf : RegFile) (r : Reg) :
    readReg (writeBack mw rf) r =
      if mw.valid = true ∧ mw.ctrl.regWrite = true ∧ r = mw.dest ∧ r ≠ 0#5 then mw.value else readReg rf r := by
  unfold writeBack
  by_cases hv : mw.valid = true <;> by_cases hw : mw.ctrl.regWrite = true <;> simp [hv, hw, readReg_writeReg]
  by_cases h : r = mw.dest <;> simp [h]

@[simp] theorem writeBack_bubble (rf : RegFile) : writeBack .bubble rf = rf := rfl

@[simp] theorem memoryOut_bubble (v : Word) : memoryOut .bubble v = .bubble := rfl

/-- An update never changes the table's size (00_scope.md R8). -/
@[simp] theorem applyUpd_length (u : Option (Nat × Bool)) (pt : List Counter) : (applyUpd u pt).length = pt.length := by
  unfold applyUpd
  split <;> simp

/-- A counter saturates at 3 and at 0 (44_control_transfer.md R210). -/
theorem bump_val (c : Counter) (taken : Bool) :
    (bump c taken).val = if taken then min 3 (c.val + 1) else c.val - 1 := by
  revert c taken
  decide

end Sys2Proof.Machine
end

