-- ==== Sys2Proof/Laws/State.lean ====
section
/-! SUPPORT. One lemma per field of State for each way a step makes a state: the frozen and the advanced state of a cycle
(40_cycle.md R126), the state after a cycle, the launched state and the state with a word placed. -/

namespace Sys2Proof.Machine

@[simp] theorem frozen_cfg (s : State) : (frozen s).cfg = s.cfg := rfl
@[simp] theorem frozen_pc (s : State) : (frozen s).pc = s.pc := rfl
@[simp] theorem frozen_fd (s : State) : (frozen s).fd = s.fd := rfl
@[simp] theorem frozen_de (s : State) : (frozen s).de = s.de := rfl
@[simp] theorem frozen_em (s : State) : (frozen s).em = s.em := rfl
@[simp] theorem frozen_mw (s : State) : (frozen s).mw = s.mw := rfl
@[simp] theorem frozen_pt (s : State) : (frozen s).pt = s.pt := rfl
@[simp] theorem frozen_fetchWait (s : State) : (frozen s).fetchWait = s.fetchWait := rfl
@[simp] theorem frozen_memWait (s : State) : (frozen s).memWait = s.memWait + 1 := rfl
@[simp] theorem frozen_rf (s : State) : (frozen s).rf = s.rf := rfl
@[simp] theorem frozen_mem (s : State) : (frozen s).mem = s.mem := rfl
@[simp] theorem frozen_ports (s : State) : (frozen s).ports = s.ports := rfl

section
variable (dec : Word → Ctrl) (x : ExecuteOut) (ans : PortAnswers) (s : State)

@[simp] theorem advanced_cfg : (advanced dec x ans s).cfg = s.cfg := rfl
@[simp] theorem advanced_pc : (advanced dec x ans s).pc = (frontEnd dec x.redirect ans s).pc := rfl
@[simp] theorem advanced_fd : (advanced dec x ans s).fd = (frontEnd dec x.redirect ans s).fd := rfl
@[simp] theorem advanced_de : (advanced dec x ans s).de = (frontEnd dec x.redirect ans s).de := rfl
@[simp] theorem advanced_em : (advanced dec x ans s).em = x.em := rfl
@[simp] theorem advanced_mw : (advanced dec x ans s).mw = memoryOut s.em ans.rData := rfl
@[simp] theorem advanced_pt : (advanced dec x ans s).pt = applyUpd x.ptUpd s.pt := rfl
@[simp] theorem advanced_fetchWait : (advanced dec x ans s).fetchWait = (frontEnd dec x.redirect ans s).fetchWait := rfl
@[simp] theorem advanced_memWait : (advanced dec x ans s).memWait = 0 := rfl
@[simp] theorem advanced_rf : (advanced dec x ans s).rf = writeBack s.mw s.rf := rfl
@[simp] theorem advanced_mem : (advanced dec x ans s).mem = s.mem := rfl
@[simp] theorem advanced_ports : (advanced dec x ans s).ports = s.ports := rfl

end

section
variable (dec : Word → Ctrl) (s : State) (x : ExecuteOut)

theorem cycleNext_cfg : (cycleNext dec s x).cfg = (coreNext dec x (answers s) s).cfg := rfl
theorem cycleNext_pc : (cycleNext dec s x).pc = (coreNext dec x (answers s) s).pc := rfl
theorem cycleNext_fd : (cycleNext dec s x).fd = (coreNext dec x (answers s) s).fd := rfl
theorem cycleNext_de : (cycleNext dec s x).de = (coreNext dec x (answers s) s).de := rfl
theorem cycleNext_em : (cycleNext dec s x).em = (coreNext dec x (answers s) s).em := rfl
theorem cycleNext_mw : (cycleNext dec s x).mw = (coreNext dec x (answers s) s).mw := rfl
theorem cycleNext_pt : (cycleNext dec s x).pt = (coreNext dec x (answers s) s).pt := rfl
theorem cycleNext_fetchWait : (cycleNext dec s x).fetchWait = (coreNext dec x (answers s) s).fetchWait := rfl
theorem cycleNext_memWait : (cycleNext dec s x).memWait = (coreNext dec x (answers s) s).memWait := rfl
theorem cycleNext_rf : (cycleNext dec s x).rf = (coreNext dec x (answers s) s).rf := rfl
@[simp] theorem cycleNext_mem : (cycleNext dec s x).mem = memNext s := rfl
@[simp] theorem cycleNext_ports : (cycleNext dec s x).ports = s.ports.later := rfl

/-- A cycle never changes the run's options (10_state.md R44). -/
@[simp] theorem cycleNext_cfg_same : (cycleNext dec s x).cfg = s.cfg := by
  rw [cycleNext_cfg, coreNext]
  split <;> rfl

/-- With a data-memory stall a cycle changes `memWait`, and the schedule moves on (R125). -/
theorem cycleNext_of_stall (h : memStall s s.ports.now.dReady = true) :
    cycleNext dec s x = { frozen s with mem := memNext s, ports := s.ports.later } := by
  have h' : memStall s (answers s).dReady = true := h
  simp only [cycleNext, coreNext, h', if_true]

/-- Without one it is the advanced state (R126, rows 2 to 5). -/
theorem cycleNext_of_flow (h : memStall s s.ports.now.dReady = false) :
    cycleNext dec s x = { advanced dec x (answers s) s with mem := memNext s, ports := s.ports.later } := by
  have h' : memStall s (answers s).dReady = false := h
  simp [cycleNext, coreNext, h']

end

section
variable (cfg : Cfg) (n : Nat) (rf0 : RegFile) (mem0 : Memory) (ports : Readiness)

@[simp] theorem launch_cfg : (State.launch cfg n rf0 mem0 ports).cfg = cfg := rfl
@[simp] theorem launch_pc : (State.launch cfg n rf0 mem0 ports).pc = 0#32 := rfl
@[simp] theorem launch_fd : (State.launch cfg n rf0 mem0 ports).fd = .bubble := rfl
@[simp] theorem launch_de : (State.launch cfg n rf0 mem0 ports).de = .bubble := rfl
@[simp] theorem launch_em : (State.launch cfg n rf0 mem0 ports).em = .bubble := rfl
@[simp] theorem launch_mw : (State.launch cfg n rf0 mem0 ports).mw = .bubble := rfl
@[simp] theorem launch_pt : (State.launch cfg n rf0 mem0 ports).pt = List.replicate n 0 := rfl
@[simp] theorem launch_fetchWait : (State.launch cfg n rf0 mem0 ports).fetchWait = 0 := rfl
@[simp] theorem launch_memWait : (State.launch cfg n rf0 mem0 ports).memWait = 0 := rfl
@[simp] theorem launch_rf : (State.launch cfg n rf0 mem0 ports).rf = rf0 := rfl
@[simp] theorem launch_mem : (State.launch cfg n rf0 mem0 ports).mem = mem0 := rfl
@[simp] theorem launch_ports : (State.launch cfg n rf0 mem0 ports).ports = ports := rfl

end

section
variable (dec : Word → Ctrl) (s : State) (w : Word)

@[simp] theorem placeWord_cfg : (placeWord dec s w).cfg = s.cfg := rfl
@[simp] theorem placeWord_pc : (placeWord dec s w).pc = s.pc + 4#32 := rfl
@[simp] theorem placeWord_fd : (placeWord dec s w).fd = .bubble := rfl
@[simp] theorem placeWord_de : (placeWord dec s w).de = .ofWord w (readReg s.rf (rsOf w)) (readReg s.rf (rtOf w)) (dec w) s.pc false := rfl
@[simp] theorem placeWord_em : (placeWord dec s w).em = s.em := rfl
@[simp] theorem placeWord_mw : (placeWord dec s w).mw = s.mw := rfl
@[simp] theorem placeWord_pt : (placeWord dec s w).pt = s.pt := rfl
@[simp] theorem placeWord_fetchWait : (placeWord dec s w).fetchWait = s.fetchWait := rfl
@[simp] theorem placeWord_memWait : (placeWord dec s w).memWait = s.memWait := rfl
@[simp] theorem placeWord_rf : (placeWord dec s w).rf = s.rf := rfl
@[simp] theorem placeWord_mem : (placeWord dec s w).mem = memWrite s.cfg.endian s.mem s.pc .word w := rfl
@[simp] theorem placeWord_ports : (placeWord dec s w).ports = s.ports := rfl

end

/-! ### Bubbles and decoded registers -/

@[simp] theorem fd_bubble_valid : FetchDecode.bubble.valid = false := rfl
@[simp] theorem fd_bubble_predTaken : FetchDecode.bubble.predTaken = false := rfl
@[simp] theorem de_bubble_valid : DecodeExecute.bubble.valid = false := rfl
@[simp] theorem de_bubble_predTaken : DecodeExecute.bubble.predTaken = false := rfl
@[simp] theorem de_bubble_ctrl : DecodeExecute.bubble.ctrl = Ctrl.inert := rfl
@[simp] theorem em_bubble_valid : ExecuteMemory.bubble.valid = false := rfl
@[simp] theorem em_bubble_ctrl : ExecuteMemory.bubble.ctrl = Ctrl.inert := rfl
@[simp] theorem mw_bubble_valid : MemoryWriteback.bubble.valid = false := rfl
@[simp] theorem mw_bubble_ctrl : MemoryWriteback.bubble.ctrl = Ctrl.inert := rfl

section
variable (w a b : Word) (c : Ctrl) (pc : Word) (p : Bool)

@[simp] theorem ofWord_valid : (DecodeExecute.ofWord w a b c pc p).valid = true := rfl
@[simp] theorem ofWord_opcode : (DecodeExecute.ofWord w a b c pc p).opcode = opcodeOf w := rfl
@[simp] theorem ofWord_rs : (DecodeExecute.ofWord w a b c pc p).rs = rsOf w := rfl
@[simp] theorem ofWord_rt : (DecodeExecute.ofWord w a b c pc p).rt = rtOf w := rfl
@[simp] theorem ofWord_rd : (DecodeExecute.ofWord w a b c pc p).rd = rdOf w := rfl
@[simp] theorem ofWord_shamt : (DecodeExecute.ofWord w a b c pc p).shamt = shamtOf w := rfl
@[simp] theorem ofWord_funct : (DecodeExecute.ofWord w a b c pc p).funct = functOf w := rfl
@[simp] theorem ofWord_imm16 : (DecodeExecute.ofWord w a b c pc p).imm16 = imm16Of w := rfl
@[simp] theorem ofWord_addr26 : (DecodeExecute.ofWord w a b c pc p).addr26 = addr26Of w := rfl
@[simp] theorem ofWord_rsVal : (DecodeExecute.ofWord w a b c pc p).rsVal = a := rfl
@[simp] theorem ofWord_rtVal : (DecodeExecute.ofWord w a b c pc p).rtVal = b := rfl
@[simp] theorem ofWord_ctrl : (DecodeExecute.ofWord w a b c pc p).ctrl = c := rfl
@[simp] theorem ofWord_pc : (DecodeExecute.ofWord w a b c pc p).pc = pc := rfl
@[simp] theorem ofWord_predTaken : (DecodeExecute.ofWord w a b c pc p).predTaken = p := rfl

end

end Sys2Proof.Machine
end

