-- ==== Sys2Proof/Laws/Cycle.lean ====
section
/-! SUPPORT. What one cycle can do, said once: it stops exactly on a misaligned access, never refuses, and otherwise gives
`cycleNext`; every meaning, and the step, is a cycle with some answer of the execute stage. -/

namespace Sys2Proof.Machine

theorem accessesAligned_iff {s : State} :
    s.accessesAligned = true ↔ fetchMisaligned s = false ∧ dataMisaligned s = none := by
  simp [State.accessesAligned]

theorem flows_iff {s : State} :
    s.flows = true ↔ s.accessesAligned = true ∧ memStall s s.ports.now.dReady = false := by
  simp [State.flows, State.stalls]

/-- A cycle answers a next state exactly when no access is misaligned, and then this one. -/
theorem cycle_eq_next {dec : Word → Ctrl} {s t : State} {x : ExecuteOut} :
    cycle dec s x = .next t ↔ s.accessesAligned = true ∧ t = cycleNext dec s x := by
  rw [accessesAligned_iff, cycle]
  cases hf : fetchMisaligned s <;> cases hd : dataMisaligned s <;> simp [eq_comm]

theorem cycle_of_aligned {dec : Word → Ctrl} {s : State} (x : ExecuteOut) (h : s.accessesAligned = true) :
    cycle dec s x = .next (cycleNext dec s x) :=
  cycle_eq_next.2 ⟨h, rfl⟩

/-- A cycle stops exactly when an access is misaligned. -/
theorem cycle_faults_iff {dec : Word → Ctrl} {s : State} {x : ExecuteOut} :
    (∃ f, cycle dec s x = .fault f) ↔ s.accessesAligned = false := by
  rw [State.accessesAligned, cycle]
  cases hf : fetchMisaligned s <;> cases hd : dataMisaligned s <;> simp

/-- A cycle never refuses (60_exceptions.md R301). -/
theorem cycle_not_refused (dec : Word → Ctrl) (s : State) (x : ExecuteOut) (r : Refusal) : cycle dec s x ≠ .refused r := by
  rw [cycle]
  cases hf : fetchMisaligned s <;> cases hd : dataMisaligned s <;> simp

/-- The meaning of every instruction is a cycle. -/
theorem exec_eq_cycle (i : Instr) (s : State) : ∃ x, exec i s = cycle referenceDec s x := by
  cases i <;> exact ⟨_, rfl⟩

/-- Every step is a cycle. -/
theorem step_eq_cycle (s : State) : ∃ x, step s = cycle referenceDec s x := by
  rw [step]
  split
  · exact exec_eq_cycle _ s
  · exact ⟨_, rfl⟩

/-- What a step that goes on has done. -/
theorem step_eq_next {s t : State} (h : step s = .next t) :
    s.accessesAligned = true ∧ ∃ x, t = cycleNext referenceDec s x := by
  obtain ⟨x, hx⟩ := step_eq_cycle s
  obtain ⟨ha, ht⟩ := cycle_eq_next.1 (hx ▸ h)
  exact ⟨ha, x, ht⟩

/-- With a data miss the execute stage's answer does not matter (40_cycle.md R125): every meaning waits alike. -/
theorem exec_of_stall (i : Instr) {s : State} (ha : s.accessesAligned = true) (hs : memStall s s.ports.now.dReady = true) :
    exec i s = .next { frozen s with mem := memNext s, ports := s.ports.later } := by
  obtain ⟨x, hx⟩ := exec_eq_cycle i s
  rw [hx, cycle_of_aligned x ha, cycleNext_of_stall _ _ _ hs]

/-- Not ready: memory is left alone (20_memory.md R62). -/
theorem memNext_of_stall {s : State} (hs : memStall s s.ports.now.dReady = true) : memNext s = s.mem := by
  simp only [memStall, Bool.and_eq_true, Bool.not_eq_true'] at hs
  unfold memNext
  split <;> simp [hs.2]

/-- Without a data stall a data access answers ready, so the store in EM is done (20_memory.md R62). -/
theorem memNext_of_flow {s : State} (hs : s.stalls = false) : memNext s = s.settledMem := by
  have ready : (dportRequest s).isSome = true → s.ports.now.dReady = true := by
    intro h
    simpa [State.stalls, memStall, h] using hs
  unfold memNext State.settledMem
  cases h : dportRequest s with
  | none => rfl
  | some r => simp [ready (by simp [h])]

/-- A cycle that goes on without a data stall, for any decoder and Functional Unit. -/
theorem coreCycle_of_flow {k : Collaborators} {s t : State} (h : coreCycle k s = .next t) (hs : s.stalls = false) :
    t = { advanced k.dec (executeStage k s) (answers s) s with mem := s.settledMem, ports := s.ports.later } := by
  obtain ⟨-, rfl⟩ := cycle_eq_next.1 h
  rw [cycleNext_of_flow _ _ _ hs, memNext_of_flow hs]

/-- A cycle with a data stall: only `memWait` and the schedule change (40_cycle.md R125). -/
theorem coreCycle_of_stall {k : Collaborators} {s t : State} (h : coreCycle k s = .next t) (hs : s.stalls = true) :
    t = { s with memWait := s.memWait + 1, ports := s.ports.later } := by
  obtain ⟨-, rfl⟩ := cycle_eq_next.1 h
  rw [cycleNext_of_stall _ _ _ hs, memNext_of_stall hs]
  rfl

/-- A step goes on exactly when no access is misaligned. -/
theorem step_goes_on {s : State} (h : s.accessesAligned = true) : ∃ t, step s = .next t := by
  obtain ⟨x, hx⟩ := step_eq_cycle s
  exact ⟨_, hx.trans (cycle_of_aligned x h)⟩

end Sys2Proof.Machine
end

