-- ==== Sys2Proof/Laws/Decode.lean ====
section
/-! SUPPORT. Words as numbers: what each format's word is, what each field of a word is, and the fields of an encoded
word; what the reference decoder can answer with. -/

namespace Sys2Proof

theorem toNat_append_mul {n m : Nat} (x : BitVec n) (y : BitVec m) : (x ++ y).toNat = x.toNat * 2 ^ m + y.toNat := by
  rw [BitVec.toNat_append, ← Nat.shiftLeft_add_eq_or_of_lt y.isLt, Nat.shiftLeft_eq]

theorem field_toNat (w : Word) (lo len : Nat) : (w.extractLsb' lo len).toNat = w.toNat / 2 ^ lo % 2 ^ len := by
  simp [BitVec.extractLsb'_toNat, Nat.shiftRight_eq_div_pow]

theorem opcodeOf_toNat (w : Word) : (opcodeOf w).toNat = w.toNat / 67108864 % 64 := field_toNat w 26 6
theorem rsOf_toNat (w : Word) : (rsOf w).toNat = w.toNat / 2097152 % 32 := field_toNat w 21 5
theorem rtOf_toNat (w : Word) : (rtOf w).toNat = w.toNat / 65536 % 32 := field_toNat w 16 5
theorem rdOf_toNat (w : Word) : (rdOf w).toNat = w.toNat / 2048 % 32 := field_toNat w 11 5
theorem shamtOf_toNat (w : Word) : (shamtOf w).toNat = w.toNat / 64 % 32 := field_toNat w 6 5
theorem functOf_toNat (w : Word) : (functOf w).toNat = w.toNat % 64 := by
  simp [functOf]
theorem imm16Of_toNat (w : Word) : (imm16Of w).toNat = w.toNat % 65536 := by
  simp [imm16Of]
theorem addr26Of_toNat (w : Word) : (addr26Of w).toNat = w.toNat % 67108864 := by
  simp [addr26Of]

section
variable (rs rt rd : Reg) (sa : BitVec 5) (f : BitVec 6)

theorem wordR_toNat : (wordR rs rt rd sa f).toNat =
    (((rs.toNat * 32 + rt.toNat) * 32 + rd.toNat) * 32 + sa.toNat) * 64 + f.toNat := by
  have h : (0#6 ++ rs ++ rt ++ rd ++ sa ++ f).toNat =
      (((rs.toNat * 32 + rt.toNat) * 32 + rd.toNat) * 32 + sa.toNat) * 64 + f.toNat := by
    simp only [toNat_append_mul]
    simp
  exact h

@[simp] theorem opcodeOf_wordR : opcodeOf (wordR rs rt rd sa f) = 0#6 := by
  apply BitVec.eq_of_toNat_eq
  have := rs.isLt
  have := rt.isLt
  have := rd.isLt
  have := sa.isLt
  have := f.isLt
  simp only [opcodeOf_toNat, wordR_toNat, BitVec.toNat_ofNat]
  omega

@[simp] theorem rsOf_wordR : rsOf (wordR rs rt rd sa f) = rs := by
  apply BitVec.eq_of_toNat_eq
  have := rs.isLt
  have := rt.isLt
  have := rd.isLt
  have := sa.isLt
  have := f.isLt
  simp only [rsOf_toNat, wordR_toNat]
  omega

@[simp] theorem rtOf_wordR : rtOf (wordR rs rt rd sa f) = rt := by
  apply BitVec.eq_of_toNat_eq
  have := rs.isLt
  have := rt.isLt
  have := rd.isLt
  have := sa.isLt
  have := f.isLt
  simp only [rtOf_toNat, wordR_toNat]
  omega

@[simp] theorem rdOf_wordR : rdOf (wordR rs rt rd sa f) = rd := by
  apply BitVec.eq_of_toNat_eq
  have := rs.isLt
  have := rt.isLt
  have := rd.isLt
  have := sa.isLt
  have := f.isLt
  simp only [rdOf_toNat, wordR_toNat]
  omega

@[simp] theorem shamtOf_wordR : shamtOf (wordR rs rt rd sa f) = sa := by
  apply BitVec.eq_of_toNat_eq
  have := rs.isLt
  have := rt.isLt
  have := rd.isLt
  have := sa.isLt
  have := f.isLt
  simp only [shamtOf_toNat, wordR_toNat]
  omega

@[simp] theorem functOf_wordR : functOf (wordR rs rt rd sa f) = f := by
  apply BitVec.eq_of_toNat_eq
  have := rs.isLt
  have := rt.isLt
  have := rd.isLt
  have := sa.isLt
  have := f.isLt
  simp only [functOf_toNat, wordR_toNat]
  omega

@[simp] theorem imm16Of_wordR : imm16Of (wordR rs rt rd sa f) = rd ++ sa ++ f := by
  apply BitVec.eq_of_toNat_eq
  have := rs.isLt
  have := rt.isLt
  have := rd.isLt
  have := sa.isLt
  have := f.isLt
  simp only [imm16Of_toNat, wordR_toNat, toNat_append_mul]
  omega

end

section
variable (op : BitVec 6) (rs rt : Reg) (imm : BitVec 16)

theorem wordI_toNat : (wordI op rs rt imm).toNat =
    ((op.toNat * 32 + rs.toNat) * 32 + rt.toNat) * 65536 + imm.toNat := by
  have h : (op ++ rs ++ rt ++ imm).toNat = ((op.toNat * 32 + rs.toNat) * 32 + rt.toNat) * 65536 + imm.toNat := by
    simp only [toNat_append_mul]
    simp
  exact h

@[simp] theorem opcodeOf_wordI : opcodeOf (wordI op rs rt imm) = op := by
  apply BitVec.eq_of_toNat_eq
  have := op.isLt
  have := rs.isLt
  have := rt.isLt
  have := imm.isLt
  simp only [opcodeOf_toNat, wordI_toNat]
  omega

@[simp] theorem rsOf_wordI : rsOf (wordI op rs rt imm) = rs := by
  apply BitVec.eq_of_toNat_eq
  have := op.isLt
  have := rs.isLt
  have := rt.isLt
  have := imm.isLt
  simp only [rsOf_toNat, wordI_toNat]
  omega

@[simp] theorem rtOf_wordI : rtOf (wordI op rs rt imm) = rt := by
  apply BitVec.eq_of_toNat_eq
  have := op.isLt
  have := rs.isLt
  have := rt.isLt
  have := imm.isLt
  simp only [rtOf_toNat, wordI_toNat]
  omega

@[simp] theorem imm16Of_wordI : imm16Of (wordI op rs rt imm) = imm := by
  apply BitVec.eq_of_toNat_eq
  have := op.isLt
  have := rs.isLt
  have := rt.isLt
  have := imm.isLt
  simp only [imm16Of_toNat, wordI_toNat]
  omega

end

section
variable (op : BitVec 6) (addr : BitVec 26)

theorem wordJ_toNat : (wordJ op addr).toNat = op.toNat * 67108864 + addr.toNat := by
  have h : (op ++ addr).toNat = op.toNat * 67108864 + addr.toNat := by
    simp only [toNat_append_mul]
    simp
  exact h

@[simp] theorem opcodeOf_wordJ : opcodeOf (wordJ op addr) = op := by
  apply BitVec.eq_of_toNat_eq
  have := op.isLt
  have := addr.isLt
  simp only [opcodeOf_toNat, wordJ_toNat]
  omega

@[simp] theorem addr26Of_wordJ : addr26Of (wordJ op addr) = addr := by
  apply BitVec.eq_of_toNat_eq
  have := op.isLt
  have := addr.isLt
  simp only [addr26Of_toNat, wordJ_toNat]
  omega

end

/-- The opcode and the address field are the whole word. -/
theorem opcode_append_addr26 (w : Word) : (opcodeOf w ++ addr26Of w : Word) = w := by
  apply BitVec.eq_of_toNat_eq
  have h : (opcodeOf w ++ addr26Of w).toNat = (opcodeOf w).toNat * 67108864 + (addr26Of w).toNat := by
    rw [toNat_append_mul]
    rfl
  refine Eq.trans h ?_
  rw [opcodeOf_toNat, addr26Of_toNat]
  have := w.isLt
  omega

/-- Every bundle of the table is one of the reference bundles. -/
theorem controlOf_mem (i : Instr) : controlOf i ∈ referenceBundles := by
  cases i <;> simp [controlOf, referenceBundles]

/-- The reference decoder answers with a reference bundle for every word. -/
theorem referenceDec_mem (w : Word) : referenceDec w ∈ referenceBundles := by
  unfold referenceDec
  split
  · exact controlOf_mem _
  · simp [referenceBundles]

end Sys2Proof
end

