-- ==== Sys2Proof/Laws/Fields.lean ====
section
/-! SUPPORT. The fields the pipeline latches of every word, whatever its format (30_encoding.md R86), in the terms the
meanings use; and DE's own word. -/

namespace Sys2Proof.Machine

@[simp] theorem rdOf_wordI (op : BitVec 6) (rs rt : Reg) (imm : BitVec 16) :
    rdOf (wordI op rs rt imm) = rdOfImm imm := by
  apply BitVec.eq_of_toNat_eq
  have := imm.isLt
  simp only [rdOf_toNat, wordI_toNat, rdOfImm, BitVec.extractLsb'_toNat, Nat.shiftRight_eq_div_pow]
  omega

section
variable (op : BitVec 6) (addr : BitVec 26)

@[simp] theorem rsOf_wordJ : rsOf (wordJ op addr) = rsOfAddr addr := by
  apply BitVec.eq_of_toNat_eq
  have := addr.isLt
  simp only [rsOf_toNat, wordJ_toNat, rsOfAddr, BitVec.extractLsb'_toNat, Nat.shiftRight_eq_div_pow]
  omega

@[simp] theorem rtOf_wordJ : rtOf (wordJ op addr) = rtOfAddr addr := by
  apply BitVec.eq_of_toNat_eq
  have := addr.isLt
  simp only [rtOf_toNat, wordJ_toNat, rtOfAddr, BitVec.extractLsb'_toNat, Nat.shiftRight_eq_div_pow]
  omega

@[simp] theorem rdOf_wordJ : rdOf (wordJ op addr) = rdOfAddr addr := by
  apply BitVec.eq_of_toNat_eq
  have := addr.isLt
  simp only [rdOf_toNat, wordJ_toNat, rdOfAddr, BitVec.extractLsb'_toNat, Nat.shiftRight_eq_div_pow]
  omega

@[simp] theorem imm16Of_wordJ : imm16Of (wordJ op addr) = immOfAddr addr := by
  apply BitVec.eq_of_toNat_eq
  have := addr.isLt
  simp only [imm16Of_toNat, wordJ_toNat, immOfAddr, BitVec.extractLsb'_toNat, Nat.shiftRight_eq_div_pow]
  omega

end

/-- A decoded DE still holds its whole word. -/
@[simp] theorem ofWord_word (w a b : Word) (c : Ctrl) (pc : Word) (p : Bool) :
    (DecodeExecute.ofWord w a b c pc p).word = w :=
  opcode_append_addr26 w

/-- What the decode stage makes of a word agrees with it. -/
@[simp] theorem ofWord_coherent (w a b pc : Word) (p : Bool) :
    (DecodeExecute.ofWord w a b (referenceDec w) pc p).coherent = true := by
  rw [DecodeExecute.coherent, ofWord_word]
  exact beq_self_eq_true _

/-- A bubble agrees with no word: no instruction is in execute. -/
@[simp] theorem inExecute_bubble : inExecute .bubble = none := by decide

/-- The instruction in execute, when there is one: DE is valid, agrees with its word, and the word is the
instruction's. -/
theorem inExecute_eq_some {d : DecodeExecute} {i : Instr} :
    inExecute d = some i ↔ d = .ofWord d.word d.rsVal d.rtVal (controlOf i) d.pc d.predTaken ∧ decodeWord d.word = some i := by
  unfold inExecute DecodeExecute.coherent
  constructor
  · intro h
    split at h
    · rename_i hc
      have hd : referenceDec d.word = controlOf i := by rw [referenceDec, h]
      rw [hd] at hc
      exact ⟨by simpa using hc, h⟩
    · cases h
  · rintro ⟨hd, hi⟩
    have hr : referenceDec d.word = controlOf i := by rw [referenceDec, hi]
    rw [hr, if_pos (by simpa using hd), hi]

end Sys2Proof.Machine
end

