-- ==== Sys2Proof/Laws/Invariant.lean ====
section
/-! SUPPORT. States with one word in execute and nothing else in the pipeline meet the invariant: the states that
`withFetchWord` makes, and the tests' starting points. -/

namespace Sys2Proof.Machine

/-- One decoded word, alone in the pipeline, with the operands the registers hold, PC on its predicted path. -/
theorem inv_of_alone {s : State} (w pc : Word) (p : Bool) (hm : s.mem.wf = true) (hp : s.pt ≠ []) (hf : s.fd = .bubble)
    (he : s.em = .bubble) (hw : s.mw = .bubble) (hz : s.memWait = 0)
    (hd : s.de = .ofWord w (readReg s.rf (rsOf w)) (readReg s.rf (rtOf w)) (referenceDec w) pc p)
    (hn : s.pc = if p then btarget pc (imm16Of w) else pc + 4#32)
    (hb : p = true → s.cfg.predEn = true ∧ ((referenceDec w).branch = true ∨ (referenceDec w).bne = true)) : s.Inv := by
  refine ⟨hm, hp, fun _ => hf, fun h => ?_, fun _ => he, fun _ => hw, fun _ => ?_, ?_, ?_, fun h => ?_, fun h => ?_, fun h => ?_,
    fun h => ?_, fun _ => ?_, fun _ h => ?_, fun h => ?_, fun _ => ?_, fun h => ?_, fun h => ?_⟩
  · simp [hd] at h
  · simp [hd]
  · simp [he, referenceBundles]
  · simp [hw, referenceBundles]
  · omega
  · refine ⟨by simp [hf], ?_⟩
    rw [hd, ofWord_predTaken, Bool.eq_false_iff]
    intro h'
    simp [(hb h').1] at h
  · simp [hf] at h
  · rw [hd] at h ⊢
    exact (hb h).2
  · simp [hd]
  · simp [he] at h
  · simp [hf] at h
  · simp [State.fromFetch, hf, hd, DecodeExecute.successor, hn]
  · simp [he] at h
  · simp [hw] at h

/-- The machine launched with a word placed meets the invariant, whatever the word (notes/assumptions 9). -/
theorem placed_inv (cfg : Cfg) {n : Nat} (rf0 : RegFile) {mem0 : Memory} (ports : Readiness) (w : Word) (hn : 0 < n)
    (hm : Memory.wf (memWrite cfg.endian mem0 0#32 .word w) = true) :
    (placeWord referenceDec (State.launch cfg n rf0 mem0 ports) w).Inv :=
  inv_of_alone w 0#32 false hm (by simp; omega) rfl rfl rfl rfl rfl rfl (by simp)

end Sys2Proof.Machine
end

