-- ==== Sys2Proof/Laws/Memory.lean ====
section
/-! SUPPORT. What the memory operations do: each keeps the canonical form, a write leaves every other byte alone, a byte
reads back as written. -/

namespace Sys2Proof.Machine

theorem wfFrom_nil (lo : Nat) : Memory.wfFrom lo [] = true := rfl

theorem wfFrom_cons {lo a : Nat} {b : Byte} {m : Memory} :
    Memory.wfFrom lo ((a, b) :: m) = true ↔
      lo ≤ a ∧ a < 4294967296 ∧ b ≠ unlistedByte ∧ Memory.wfFrom (a + 1) m = true := by
  simp [Memory.wfFrom, and_assoc]

/-- A lower bound on the addresses may be lowered. -/
theorem wfFrom_mono {lo lo' : Nat} {m : Memory} (h : lo' ≤ lo) (hm : Memory.wfFrom lo m = true) :
    Memory.wfFrom lo' m = true := by
  cases m with
  | nil => rfl
  | cons c m =>
    obtain ⟨h1, h2⟩ := wfFrom_cons.1 hm
    exact wfFrom_cons.2 ⟨by omega, h2⟩

/-- An address below every listed one reads as unlisted. -/
theorem readByte_of_lt {lo a : Nat} {m : Memory} (hm : Memory.wfFrom lo m = true) (h : a < lo) :
    readByte m a = unlistedByte := by
  induction m generalizing lo with
  | nil => rfl
  | cons c m ih =>
    obtain ⟨h1, -, -, h4⟩ := wfFrom_cons.1 hm
    have : c.1 ≠ a := by omega
    simp only [readByte, this, if_false]
    exact ih h4 (by omega)

theorem writeByte_wfFrom {lo a : Nat} {m : Memory} (v : Byte) (hm : Memory.wfFrom lo m = true) (hlo : lo ≤ a)
    (ha : a < 4294967296) : Memory.wfFrom lo (writeByte m a v) = true := by
  induction m generalizing lo with
  | nil =>
    by_cases hv : v = unlistedByte
    · simp [writeByte, hv, wfFrom_nil]
    · simp [writeByte, hv, wfFrom_cons, hlo, ha, wfFrom_nil]
  | cons c m ih =>
    obtain ⟨k, b⟩ := c
    obtain ⟨h1, h2, h3, h4⟩ := wfFrom_cons.1 hm
    simp only [writeByte]
    split
    · split
      · exact hm
      · exact wfFrom_cons.2 ⟨hlo, ha, ‹_›, wfFrom_cons.2 ⟨by omega, h2, h3, h4⟩⟩
    · split
      · split
        · exact wfFrom_mono (by omega) h4
        · exact wfFrom_cons.2 ⟨hlo, ha, ‹_›, by subst_vars; exact h4⟩
      · exact wfFrom_cons.2 ⟨h1, h2, h3, ih h4 (by omega)⟩

/-- Writing a byte keeps the canonical form. -/
theorem writeByte_wf {a : Nat} {m : Memory} (v : Byte) (hm : m.wf = true) (ha : a < 4294967296) :
    Memory.wf (writeByte m a v) = true :=
  writeByte_wfFrom v hm (Nat.zero_le a) ha

theorem readByte_writeByte_self_from {lo a : Nat} {m : Memory} (v : Byte) (hm : Memory.wfFrom lo m = true) :
    readByte (writeByte m a v) a = v := by
  induction m generalizing lo with
  | nil =>
    by_cases hv : v = unlistedByte <;> simp [writeByte, readByte, hv]
  | cons c m ih =>
    obtain ⟨k, b⟩ := c
    obtain ⟨h1, h2, h3, h4⟩ := wfFrom_cons.1 hm
    simp only [writeByte]
    split
    · rename_i hlt
      split
      · rename_i hv
        have : k ≠ a := by omega
        simp only [readByte, this, if_false, hv]
        exact readByte_of_lt h4 (by omega)
      · simp [readByte]
    · split
      · rename_i heq
        split
        · rename_i hv
          rw [hv]
          exact readByte_of_lt h4 (by omega)
        · simp [readByte]
      · rename_i hne
        have : k ≠ a := fun h => hne h.symm
        simp only [readByte, this, if_false]
        exact ih h4

/-- A byte reads back as it was written. -/
theorem readByte_writeByte_self {a : Nat} {m : Memory} (v : Byte) (hm : m.wf = true) :
    readByte (writeByte m a v) a = v :=
  readByte_writeByte_self_from v hm

/-- A byte write leaves every other byte alone. -/
theorem readByte_writeByte_other {a a' : Nat} {m : Memory} (v : Byte) (h : a' ≠ a) :
    readByte (writeByte m a v) a' = readByte m a' := by
  induction m with
  | nil =>
    by_cases hv : v = unlistedByte <;> simp [writeByte, readByte, hv, h.symm]
  | cons c m ih =>
    obtain ⟨k, b⟩ := c
    simp only [writeByte]
    split
    · split
      · rfl
      · simp [readByte, h.symm]
    · split
      · rename_i heq
        subst heq
        split <;> simp [readByte, h.symm]
      · simp only [readByte, ih]

/-- Writing bytes keeps the canonical form. -/
theorem writeBytes_wf {m : Memory} (a : Word) (bs : List Byte) (hm : m.wf = true) : Memory.wf (writeBytes m a bs) = true := by
  induction bs generalizing m a with
  | nil => exact hm
  | cons b bs ih => exact ih _ (writeByte_wf b hm a.isLt)

/-- A store keeps the canonical form. -/
theorem memWrite_wf {m : Memory} (e : Endian) (a : Word) (w : Width) (v : Word) (hm : m.wf = true) :
    Memory.wf (memWrite e m a w v) = true :=
  writeBytes_wf _ _ hm

/-- A request keeps the canonical form. -/
theorem written_wf {m : Memory} (r : PortRequest) (e : Endian) (hm : m.wf = true) : Memory.wf (r.written e m) = true := by
  unfold PortRequest.written
  split
  · exact memWrite_wf _ _ _ _ hm
  · exact hm

/-- Bytes outside the run written to are left alone. -/
theorem readByte_writeBytes_outside {m : Memory} (a : Word) (bs : List Byte) (a' : Nat)
    (h : ∀ j, j < bs.length → a' ≠ (a + BitVec.ofNat 32 j).toNat) : readByte (writeBytes m a bs) a' = readByte m a' := by
  induction bs generalizing m a with
  | nil => rfl
  | cons b bs ih =>
    rw [writeBytes, ih]
    · exact readByte_writeByte_other b (by simpa using h 0 (by simp))
    · intro j hj
      have := h (j + 1) (by simpa using hj)
      rwa [show a + 1#32 + BitVec.ofNat 32 j = a + BitVec.ofNat 32 (j + 1) by
        rw [BitVec.add_assoc]; congr 1; simp [BitVec.ofNat_add, BitVec.add_comm]]

@[simp] theorem bytesOf_length (n : Nat) (v : Word) : (bytesOf n v).length = n := by
  induction n generalizing v with
  | zero => rfl
  | succ n ih => simp [bytesOf, ih]

@[simp] theorem inOrder_length (e : Endian) (bs : List Byte) : (inOrder e bs).length = bs.length := by
  cases e <;> simp [inOrder]

@[simp] theorem inOrder_inOrder (e : Endian) (bs : List Byte) : inOrder e (inOrder e bs) = bs := by
  cases e <;> simp [inOrder]

/-- A store leaves alone every byte outside its own. -/
theorem readByte_memWrite_outside {m : Memory} (e : Endian) (a : Word) (w : Width) (v : Word) (a' : Nat)
    (h : ∀ j, j < w.bytes → a' ≠ (a + BitVec.ofNat 32 j).toNat) : readByte (memWrite e m a w v) a' = readByte m a' :=
  readByte_writeBytes_outside a _ a' (by simpa using h)

/-- The bytes of an aligned access do not wrap: addresses are plain sums (20_memory.md R66). -/
theorem toNat_add_of_aligned {a : Word} {w : Width} (h : a.toNat % w.bytes = 0) {j : Nat} (hj : j < w.bytes) :
    (a + BitVec.ofNat 32 j).toNat = a.toNat + j := by
  have := a.isLt
  rw [BitVec.toNat_add, BitVec.toNat_ofNat]
  cases w <;> simp only [Width.bytes] at * <;> omega

@[simp] theorem readBytes_length (m : Memory) (a : Word) (n : Nat) : (readBytes m a n).length = n := by
  induction n generalizing a with
  | zero => rfl
  | succ n ih => simp [readBytes, ih]

theorem add_one_add (a : Word) (j : Nat) : a + 1#32 + BitVec.ofNat 32 j = a + BitVec.ofNat 32 (j + 1) := by
  rw [BitVec.add_assoc]
  congr 1
  simp [BitVec.ofNat_add, BitVec.add_comm]

theorem readBytes_getElem? (m : Memory) (a : Word) {n j : Nat} (hj : j < n) :
    (readBytes m a n)[j]? = some (readByte m (a + BitVec.ofNat 32 j).toNat) := by
  induction n generalizing a j with
  | zero => omega
  | succ n ih =>
    cases j with
    | zero => simp [readBytes]
    | succ j => rw [readBytes, List.getElem?_cons_succ, ih _ (by omega), add_one_add]

/-- Byte `j` of a value, the least significant first. -/
theorem bytesOf_getElem? (v : Word) {n j : Nat} (hj : j < n) : (bytesOf n v)[j]? = some ((v >>> (8 * j)).setWidth 8) := by
  induction n generalizing v j with
  | zero => omega
  | succ n ih =>
    cases j with
    | zero => simp [bytesOf]
    | succ j =>
      rw [bytesOf, List.getElem?_cons_succ, ih _ (by omega), ← BitVec.shiftRight_add]
      congr 3
      omega

/-- Bytes written at addresses that do not meet read back as written. -/
theorem readByte_writeBytes_inside {m : Memory} (hm : m.wf = true) (a : Word) (bs : List Byte)
    (hn : ∀ i j, i < bs.length → j < bs.length → (a + BitVec.ofNat 32 i).toNat = (a + BitVec.ofNat 32 j).toNat → i = j)
    {j : Nat} (hj : j < bs.length) : readByte (writeBytes m a bs) (a + BitVec.ofNat 32 j).toNat = bs[j] := by
  induction bs generalizing m a j with
  | nil => simp at hj
  | cons b bs ih =>
    rw [writeBytes]
    cases j with
    | zero =>
      rw [readByte_writeBytes_outside]
      · simpa using readByte_writeByte_self b hm
      · intro k hk he
        rw [add_one_add] at he
        have := hn 0 (k + 1) (by simp) (by simpa using hk) he
        omega
    | succ j =>
      rw [← add_one_add a j]
      simp only [List.getElem_cons_succ]
      apply ih (writeByte_wf b hm a.isLt)
      intro i k hi hk he
      rw [add_one_add, add_one_add] at he
      have := hn (i + 1) (k + 1) (by simpa using hi) (by simpa using hk) he
      omega

/-- A store's own bytes: byte `j` of memory is byte `j` of the value in the memory's order (R62, R65). -/
theorem readByte_memWrite_inside {m : Memory} (hm : m.wf = true) (e : Endian) {a : Word} {w : Width} (v : Word)
    (h : a.toNat % w.bytes = 0) {j : Nat} (hj : j < w.bytes) :
    (inOrder e (bytesOf w.bytes v))[j]? = some (readByte (memWrite e m a w v) (a.toNat + j)) := by
  have hl : j < (inOrder e (bytesOf w.bytes v)).length := by simpa using hj
  rw [memWrite, List.getElem?_eq_getElem hl, ← toNat_add_of_aligned h hj, readByte_writeBytes_inside hm]
  intro i k hi hk he
  rw [toNat_add_of_aligned h (by simpa using hi), toNat_add_of_aligned h (by simpa using hk)] at he
  omega

end Sys2Proof.Machine
end

