-- ==== Sys2Proof/Laws/PerInstr.lean ====
section
/-! SUPPORT. Per instruction: its word decodes to it, with every field (30_encoding.md R86, R97, R98). -/

namespace Sys2Proof.Laws.RoundTrip

def Statement (i : Instr) : Prop := decodeWord (encode i) = some i

theorem sll (rs rt rd : Reg) (sa : BitVec 5) : Statement (.sll rs rt rd sa) := by
  simp [Statement, decodeWord, decodeRType, encode]

theorem srl (rs rt rd : Reg) (sa : BitVec 5) : Statement (.srl rs rt rd sa) := by
  simp [Statement, decodeWord, decodeRType, encode]

theorem sra (rs rt rd : Reg) (sa : BitVec 5) : Statement (.sra rs rt rd sa) := by
  simp [Statement, decodeWord, decodeRType, encode]

theorem sllv (rs rt rd : Reg) (sa : BitVec 5) : Statement (.sllv rs rt rd sa) := by
  simp [Statement, decodeWord, decodeRType, encode]

theorem srlv (rs rt rd : Reg) (sa : BitVec 5) : Statement (.srlv rs rt rd sa) := by
  simp [Statement, decodeWord, decodeRType, encode]

theorem srav (rs rt rd : Reg) (sa : BitVec 5) : Statement (.srav rs rt rd sa) := by
  simp [Statement, decodeWord, decodeRType, encode]

theorem jr (rs rt rd : Reg) (sa : BitVec 5) : Statement (.jr rs rt rd sa) := by
  simp [Statement, decodeWord, decodeRType, encode]

theorem jalr (rs rt rd : Reg) (sa : BitVec 5) : Statement (.jalr rs rt rd sa) := by
  simp [Statement, decodeWord, decodeRType, encode]

theorem add (rs rt rd : Reg) (sa : BitVec 5) : Statement (.add rs rt rd sa) := by
  simp [Statement, decodeWord, decodeRType, encode]

theorem addu (rs rt rd : Reg) (sa : BitVec 5) : Statement (.addu rs rt rd sa) := by
  simp [Statement, decodeWord, decodeRType, encode]

theorem sub (rs rt rd : Reg) (sa : BitVec 5) : Statement (.sub rs rt rd sa) := by
  simp [Statement, decodeWord, decodeRType, encode]

theorem subu (rs rt rd : Reg) (sa : BitVec 5) : Statement (.subu rs rt rd sa) := by
  simp [Statement, decodeWord, decodeRType, encode]

theorem and (rs rt rd : Reg) (sa : BitVec 5) : Statement (.and rs rt rd sa) := by
  simp [Statement, decodeWord, decodeRType, encode]

theorem or (rs rt rd : Reg) (sa : BitVec 5) : Statement (.or rs rt rd sa) := by
  simp [Statement, decodeWord, decodeRType, encode]

theorem xor (rs rt rd : Reg) (sa : BitVec 5) : Statement (.xor rs rt rd sa) := by
  simp [Statement, decodeWord, decodeRType, encode]

theorem nor (rs rt rd : Reg) (sa : BitVec 5) : Statement (.nor rs rt rd sa) := by
  simp [Statement, decodeWord, decodeRType, encode]

theorem slt (rs rt rd : Reg) (sa : BitVec 5) : Statement (.slt rs rt rd sa) := by
  simp [Statement, decodeWord, decodeRType, encode]

theorem sltu (rs rt rd : Reg) (sa : BitVec 5) : Statement (.sltu rs rt rd sa) := by
  simp [Statement, decodeWord, decodeRType, encode]

theorem j (addr : BitVec 26) : Statement (.j addr) := by
  simp [Statement, decodeWord, encode]

theorem jal (addr : BitVec 26) : Statement (.jal addr) := by
  simp [Statement, decodeWord, encode]

theorem beq (rs rt : Reg) (imm : BitVec 16) : Statement (.beq rs rt imm) := by
  simp [Statement, decodeWord, encode]

theorem bne (rs rt : Reg) (imm : BitVec 16) : Statement (.bne rs rt imm) := by
  simp [Statement, decodeWord, encode]

theorem addi (rs rt : Reg) (imm : BitVec 16) : Statement (.addi rs rt imm) := by
  simp [Statement, decodeWord, encode]

theorem addiu (rs rt : Reg) (imm : BitVec 16) : Statement (.addiu rs rt imm) := by
  simp [Statement, decodeWord, encode]

theorem slti (rs rt : Reg) (imm : BitVec 16) : Statement (.slti rs rt imm) := by
  simp [Statement, decodeWord, encode]

theorem sltiu (rs rt : Reg) (imm : BitVec 16) : Statement (.sltiu rs rt imm) := by
  simp [Statement, decodeWord, encode]

theorem andi (rs rt : Reg) (imm : BitVec 16) : Statement (.andi rs rt imm) := by
  simp [Statement, decodeWord, encode]

theorem ori (rs rt : Reg) (imm : BitVec 16) : Statement (.ori rs rt imm) := by
  simp [Statement, decodeWord, encode]

theorem xori (rs rt : Reg) (imm : BitVec 16) : Statement (.xori rs rt imm) := by
  simp [Statement, decodeWord, encode]

theorem lui (rs rt : Reg) (imm : BitVec 16) : Statement (.lui rs rt imm) := by
  simp [Statement, decodeWord, encode]

theorem lb (rs rt : Reg) (imm : BitVec 16) : Statement (.lb rs rt imm) := by
  simp [Statement, decodeWord, encode]

theorem lh (rs rt : Reg) (imm : BitVec 16) : Statement (.lh rs rt imm) := by
  simp [Statement, decodeWord, encode]

theorem lw (rs rt : Reg) (imm : BitVec 16) : Statement (.lw rs rt imm) := by
  simp [Statement, decodeWord, encode]

theorem sb (rs rt : Reg) (imm : BitVec 16) : Statement (.sb rs rt imm) := by
  simp [Statement, decodeWord, encode]

theorem sh (rs rt : Reg) (imm : BitVec 16) : Statement (.sh rs rt imm) := by
  simp [Statement, decodeWord, encode]

theorem sw (rs rt : Reg) (imm : BitVec 16) : Statement (.sw rs rt imm) := by
  simp [Statement, decodeWord, encode]

end Sys2Proof.Laws.RoundTrip
end

