-- ==== Sys2Proof/Tests/Slice0.lean ====
section
/-! SUPPORT. Tests: each expected value is from the spec's layouts, examples and vectors. Then a witness for the
hypotheses of each statement. -/

namespace Sys2Proof.Tests

open Sys2Proof.Machine

/-! ### Well-formedness -/

/-- One ill-formed term for each check. -/
def illFormed : List Instr :=
  [.sll 1#5 0#5 0#5 0#5, .srl 1#5 0#5 0#5 0#5, .sra 1#5 0#5 0#5 0#5,
   .sllv 0#5 0#5 0#5 1#5, .srlv 0#5 0#5 0#5 1#5, .srav 0#5 0#5 0#5 1#5,
   .jr 0#5 1#5 0#5 0#5, .jr 0#5 0#5 1#5 0#5, .jr 0#5 0#5 0#5 1#5,
   .jalr 0#5 1#5 0#5 0#5, .jalr 0#5 0#5 0#5 1#5, .add 0#5 0#5 0#5 1#5,
   .addu 0#5 0#5 0#5 1#5, .sub 0#5 0#5 0#5 1#5, .subu 0#5 0#5 0#5 1#5,
   .and 0#5 0#5 0#5 1#5, .or 0#5 0#5 0#5 1#5, .xor 0#5 0#5 0#5 1#5,
   .nor 0#5 0#5 0#5 1#5, .slt 0#5 0#5 0#5 1#5, .sltu 0#5 0#5 0#5 1#5,
   .lui 1#5 0#5 0#16]

theorem test_wellFormed_refuses : illFormed.all (fun i => !i.wellFormed) = true := by decide

theorem test_wellFormed_accepts : (Instr.wellFormed (.sll 0#5 2#5 3#5 4#5) && Instr.wellFormed (.jr 31#5 0#5 0#5 0#5)) = true := by
  decide

/-! ### Decoding: words written out bit by bit from spec/opcode_table.json's layouts -/

theorem test_decode_shifts :
    decodeWord 0b000000_00000_00010_00011_00100_000000#32 = some (.sll 0#5 2#5 3#5 4#5) ∧
    decodeWord 0b000000_00000_00010_00011_00100_000010#32 = some (.srl 0#5 2#5 3#5 4#5) ∧
    decodeWord 0b000000_00000_00010_00011_00100_000011#32 = some (.sra 0#5 2#5 3#5 4#5) ∧
    decodeWord 0b000000_00001_00010_00011_00000_000100#32 = some (.sllv 1#5 2#5 3#5 0#5) ∧
    decodeWord 0b000000_00001_00010_00011_00000_000110#32 = some (.srlv 1#5 2#5 3#5 0#5) ∧
    decodeWord 0b000000_00001_00010_00011_00000_000111#32 = some (.srav 1#5 2#5 3#5 0#5) := by
  decide

theorem test_decode_registerJumps :
    decodeWord 0b000000_00001_00000_00000_00000_001000#32 = some (.jr 1#5 0#5 0#5 0#5) ∧
    decodeWord 0b000000_00001_00000_00011_00000_001001#32 = some (.jalr 1#5 0#5 3#5 0#5) := by
  decide

theorem test_decode_registerAlu :
    decodeWord 0b000000_00001_00010_00011_00000_100000#32 = some (.add 1#5 2#5 3#5 0#5) ∧
    decodeWord 0b000000_00001_00010_00011_00000_100001#32 = some (.addu 1#5 2#5 3#5 0#5) ∧
    decodeWord 0b000000_00001_00010_00011_00000_100010#32 = some (.sub 1#5 2#5 3#5 0#5) ∧
    decodeWord 0b000000_00001_00010_00011_00000_100011#32 = some (.subu 1#5 2#5 3#5 0#5) ∧
    decodeWord 0b000000_00001_00010_00011_00000_100100#32 = some (.and 1#5 2#5 3#5 0#5) ∧
    decodeWord 0b000000_00001_00010_00011_00000_100101#32 = some (.or 1#5 2#5 3#5 0#5) ∧
    decodeWord 0b000000_00001_00010_00011_00000_100110#32 = some (.xor 1#5 2#5 3#5 0#5) ∧
    decodeWord 0b000000_00001_00010_00011_00000_100111#32 = some (.nor 1#5 2#5 3#5 0#5) ∧
    decodeWord 0b000000_00001_00010_00011_00000_101010#32 = some (.slt 1#5 2#5 3#5 0#5) ∧
    decodeWord 0b000000_00001_00010_00011_00000_101011#32 = some (.sltu 1#5 2#5 3#5 0#5) := by
  decide

theorem test_decode_jumps :
    decodeWord 0b000010_10000000000000000000000110#32 = some (.j 0x2000006#26) ∧
    decodeWord 0b000011_10000000000000000000000110#32 = some (.jal 0x2000006#26) := by
  decide

theorem test_decode_branches :
    decodeWord 0b000100_00001_00010_1000000000000101#32 = some (.beq 1#5 2#5 0x8005#16) ∧
    decodeWord 0b000101_00001_00010_1000000000000101#32 = some (.bne 1#5 2#5 0x8005#16) := by
  decide

theorem test_decode_immediates :
    decodeWord 0b001000_00001_00010_1000000000000101#32 = some (.addi 1#5 2#5 0x8005#16) ∧
    decodeWord 0b001001_00001_00010_1000000000000101#32 = some (.addiu 1#5 2#5 0x8005#16) ∧
    decodeWord 0b001010_00001_00010_1000000000000101#32 = some (.slti 1#5 2#5 0x8005#16) ∧
    decodeWord 0b001011_00001_00010_1000000000000101#32 = some (.sltiu 1#5 2#5 0x8005#16) ∧
    decodeWord 0b001100_00001_00010_1000000000000101#32 = some (.andi 1#5 2#5 0x8005#16) ∧
    decodeWord 0b001101_00001_00010_1000000000000101#32 = some (.ori 1#5 2#5 0x8005#16) ∧
    decodeWord 0b001110_00001_00010_1000000000000101#32 = some (.xori 1#5 2#5 0x8005#16) ∧
    decodeWord 0b001111_00001_00010_1000000000000101#32 = some (.lui 1#5 2#5 0x8005#16) := by
  decide

theorem test_decode_loads :
    decodeWord 0b100000_00001_00010_1000000000000101#32 = some (.lb 1#5 2#5 0x8005#16) ∧
    decodeWord 0b100001_00001_00010_1000000000000101#32 = some (.lh 1#5 2#5 0x8005#16) ∧
    decodeWord 0b100011_00001_00010_1000000000000101#32 = some (.lw 1#5 2#5 0x8005#16) := by
  decide

theorem test_decode_stores :
    decodeWord 0b101000_00001_00010_1000000000000101#32 = some (.sb 1#5 2#5 0x8005#16) ∧
    decodeWord 0b101001_00001_00010_1000000000000101#32 = some (.sh 1#5 2#5 0x8005#16) ∧
    decodeWord 0b101011_00001_00010_1000000000000101#32 = some (.sw 1#5 2#5 0x8005#16) := by
  decide

/-- A field the layout ignores does not stop the decoding (R97: field values are not checked). -/
theorem test_decode_ignored_field :
    decodeWord 0b000000_11111_00010_00011_00100_000000#32 = some (.sll 31#5 2#5 3#5 4#5) := by
  decide

/-- `syscall` (opcode 0, funct 0x0C) and `lbu` (opcode 0x24) are inert (R95). -/
theorem test_decode_inert : decodeWord 0x0000000C#32 = none ∧ decodeWord 0x90220000#32 = none := by decide

/-! ### One step of each instruction -/

/-- Registers 0 but for those listed. -/
def regs (l : List (Reg × Word)) : RegFile := l.foldl (fun rf p => writeReg rf p.1 p.2) (Vector.replicate 32 0#32)

/-- A launched machine with PC moved. -/
def start (l : List (Reg × Word)) (m : Memory) (pc : Word) : State :=
  { State.launch ⟨false, .little⟩ 16 (regs l) m ⟨[], ⟨true, true⟩⟩ with pc := pc }

/-- The state after one step; the same state where the machine stops. -/
def after (s : State) : State :=
  match step s with
  | .next t => t
  | _ => s

/-- The state after the cycle in which the word executes. -/
def ran (l : List (Reg × Word)) (m : Memory) (pc : Word) (w : Nat) : State := after ((start l m pc).withFetchWord 32 w)

/-- 95_test_vectors.md, loads: bytes 80 7F FE FF at 0x100. -/
def loadBytes : Memory := [(0x100, 0x80#8), (0x101, 0x7F#8), (0x102, 0xFE#8), (0x103, 0xFF#8)]

/-- R247, example. -/
theorem test_sll : readReg (ran [(2, 0x13#32)] [] 0#32 0x00021900).settledRf 3 = 0x00000130#32 := by decide

/-- R248, example. -/
theorem test_srl : readReg (ran [(2, 0x80000010#32)] [] 0#32 0x00021902).settledRf 3 = 0x08000001#32 := by decide

/-- R249, example. -/
theorem test_sra : readReg (ran [(2, 0x80000010#32)] [] 0#32 0x00021903).settledRf 3 = 0xF8000001#32 := by decide

/-- R250, example: only the low 5 bits count. -/
theorem test_sllv : readReg (ran [(1, 0x24#32), (2, 1#32)] [] 0#32 0x00221804).settledRf 3 = 0x00000010#32 := by decide

/-- R251, example. -/
theorem test_srlv : readReg (ran [(1, 0x21#32), (2, 0x80000000#32)] [] 0#32 0x00221806).settledRf 3 = 0x40000000#32 := by decide

/-- 95_test_vectors.md V-I12. -/
theorem test_srav : readReg (ran [(1, 0x3F#32), (2, 0x40000000#32)] [] 0#32 0x00221807).settledRf 3 = 0x00000000#32 := by decide

/-- R255, example: overflow wraps, no trap. -/
theorem test_add : readReg (ran [(1, 0x7FFFFFFF#32), (2, 1#32)] [] 0#32 0x00221820).settledRf 3 = 0x80000000#32 := by decide

/-- R256, example. -/
theorem test_addu : readReg (ran [(1, 0xFFFFFFFF#32), (2, 2#32)] [] 0#32 0x00221821).settledRf 3 = 0x00000001#32 := by decide

/-- 95_test_vectors.md V-I17: source and destination the same. -/
theorem test_sub : readReg (ran [(1, 0x1234#32)] [] 0#32 0x00210822).settledRf 1 = 0#32 := by decide

/-- 95_test_vectors.md V-I19. -/
theorem test_subu : readReg (ran [(1, 0#32), (2, 0x80000000#32)] [] 0#32 0x00221823).settledRf 3 = 0x80000000#32 := by decide

/-- R259, example. -/
theorem test_and : readReg (ran [(1, 0xF0F0#32), (2, 0xFF00#32)] [] 0#32 0x00221824).settledRf 3 = 0x0000F000#32 := by decide

/-- R260, example. -/
theorem test_or : readReg (ran [(1, 0xF0F0#32), (2, 0x0F0F#32)] [] 0#32 0x00221825).settledRf 3 = 0x0000FFFF#32 := by decide

/-- R261, example. -/
theorem test_xor : readReg (ran [(1, 0xFF00#32), (2, 0x0FF0#32)] [] 0#32 0x00221826).settledRf 3 = 0x0000F0F0#32 := by decide

/-- 95_test_vectors.md V-I25. -/
theorem test_nor : readReg (ran [(1, 0xF0F0F0F0#32), (2, 0x0F0F0000#32)] [] 0#32 0x00221827).settledRf 3 = 0x00000F0F#32 := by decide

/-- 95_test_vectors.md V-I27: signed. -/
theorem test_slt : readReg (ran [(1, 0x80000000#32), (2, 0x7FFFFFFF#32)] [] 0#32 0x0022182A).settledRf 3 = 1#32 := by decide

/-- 95_test_vectors.md V-I30: unsigned. -/
theorem test_sltu : readReg (ran [(1, 0x80000000#32), (2, 0x7FFFFFFF#32)] [] 0#32 0x0022182B).settledRf 3 = 0#32 := by decide

/-- R269, example. -/
theorem test_addi : readReg (ran [(1, 0#32)] [] 0#32 0x2022FFFF).settledRf 2 = 0xFFFFFFFF#32 := by decide

/-- 95_test_vectors.md V-I33: a write to register 0 is dropped. -/
theorem test_addi_to_zero : readReg (ran [(1, 5#32)] [] 0#32 0x20200001).settledRf 0 = 0#32 := by decide

/-- R270, example. -/
theorem test_addiu : readReg (ran [(1, 0x7FFFFFFF#32)] [] 0#32 0x24227FFF).settledRf 2 = 0x80007FFE#32 := by decide

/-- 95_test_vectors.md V-I37. -/
theorem test_slti : readReg (ran [(1, 0xFFFF7FFF#32)] [] 0#32 0x28228000).settledRf 2 = 1#32 := by decide

/-- 95_test_vectors.md V-I38: the immediate is sign-extended first. -/
theorem test_sltiu : readReg (ran [(1, 5#32)] [] 0#32 0x2C22FFFF).settledRf 2 = 1#32 := by decide

/-- 95_test_vectors.md V-I41: zero-extended. -/
theorem test_andi : readReg (ran [(1, 0xFFFF8000#32)] [] 0#32 0x30228000).settledRf 2 = 0x00008000#32 := by decide

/-- R274, example. -/
theorem test_ori : readReg (ran [(1, 0#32)] [] 0#32 0x34228000).settledRf 2 = 0x00008000#32 := by decide

/-- R275, example. -/
theorem test_xori : readReg (ran [(1, 0x0000F0F0#32)] [] 0#32 0x3822FFFF).settledRf 2 = 0x00000F0F#32 := by decide

/-- R276, example: the `rs` field is ignored. -/
theorem test_lui : readReg (ran [(1, 7#32)] [] 0#32 0x3C228000).settledRf 2 = 0x80000000#32 := by decide

/-- R277, example. -/
theorem test_lb : readReg (ran [(1, 0x100#32)] loadBytes 0#32 0x80220000).settledRf 2 = 0xFFFFFF80#32 := by decide

/-- 95_test_vectors.md V-I51: base and destination the same. -/
theorem test_lh : readReg (ran [(1, 0x100#32)] loadBytes 0#32 0x84210000).settledRf 1 = 0x00007F80#32 := by decide

/-- R279, example: a negative offset. -/
theorem test_lw : readReg (ran [(1, 0x104#32)] loadBytes 0#32 0x8C22FFFC).settledRf 2 = 0xFFFE7F80#32 := by decide

/-- R280, example; 95_test_vectors.md V-I56. -/
theorem test_sb :
    readBytes (ran [(1, 0x100#32), (2, 0x12345678#32)] [] 0#32 0xA0220003).settledMem 0x100#32 4 = [0x00#8, 0x00#8, 0x00#8, 0x78#8] := by
  decide

/-- 95_test_vectors.md V-I58: a negative offset. -/
theorem test_sh :
    readBytes (ran [(1, 0x102#32), (2, 0xAABBCCDD#32)] [] 0#32 0xA422FFFE).settledMem 0x100#32 4 = [0xDD#8, 0xCC#8, 0x00#8, 0x00#8] := by
  decide

/-- 95_test_vectors.md V-I60: the base as data. -/
theorem test_sw :
    readBytes (ran [(1, 0x100#32)] [] 0#32 0xAC210000).settledMem 0x100#32 4 = [0x00#8, 0x01#8, 0x00#8, 0x00#8] := by
  decide

/-- R265, example. -/
theorem test_j : (ran [] [] 0x10000004#32 0x08000010).nextPc = 0x10000040#32 := by decide

/-- R266, example. -/
theorem test_jal : (ran [] [] 0x20#32 0x0C000010).nextPc = 0x40#32 ∧
    readReg (ran [] [] 0x20#32 0x0C000010).settledRf 31 = 0x28#32 := by decide

/-- R253, example. -/
theorem test_jr : (ran [(31, 0x100#32)] [] 0x40#32 0x03E00008).nextPc = 0x100#32 := by decide

/-- 95_test_vectors.md V-I65: link and target register the same. -/
theorem test_jalr : (ran [(5, 0x80#32)] [] 0x20#32 0x00A02809).nextPc = 0x80#32 ∧
    readReg (ran [(5, 0x80#32)] [] 0x20#32 0x00A02809).settledRf 5 = 0x28#32 := by decide

/-- R267, example. -/
theorem test_beq_taken : (ran [(1, 5#32), (2, 5#32)] [] 0x10#32 0x10220003).nextPc = 0x20#32 := by decide

/-- R267, example: no redirect. -/
theorem test_beq_not_taken : (ran [(1, 5#32), (2, 6#32)] [] 0x10#32 0x10220003).nextPc = 0x14#32 := by decide

/-- R268, example. -/
theorem test_bne_taken : (ran [(1, 1#32), (2, 4#32)] [] 0xC#32 0x1422FFFE).nextPc = 0x8#32 := by decide

/-- R268, example: no redirect. -/
theorem test_bne_not_taken : (ran [(1, 4#32), (2, 4#32)] [] 0xC#32 0x1422FFFE).nextPc = 0x10#32 := by decide

/-- 95_test_vectors.md V-I55: a misaligned load stops the model in the cycle that issues it. -/
theorem test_misaligned_load : (dataMisaligned (ran [(1, 0x100#32)] loadBytes 0#32 0x8C220002)).isSome = true := by decide

/-! ### Witnesses: concrete states that meet the hypotheses of the statements

`witness_<Name>` is for `Obligations.<Name>`; where a statement has several clauses, each has its own state. -/

/-- The invariant, as one check of a concrete state. -/
def checks (s : State) : Bool :=
  s.mem.wf && !s.pt.isEmpty &&
  decide (s.fd.valid = false → s.fd = .bubble) && decide (s.de.valid = false → s.de = .bubble) &&
  decide (s.em.valid = false → s.em = .bubble) && decide (s.mw.valid = false → s.mw = .bubble) &&
  decide (s.de.valid = true → s.de.coherent = true) &&
  decide (s.em.ctrl ∈ referenceBundles) && decide (s.mw.ctrl ∈ referenceBundles) &&
  decide (0 < s.memWait → s.em.valid = true ∧ (s.em.ctrl.memRead = true ∨ s.em.ctrl.memWrite = true)) &&
  decide (s.cfg.predEn = false → s.fd.predTaken = false ∧ s.de.predTaken = false) &&
  decide (s.fd.predTaken = true → (referenceDec s.fd.word).branch = true ∨ (referenceDec s.fd.word).bne = true) &&
  decide (s.de.predTaken = true → s.de.ctrl.branch = true ∨ s.de.ctrl.bne = true) &&
  decide (s.de.valid = true → s.de.rsVal = readReg s.rf s.de.rs ∧ s.de.rtVal = readReg s.rf s.de.rt) &&
  decide (s.de.valid = true → s.em.valid = true → s.em.ctrl.memRead = true → s.em.ctrl.regWrite = true →
    dest s.em.ctrl s.em.rt s.em.rd ≠ s.de.rs ∧ dest s.em.ctrl s.em.rt s.em.rd ≠ s.de.rt) &&
  decide (s.fd.valid = true → s.pc = s.fd.successor) && decide (s.de.valid = true → s.fromFetch = s.de.successor) &&
  (!s.em.valid || s.em.successor.all (fun a => s.nextPc == a)) &&
  (!s.mw.valid || s.mw.successor.all (fun a => s.fromMemory == a))

theorem inv_of_checks {s : State} (h : checks s = true) : s.Inv := by
  simp only [checks, Bool.and_eq_true, decide_eq_true_eq, Bool.or_eq_true, Bool.not_eq_true', List.isEmpty_eq_false_iff] at h
  obtain ⟨⟨⟨⟨⟨⟨⟨⟨⟨⟨⟨⟨⟨⟨⟨⟨⟨⟨h1, h2⟩, h3⟩, h4⟩, h5⟩, h6⟩, h7⟩, h8⟩, h9⟩, h10⟩, h11⟩, h12⟩, h13⟩, h14⟩, h15⟩, p1⟩, p2⟩, p3⟩, p4⟩ := h
  refine ⟨h1, h2, h3, h4, h5, h6, h7, h8, h9, h10, h11, h12, h13, h14, h15, p1, p2, fun hv a ha => ?_, fun hv a ha => ?_⟩
  · rcases p3 with h | h
    · simp [hv] at h
    · simpa [ha] using h
  · rcases p4 with h | h
    · simp [hv] at h
    · simpa [ha] using h

theorem step_after {s : State} (h : s.accessesAligned = true) : step s = .next (after s) := by
  obtain ⟨t, ht⟩ := step_goes_on h
  simp [after, ht]

theorem core_goes_on {s : State} (h : s.accessesAligned = true) : ∃ t, coreCycle referenceCfg s = .next t :=
  ⟨_, cycle_of_aligned _ h⟩

/-- A word in execute, alone in the pipeline: `$1 = 0x100`, `$2 = 5`, `$3 = 5`, bytes at 0x100. -/
def inEx (w : Nat) : State := (start [(1, 0x100#32), (2, 5#32), (3, 5#32)] loadBytes 0#32).withFetchWord 32 w

/-- The same one cycle later: the word in EM. -/
def inEm (w : Nat) : State := after (inEx w)

/-- And two cycles later: the word in MW. -/
def inMw (w : Nat) : State := after (inEm w)

/-- The data port answers not-ready. -/
def dataMiss (s : State) : State := { s with ports := ⟨[], ⟨true, false⟩⟩ }

/-- The instruction port answers not-ready. -/
def fetchMiss (s : State) : State := { s with ports := ⟨[], ⟨false, true⟩⟩ }

/-- A branch in execute, predicted taken at fetch, under prediction. -/
def predictedTaken (w : Nat) (imm : BitVec 16) : State :=
  { inEx w with
    cfg := ⟨true, .little⟩
    pc := btarget 0#32 imm
    de := { (inEx w).de with predTaken := true } }

/-- `lw $4,0($1)` in execute, `add $5,$4,$4` in decode. -/
def loadThenUse : State := { inEx 0x8C240000 with fd := ⟨true, 0x00842820#32, 4#32, false⟩, pc := 8#32 }

/-- `lw $4,0($1)` in EM, `add $5,$2,$3` in execute. -/
def loadThenOther : State := after { inEx 0x8C240000 with fd := ⟨true, 0x00432820#32, 4#32, false⟩, pc := 8#32 }

/-- Every instruction, with every operand, is in execute of a state that meets the hypotheses of the statements about
it (`ShiftsByAmount` to `Branches`). -/
theorem witness_everyInstruction (i : Instr) :
    let s := placeWord referenceDec State.reset (encode i)
    s.Inv ∧ s.flows = true ∧ inExecute s.de = some i := by
  refine ⟨placed_inv _ _ _ _ (by decide) (memWrite_wf _ _ _ _ rfl), ?_, ?_⟩
  · have hd : dportRequest (placeWord referenceDec State.reset (encode i)) = none := rfl
    have hp : aligned (State.reset.pc + 4#32) .word = true := by decide
    simp [State.flows, State.accessesAligned, State.stalls, fetchMisaligned, dataMisaligned, memStall, hd, hp]
  rw [placeWord_de, inExecute, ofWord_coherent, if_pos rfl, ofWord_word]
  cases i <;> simp [decodeWord, decodeRType, encode]

theorem witness_ShiftsByAmount : ∃ s : State, s.Inv ∧ s.flows = true ∧ inExecute s.de = some (.sra 0#5 2#5 0#5 31#5) :=
  ⟨_, witness_everyInstruction _⟩

theorem witness_VariableShifts : ∃ s : State, s.Inv ∧ s.flows = true ∧ inExecute s.de = some (.srav 1#5 2#5 1#5 0#5) :=
  ⟨_, witness_everyInstruction _⟩

theorem witness_RegisterArithmetic : ∃ s : State, s.Inv ∧ s.flows = true ∧ inExecute s.de = some (.sub 1#5 1#5 1#5 0#5) :=
  ⟨_, witness_everyInstruction _⟩

theorem witness_RegisterLogicAndCompare : ∃ s : State, s.Inv ∧ s.flows = true ∧ inExecute s.de = some (.slt 0#5 2#5 3#5 31#5) :=
  ⟨_, witness_everyInstruction _⟩

theorem witness_ImmediateArithmeticAndCompare : ∃ s : State, s.Inv ∧ s.flows = true ∧ inExecute s.de = some (.sltiu 1#5 2#5 0xFFFF#16) :=
  ⟨_, witness_everyInstruction _⟩

theorem witness_ImmediateLogic : ∃ s : State, s.Inv ∧ s.flows = true ∧ inExecute s.de = some (.lui 31#5 2#5 0x8000#16) :=
  ⟨_, witness_everyInstruction _⟩

theorem witness_Jumps : ∃ s : State, s.Inv ∧ s.flows = true ∧ inExecute s.de = some (.jal 0x3FFFFFF#26) :=
  ⟨_, witness_everyInstruction _⟩

theorem witness_RegisterJumps : ∃ s : State, s.Inv ∧ s.flows = true ∧ inExecute s.de = some (.jalr 31#5 0#5 31#5 0#5) :=
  ⟨_, witness_everyInstruction _⟩

theorem witness_LaunchMeetsTheInvariant : 0 < 1 ∧ Memory.wf loadBytes = true := by decide

/-- A bubble, a word, and a word whose register the word in MW writes. -/
theorem witness_DecodeSlicesEveryWord :
    (start [] [] 0#32).fd.valid = false ∧ (after (start [] [] 0#32)).fd.valid = true ∧
    mwWrites (inMw 0x20240001) 4#5 = true := by
  decide

theorem witness_RTypeRowsHaveTheirBundles :
    [0x00, 0x02, 0x03, 0x04, 0x06, 0x07, 0x08, 0x09, 0x20, 0x21, 0x22, 0x23, 0x24, 0x25, 0x26, 0x27, 0x2A, 0x2B].all
      (fun f => opcodeOf (BitVec.ofNat 32 f) == 0#6 && (functOf (BitVec.ofNat 32 f)).toNat == f) = true := by
  decide

theorem witness_OtherRowsHaveTheirBundles :
    [0x02, 0x03, 0x04, 0x05, 0x08, 0x09, 0x0A, 0x0B, 0x0C, 0x0D, 0x0E, 0x0F, 0x20, 0x21, 0x23, 0x28, 0x29, 0x2B].all
      (fun o => (opcodeOf (BitVec.ofNat 32 o <<< 26)).toNat == o) = true := by
  decide

theorem witness_UnlistedEncodingsAreInert :
    decodeWord 0xFC000000#32 = none ∧ (opcodeOf 0x04000000#32).toNat = 0x01 ∧ (opcodeOf 0xC0000000#32).toNat = 0x30 ∧
    opcodeOf 0x0000000C#32 = 0#6 ∧ (functOf 0x0000000C#32).toNat = 0x0C ∧ (functOf 0x0000003F#32).toNat = 0x3F := by
  decide

theorem witness_EncodeInvertsDecode :
    decode .big [0x00#8, 0x02#8, 0x19#8, 0x00#8, 0xFF#8] = .decoded (.sll 0#5 2#5 3#5 4#5) [0xFF#8] := by
  decide

theorem witness_ImmediatesAreExtendedByZext :
    (inEx 0x30228000).de.valid = true ∧ (inEx 0x30228000).de.ctrl.zext = true ∧
    (inEx 0x2022FFFF).de.valid = true ∧ (inEx 0x2022FFFF).de.ctrl.zext = false := by
  decide

theorem witness_JumpTargetIsConcatenated : (0x0FFFFFFC#32).toNat % 4 = 0 ∧ (0x0FFFFFFC#32).toNat % 2 ^ 28 = 0xFFFFFFC := by decide

theorem witness_ReferenceUnitComputes : (0x21 : Nat) ∉ [0x0A, 0x0B, 0x0C, 0x0D, 0x0E, 0x0F] ∧ (0x08 : Nat) ∉ [0x00, 0x02, 0x03] := by
  decide

/-- From EM, from MW, from neither. -/
theorem witness_ForwardingPrefersTheYoungerProducer :
    emWrites (inEm 0x20240001) 4#5 = true ∧
    (emWrites (inMw 0x20240001) 4#5 = false ∧ mwWrites (inMw 0x20240001) 4#5 = true) ∧
    (emWrites (inEx 0x20240001) 4#5 = false ∧ mwWrites (inEx 0x20240001) 4#5 = false) := by
  decide

/-- A valid word and a bubble in execute. -/
theorem witness_ExecuteLatchesItsOutput :
    ((inEx 0x00221820).accessesAligned = true ∧ (inEx 0x00221820).stalls = false ∧ (inEx 0x00221820).de.valid = true) ∧
    ((start [] [] 0#32).accessesAligned = true ∧ (start [] [] 0#32).stalls = false ∧ (start [] [] 0#32).de.valid = false) := by
  decide

/-- A jump, a register jump, a branch as predicted, taken against its prediction, and not taken against it. -/
theorem witness_ControlTransfersResolve :
    (inEx 0x08000010).de.ctrl.jump = true ∧ (inEx 0x00200008).de.ctrl.jr = true ∧
    ((inEx 0x10430003).de.ctrl.branch = true ∧ (inEx 0x10430003).de.predTaken = false ∧
      (executeStage referenceCfg (inEx 0x10430003)).em.zero = true) ∧
    ((predictedTaken 0x14430003 3#16).de.ctrl.bne = true ∧ (predictedTaken 0x14430003 3#16).de.predTaken = true ∧
      (executeStage referenceCfg (predictedTaken 0x14430003 3#16)).em.zero = true) ∧
    ((inEx 0x10220003).de.ctrl.branch = true ∧ (executeStage referenceCfg (inEx 0x10220003)).em.zero = false) := by
  decide

theorem witness_BranchesTrainTheirCounter :
    (predictedTaken 0x14430003 3#16).accessesAligned = true ∧ (predictedTaken 0x14430003 3#16).stalls = false ∧
    (predictedTaken 0x14430003 3#16).cfg.predEn = true ∧
    (predictedTaken 0x14430003 3#16).de.pc.toNat / 4 % (predictedTaken 0x14430003 3#16).pt.length = 0 := by
  decide

/-- The five rows: data stall, redirect, load-use stall, fetch hit, fetch miss. -/
theorem witness_NextStateTable :
    ((dataMiss (inEm 0x8C240000)).accessesAligned = true ∧ (dataMiss (inEm 0x8C240000)).stalls = true) ∧
    ((inEx 0x08000010).accessesAligned = true ∧ (inEx 0x08000010).stalls = false ∧
      (inEx 0x08000010).redirects = some 0x40#32) ∧
    (loadThenUse.accessesAligned = true ∧ loadThenUse.stalls = false ∧ loadThenUse.redirects = none ∧ loadUse loadThenUse = true) ∧
    (inEx 0x00221820).straight = true ∧
    ((fetchMiss (inEx 0x00221820)).accessesAligned = true ∧ (fetchMiss (inEx 0x00221820)).stalls = false ∧
      loadUse (fetchMiss (inEx 0x00221820)) = false ∧ (fetchMiss (inEx 0x00221820)).redirects = none ∧
      (fetchMiss (inEx 0x00221820)).ports.now.iReady = false) := by
  decide

theorem witness_WaitCountersCountMisses : ∃ t, coreCycle referenceCfg (dataMiss (inEm 0x8C240000)) = .next t :=
  core_goes_on (by decide)

/-- A cycle that goes on, and one that stops. -/
theorem witness_WaitCountersSteerNothing :
    (∃ t, coreCycle referenceCfg (inEx 0x00221820) = .next t) ∧ ∃ f, coreCycle referenceCfg (inEm 0x8C240002) = .fault f :=
  ⟨core_goes_on (by decide), cycle_faults_iff.2 (by decide)⟩

theorem witness_DataMissFreezesThePipeline :
    (dataMiss (inEm 0x8C240000)).accessesAligned = true ∧ (dataMiss (inEm 0x8C240000)).stalls = true := by
  decide

/-- A misaligned fetch, a misaligned data access, neither. -/
theorem witness_OnlyMisalignedAccessesStop :
    ((start [] [] 2#32).stalls = false ∧ loadUse (start [] [] 2#32) = false ∧ (start [] [] 2#32).pc.toNat % 4 ≠ 0) ∧
    ((dportRequest (inEm 0x8C240002)).any (fun r => r.addr.toNat % r.width.bytes != 0) = true ∧
      (inEm 0x8C240002).pc.toNat % 4 = 0) ∧
    (inEx 0x00221820).accessesAligned = true := by
  decide

theorem witness_StepRunsTheInstructionInExecute :
    inExecute (inEx 0x00221820).de = some (.add 1#5 2#5 3#5 0#5) ∧ inExecute (start [] [] 0#32).de = none ∧
    decodeTableWord 32 0x00221820 = some (.add 1#5 2#5 3#5 0#5) := by
  decide

/-- `add $3,$1,$2` at 0. -/
def fetchable : State := start [(1, 1#32)] [(0, 0x20#8), (1, 0x18#8), (2, 0x22#8)] 0#32

theorem witness_FetchedBytesReachExecute :
    decode fetchable.cfg.endian (readBytes fetchable.mem fetchable.pc 4) = .decoded (.add 1#5 2#5 3#5 0#5) [] ∧
    fetchable.straight = true ∧ step fetchable = .next (after fetchable) ∧ (after fetchable).flows = true ∧
    loadUse (after fetchable) = false ∧ (after fetchable).redirects = none ∧
    step (after fetchable) = .next (after (after fetchable)) :=
  ⟨by decide, by decide, step_after (by decide), by decide, by decide, by decide, step_after (by decide)⟩

theorem witness_OptionsNeverChange : core.run 1 fetchable = .next (after fetchable) := by
  rw [run_succ_of_next (step_after (by decide))]
  rfl

/-- A counter at 2 at the branch's address: predicted; and not predicted. -/
def predicting : State :=
  { start [] [(0, 0xFE#8), (1, 0xFF#8), (2, 0x22#8), (3, 0x14#8)] 0#32 with cfg := ⟨true, .little⟩, pt := [2] }

theorem witness_FetchHitAdvances :
    predicting.straight = true ∧ fetchPredict referenceDec predicting predicting.pc 0x1422FFFE#32 = true ∧
    memRead .little predicting.mem 0#32 .word = 0x1422FFFE#32 ∧ fetchable.straight = true ∧ fetchable.cfg.predEn = false := by
  decide

theorem witness_DisabledPredictorIsNeverRead : fetchable.cfg.predEn = false := by decide

theorem witness_LoadUseStallsOneCycle :
    (∃ t, coreCycle referenceCfg loadThenUse = .next t) ∧ loadThenUse.stalls = false ∧
    (executeStage referenceCfg loadThenUse).redirect = none ∧ loadUse loadThenUse = true :=
  ⟨core_goes_on (by decide), by decide, by decide, by decide⟩

theorem witness_LoadedValueReachesItsConsumer :
    loadThenUse.Inv ∧ loadThenUse.flows = true ∧ loadUse loadThenUse = true ∧ loadThenUse.de.ctrl.memToReg = true ∧
    step loadThenUse = .next (after loadThenUse) ∧ (after loadThenUse).flows = true ∧
    step (after loadThenUse) = .next (after (after loadThenUse)) ∧
    dest loadThenUse.de.ctrl loadThenUse.de.rt loadThenUse.de.rd = 4#5 ∧ rsOf loadThenUse.fd.word = 4#5 ∧
    rtOf loadThenUse.fd.word = 4#5 :=
  ⟨inv_of_checks (by decide), by decide, by decide, by decide, step_after (by decide), by decide, step_after (by decide),
    by decide, by decide, by decide⟩

theorem witness_DataPortRequest :
    ((inEm 0x8C240000).em.valid = true ∧ (inEm 0x8C240000).em.ctrl.memRead = true) ∧
    ((inEm 0xAC220000).em.valid = true ∧ (inEm 0xAC220000).em.ctrl.memWrite = true) ∧
    (start [] [] 0#32).em.valid = false ∧
    ((inEm 0x00221820).em.ctrl.memRead = false ∧ (inEm 0x00221820).em.ctrl.memWrite = false) := by
  decide

theorem witness_LoadedDataIsSignExtended :
    Ctrl.inert.memRead = false ∧ (Ctrl.loadByte.memRead = true ∧ Ctrl.loadByte.byte = true) ∧
    (Ctrl.loadHalf.memRead = true ∧ Ctrl.loadHalf.byte = false ∧ Ctrl.loadHalf.half = true) ∧
    (Ctrl.loadWord.memRead = true ∧ Ctrl.loadWord.byte = false ∧ Ctrl.loadWord.half = false) := by
  decide

theorem witness_MemoryStageOutput :
    ((inEm 0x8C240000).accessesAligned = true ∧ (inEm 0x8C240000).stalls = false ∧ (inEm 0x8C240000).em.valid = true) ∧
    ((inEx 0x8C240000).accessesAligned = true ∧ (inEx 0x8C240000).stalls = false ∧ (inEx 0x8C240000).em.valid = false) := by
  decide

/-- No access, a not-ready store, a ready store, a ready load. -/
theorem witness_StoresHappenWhenReady :
    ((inEx 0xAC220000).accessesAligned = true ∧ dportRequest (inEx 0xAC220000) = none) ∧
    ((dataMiss (inEm 0xAC220000)).accessesAligned = true ∧
      (dportRequest (dataMiss (inEm 0xAC220000))).isSome = true ∧ (dataMiss (inEm 0xAC220000)).ports.now.dReady = false) ∧
    ((inEm 0xAC220000).accessesAligned = true ∧ (dportRequest (inEm 0xAC220000)).any (fun r => r.writeEnable) = true ∧
      (inEm 0xAC220000).ports.now.dReady = true) ∧
    ((inEm 0x8C240000).accessesAligned = true ∧ (dportRequest (inEm 0x8C240000)).any (fun r => !r.writeEnable) = true) := by
  decide

/-- The last word of the address space. -/
theorem witness_MemoryReadsBackWhatWasWritten :
    Memory.wf loadBytes = true ∧ (0xFFFFFFFC#32).toNat % Width.word.bytes = 0 := by
  decide

theorem witness_ReadsAssembleBytes : (0x102#32).toNat % Width.half.bytes = 0 ∧ (0x103#32).toNat % Width.byte.bytes = 0 := by decide

theorem witness_WritebackWritesOneRegister :
    (inMw 0x20240001).accessesAligned = true ∧ (inMw 0x20240001).stalls = false ∧ (inMw 0x20240001).mw.valid = true ∧
    (inMw 0x20240001).mw.ctrl.regWrite = true ∧ (inMw 0x20240001).mw.dest = 4#5 := by
  decide

theorem witness_EveryWordRetiresInItsFifthCycle :
    let s1 := after fetchable
    let s2 := after s1
    let s3 := after s2
    let s4 := after s3
    fetchable.straight = true ∧ s1.flows = true ∧ loadUse s1 = false ∧ s1.redirects = none ∧ s2.flows = true ∧
    s3.flows = true ∧ s4.flows = true ∧ step fetchable = .next s1 ∧ step s1 = .next s2 ∧ step s2 = .next s3 ∧
    step s3 = .next s4 ∧ step s4 = .next (after s4) :=
  ⟨by decide, by decide, by decide, by decide, by decide, by decide, by decide, step_after (by decide), step_after (by decide),
    step_after (by decide), step_after (by decide), step_after (by decide)⟩

/-- Memory of zeros is `sll $0,$0,0` throughout: straight-line code. -/
theorem witness_StraightLineCodeRetiresInOrder :
    runsStraight 6 (State.launch ⟨false, .little⟩ 1 (regs []) [] ⟨[], ⟨true, true⟩⟩) = true := by
  decide

/-- A store in EM, its access not ready for two cycles. -/
def twoMisses : State := { inEm 0xAC220000 with ports := ⟨[⟨true, false⟩, ⟨false, false⟩, ⟨true, true⟩], ⟨true, true⟩⟩ }

theorem witness_DataMissShiftsTheRun :
    twoMisses.accessesAligned = true ∧ (dportRequest twoMisses).isSome = true ∧
    (∀ a ∈ [PortReady.mk true false, PortReady.mk false false], a.dReady = false) ∧
    twoMisses.ports.sched = [⟨true, false⟩, ⟨false, false⟩] ++ [⟨true, true⟩] := by
  decide

theorem witness_OperandsAreTheSettledRegisters :
    loadThenOther.Inv ∧ loadThenOther.de.valid = true ∧ loadThenOther.em.valid = true ∧
    loadThenOther.em.ctrl.memRead = true :=
  ⟨inv_of_checks (by decide), by decide, by decide, by decide⟩

theorem witness_SettledValuesAreCommitted :
    (loadThenOther.flows = true ∧ step loadThenOther = .next (after loadThenOther) ∧ (after loadThenOther).flows = true ∧
      step (after loadThenOther) = .next (after (after loadThenOther))) ∧
    (inEx 0).em = .bubble ∧ (inEx 0).mw = .bubble :=
  ⟨⟨by decide, step_after (by decide), by decide, step_after (by decide)⟩, by decide, by decide⟩

theorem witness_StepKeepsTheInvariant : loadThenOther.Inv ∧ step loadThenOther = .next (after loadThenOther) :=
  ⟨inv_of_checks (by decide), step_after (by decide)⟩

/-- A stall, a bubble in execute, an inert word, an instruction, a misaligned store. -/
theorem witness_StepRefinesSequentialExecution :
    ((dataMiss loadThenOther).Inv ∧ step (dataMiss loadThenOther) = .next (after (dataMiss loadThenOther)) ∧
      (dataMiss loadThenOther).stalls = true) ∧
    (fetchable.Inv ∧ step fetchable = .next (after fetchable) ∧ fetchable.de.valid = false) ∧
    ((inEx 0x0000000C).Inv ∧ step (inEx 0x0000000C) = .next (after (inEx 0x0000000C)) ∧
      (inEx 0x0000000C).stalls = false ∧ decodeWord (inEx 0x0000000C).de.word = none) ∧
    (inExecute loadThenOther.de = some (.add 2#5 3#5 5#5 0#5) ∧
      (seqExec .little (.add 2#5 3#5 5#5 0#5) loadThenOther.settled).isSome = true) ∧
    ((inEx 0xAC220002).Inv ∧ inExecute (inEx 0xAC220002).de = some (.sw 1#5 2#5 2#16) ∧
      seqExec .little (.sw 1#5 2#5 2#16) (inEx 0xAC220002).settled = none) :=
  ⟨⟨inv_of_checks (by decide), step_after (by decide), by decide⟩, ⟨inv_of_checks (by decide), step_after (by decide), by decide⟩,
    ⟨inv_of_checks (by decide), step_after (by decide), by decide, by decide⟩, ⟨by decide, by decide⟩,
    inv_of_checks (by decide), by decide, by decide⟩

theorem witness_PipelineRunsAreSequentialRuns :
    let t := after (after (after fetchable))
    fetchable.Inv ∧ core.run 3 fetchable = .next t ∧ runsCurrentCode 3 fetchable = true ∧ t.accessesAligned = true ∧
    executed 3 fetchable = 1 := by
  refine ⟨inv_of_checks (by decide), ?_, by decide, by decide, by decide⟩
  rw [run_succ_of_next (step_after (by decide)), run_succ_of_next (step_after (by decide)), run_succ_of_next (step_after (by decide))]
  rfl

theorem witness_InertWordsHaveNoEffect :
    (inEx 0x0000000C).Inv ∧ (inEx 0x0000000C).flows = true ∧ (inEx 0x0000000C).de.valid = true ∧
    decodeWord (inEx 0x0000000C).de.word = none :=
  ⟨inv_of_checks (by decide), by decide, by decide, by decide⟩

/-- An aligned and a misaligned load. -/
theorem witness_Loads :
    ((inEx 0x8C240000).Inv ∧ (inEx 0x8C240000).flows = true ∧ inExecute (inEx 0x8C240000).de = some (.lw 1#5 4#5 0#16) ∧
      (readReg (inEx 0x8C240000).settledRf 1#5).toNat % 4 = 0) ∧
    ((inEx 0x84240001).Inv ∧ (inEx 0x84240001).flows = true ∧ inExecute (inEx 0x84240001).de = some (.lh 1#5 4#5 1#16) ∧
      (readReg (inEx 0x84240001).settledRf 1#5 + 1#32).toNat % 2 ≠ 0) :=
  ⟨⟨inv_of_checks (by decide), by decide, by decide, by decide⟩, inv_of_checks (by decide), by decide, by decide, by decide⟩

/-- An aligned store in either byte order, and a misaligned one. -/
theorem witness_Stores :
    ((inEx 0xAC220000).Inv ∧ (inEx 0xAC220000).flows = true ∧ inExecute (inEx 0xAC220000).de = some (.sw 1#5 2#5 0#16) ∧
      (effectiveAddress (inEx 0xAC220000) 1#5 0#16).toNat % 4 = 0 ∧ (inEx 0xAC220000).cfg.endian = .little) ∧
    ({ inEx 0xA4220000 with cfg := ⟨false, .big⟩ }.Inv ∧
      inExecute (inEx 0xA4220000).de = some (.sh 1#5 2#5 0#16)) ∧
    ((inEx 0xAC220002).Inv ∧ (inEx 0xAC220002).flows = true ∧
      (effectiveAddress (inEx 0xAC220002) 1#5 2#16).toNat % 4 ≠ 0) :=
  ⟨⟨inv_of_checks (by decide), by decide, by decide, by decide, by decide⟩, ⟨inv_of_checks (by decide), by decide⟩,
    inv_of_checks (by decide), by decide, by decide⟩

/-- A branch whose outcome is the predicted one, and one whose outcome is not, under prediction. -/
theorem witness_Branches :
    ((predictedTaken 0x10430003 3#16).Inv ∧ (predictedTaken 0x10430003 3#16).flows = true ∧
      inExecute (predictedTaken 0x10430003 3#16).de = some (.beq 2#5 3#5 3#16) ∧
      readReg (predictedTaken 0x10430003 3#16).settledRf 2#5 = readReg (predictedTaken 0x10430003 3#16).settledRf 3#5) ∧
    ((predictedTaken 0x14430003 3#16).Inv ∧ (predictedTaken 0x14430003 3#16).flows = true ∧
      inExecute (predictedTaken 0x14430003 3#16).de = some (.bne 2#5 3#5 3#16) ∧
      readReg (predictedTaken 0x14430003 3#16).settledRf 2#5 = readReg (predictedTaken 0x14430003 3#16).settledRf 3#5) :=
  ⟨⟨inv_of_checks (by decide), by decide, by decide, by decide⟩, inv_of_checks (by decide), by decide, by decide, by decide⟩

end Sys2Proof.Tests
end

/-! The state elements (10_state.md): what reset leaves, register 0, the wait counters, and the options of a run. -/

namespace Sys2Proof.Machine

/-! ### Register 0 (R41, R164, R304 (a)) -/

@[simp] theorem fwdWB_zero (s : State) (v : Word) : fwdWB s 0#5 v = v := rfl

@[simp] theorem fwdsel_zero (s : State) : fwdsel s 0#5 = .noForward := rfl

@[simp] theorem fwd_zero (s : State) (v : Word) : fwd s 0#5 v = v := rfl

@[simp] theorem decodeRead_zero (s : State) : decodeRead s 0#5 = 0#32 := rfl

/-! ### Stops -/

/-- Which stop a cycle answers with: the fetch's if that is misaligned, otherwise the data access's
(notes/assumptions 12). -/
theorem cycle_eq_fault {dec : Word → Ctrl} {s : State} {x : ExecuteOut} {f : Fault} :
    cycle dec s x = .fault f ↔
      (fetchMisaligned s = true ∧ f = .misalignedFetch s.pc) ∨
      (fetchMisaligned s = false ∧ ∃ r, dataMisaligned s = some r ∧ f = .misalignedData r.addr r.width.bytes) := by
  rw [cycle]
  cases hf : fetchMisaligned s <;> cases hd : dataMisaligned s <;> simp [eq_comm]

/-! ### The wait counters (R33, R34) -/

/-- The state with other wait counters. -/
def State.withWaits (s : State) (a b : Nat) : State := { s with fetchWait := a, memWait := b }

section
variable (s : State) (a b : Nat)

@[simp] theorem withWaits_pc : (s.withWaits a b).pc = s.pc := rfl

@[simp] theorem withWaits_ports : (s.withWaits a b).ports = s.ports := rfl

@[simp] theorem memStall_withWaits (dReady : Bool) : memStall (s.withWaits a b) dReady = memStall s dReady := rfl

@[simp] theorem loadUse_withWaits : loadUse (s.withWaits a b) = loadUse s := rfl

@[simp] theorem answers_withWaits : answers (s.withWaits a b) = answers s := rfl

@[simp] theorem fetchMisaligned_withWaits : fetchMisaligned (s.withWaits a b) = fetchMisaligned s := rfl

@[simp] theorem dataMisaligned_withWaits : dataMisaligned (s.withWaits a b) = dataMisaligned s := rfl

@[simp] theorem executeStage_withWaits (k : Collaborators) : executeStage k (s.withWaits a b) = executeStage k s := rfl

/-- The front end reads `fetchWait` only to make the next one of it. -/
theorem frontEnd_withWaits (dec : Word → Ctrl) (redirect : Option Word) (ans : PortAnswers) :
    ∃ c, frontEnd dec redirect ans (s.withWaits a b) = { frontEnd dec redirect ans s with fetchWait := c } := by
  cases redirect with
  | some target => exact ⟨0, rfl⟩
  | none =>
    by_cases hu : loadUse s = true
    · refine ⟨a, ?_⟩
      simp only [frontEnd, loadUse_withWaits, hu, if_true]
      rfl
    · by_cases hr : ans.iReady = true
      · refine ⟨0, ?_⟩
        simp only [frontEnd, loadUse_withWaits, hu, hr, if_true]
        rfl
      · refine ⟨a + 1, ?_⟩
        simp only [frontEnd, loadUse_withWaits, hu, hr]
        rfl

/-- The next state depends on the wait counters in nothing but its own. -/
theorem cycleNext_withWaits (dec : Word → Ctrl) (x : ExecuteOut) :
    ∃ c d, cycleNext dec (s.withWaits a b) x = (cycleNext dec s x).withWaits c d := by
  cases hs : memStall s s.ports.now.dReady with
  | true =>
    refine ⟨a, b + 1, ?_⟩
    rw [cycleNext_of_stall dec s x hs, cycleNext_of_stall dec (s.withWaits a b) x (by simpa using hs)]
    rfl
  | false =>
    obtain ⟨c, hc⟩ := frontEnd_withWaits s a b dec x.redirect (answers s)
    refine ⟨c, 0, ?_⟩
    rw [cycleNext_of_flow dec s x hs, cycleNext_of_flow dec (s.withWaits a b) x (by simpa using hs),
      answers_withWaits, advanced, hc]
    rfl

/-- A cycle that goes on does so whatever the wait counters hold, and differs in them alone. -/
theorem coreCycle_next_withWaits {s t : State} {k : Collaborators} (h : coreCycle k s = .next t) :
    ∃ c d, coreCycle k (s.withWaits a b) = .next (t.withWaits c d) := by
  obtain ⟨haligned, rfl⟩ := cycle_eq_next.1 h
  obtain ⟨c, d, hnext⟩ := cycleNext_withWaits s a b k.dec (executeStage k s)
  refine ⟨c, d, ?_⟩
  rw [coreCycle, executeStage_withWaits, ← hnext]
  exact cycle_of_aligned _ haligned

/-- A cycle that stops does so whatever the wait counters hold, and for the same reason. -/
theorem coreCycle_fault_withWaits {s : State} {k : Collaborators} {f : Fault} (h : coreCycle k s = .fault f) :
    coreCycle k (s.withWaits a b) = .fault f := by
  rw [coreCycle, cycle_eq_fault] at h ⊢
  simpa using h

end

/-! ### The options of a run (R44, 00_scope.md R8) -/

/-- A cycle never changes the size of the predictor table. -/
@[simp] theorem cycleNext_pt_length (dec : Word → Ctrl) (s : State) (x : ExecuteOut) :
    (cycleNext dec s x).pt.length = s.pt.length := by
  rw [cycleNext_pt, coreNext]
  split <;> simp

theorem step_keeps_options {s t : State} (h : step s = .next t) : t.cfg = s.cfg ∧ t.pt.length = s.pt.length := by
  obtain ⟨-, x, rfl⟩ := step_eq_next h
  exact ⟨cycleNext_cfg_same _ s x, cycleNext_pt_length _ s x⟩

/-- What every step keeps, every run keeps. -/
theorem run_keeps {P : State → State → Prop} (refl : ∀ s, P s s) (trans : ∀ {s u t}, P s u → P u t → P s t)
    (hstep : ∀ {s t}, step s = .next t → P s t) : ∀ {n : Nat} {s t : State}, core.run n s = .next t → P s t
  | 0, s, t, h => by
    cases h
    exact refl s
  | _ + 1, _, _, h => by
    obtain ⟨u, hu, ht⟩ := run_succ_eq_next h
    exact trans (hstep hu) (run_keeps refl trans hstep ht)

/-! ### The statements -/

/-- Settles O22: the stops do not read the counters, and the next state's other elements do not either. -/
theorem waitCountersSteerNothing : Obligations.WaitCountersSteerNothing := by
  unfold Obligations.WaitCountersSteerNothing
  intro k s a b
  exact ⟨fun _ h => coreCycle_next_withWaits a b h, fun _ h => coreCycle_fault_withWaits a b h⟩

/-- Settles O28, by induction on the number of steps. -/
theorem optionsNeverChange : Obligations.OptionsNeverChange := by
  unfold Obligations.OptionsNeverChange
  intro n s t h
  refine run_keeps (P := fun s t => t.cfg = s.cfg ∧ t.pt.length = s.pt.length) (fun _ => ⟨rfl, rfl⟩) ?_
    step_keeps_options h
  rintro s u t ⟨hcfg, hpt⟩ ⟨hcfg', hpt'⟩
  exact ⟨hcfg'.trans hcfg, hpt'.trans hpt⟩

/-- Settles O1: each element of the launched state is the one R45 lists. -/
theorem launchLeavesTheResetValues : Obligations.LaunchLeavesTheResetValues := by
  unfold Obligations.LaunchLeavesTheResetValues
  intro cfg n rf0 mem0 ports
  have counters : ∀ c ∈ (State.launch cfg n rf0 mem0 ports).pt, c.val = 0 := by
    intro c hc
    rw [launch_pt] at hc
    rw [List.eq_of_mem_replicate hc]
    rfl
  exact ⟨rfl, rfl, rfl, rfl, rfl, List.length_replicate, counters, rfl, rfl, rfl, readReg_zero _, rfl⟩

/-- Settles O16: every access to a register tests for index 0 first. -/
theorem registerZeroIsHardWired : Obligations.RegisterZeroIsHardWired := by
  unfold Obligations.RegisterZeroIsHardWired
  intro s rf v
  exact ⟨readReg_zero rf, writeReg_zero rf v, fwdWB_zero s v, fwdsel_zero s, fwd_zero s v, decodeRead_zero s⟩

end Sys2Proof.Machine

/-! Memory (20_memory.md): what stops the model, when a store is performed, and how the bytes of an access make its
value. -/

namespace Sys2Proof.Machine

/-! ### Misaligned accesses (R66, 60_exceptions.md R303) -/

theorem fetchMisaligned_iff {s : State} :
    fetchMisaligned s = true ↔ s.stalls = false ∧ loadUse s = false ∧ s.pc.toNat % 4 ≠ 0 := by
  simp [fetchMisaligned, fetchIssues, State.stalls, aligned, Width.bytes, and_assoc]

theorem dataMisaligned_eq_some {s : State} {r : PortRequest} :
    dataMisaligned s = some r ↔ dportRequest s = some r ∧ r.addr.toNat % r.width.bytes ≠ 0 := by
  simp [dataMisaligned, Option.filter_eq_some_iff, PortRequest.aligned, aligned]

theorem accessesAligned_eq_false_iff {s : State} :
    s.accessesAligned = false ↔ fetchMisaligned s = true ∨ ∃ r, dataMisaligned s = some r := by
  rw [State.accessesAligned]
  cases fetchMisaligned s <;> cases dataMisaligned s <;> simp

/-- What holds of every cycle of a state, whatever the execute stage answers, holds of the bundle-driven cycle, of every
instruction's meaning and of the step. -/
theorem meanings_of_cycle {s : State} {P : Host.Outcome State Fault Refusal → Prop}
    (h : ∀ dec x, P (cycle dec s x)) (k : Collaborators) (i : Instr) :
    P (coreCycle k s) ∧ P (exec i s) ∧ P (step s) := by
  obtain ⟨x, hexec⟩ := exec_eq_cycle i s
  obtain ⟨y, hstep⟩ := step_eq_cycle s
  exact ⟨h _ _, hexec ▸ h _ x, hstep ▸ h _ y⟩

/-! ### The cycle of a store (R62, 45_memory_writeback.md R225) -/

theorem stalls_of_no_request {s : State} (h : dportRequest s = none) : s.stalls = false := by
  simp [State.stalls, memStall, h]

theorem stalls_of_request {s : State} {r : PortRequest} (h : dportRequest s = some r) :
    s.stalls = !s.ports.now.dReady := by
  simp [State.stalls, memStall, h]

theorem settledMem_of_no_request {s : State} (h : dportRequest s = none) : s.settledMem = s.mem := by
  rw [State.settledMem, h]

theorem settledMem_of_request {s : State} {r : PortRequest} (h : dportRequest s = some r) :
    s.settledMem = r.written s.cfg.endian s.mem := by
  rw [State.settledMem, h]

theorem written_of_store {r : PortRequest} (e : Endian) (m : Memory) (h : r.writeEnable = true) :
    r.written e m = memWrite e m r.addr r.width r.writeValue :=
  if_pos h

theorem written_of_no_store {r : PortRequest} (e : Endian) (m : Memory) (h : r.writeEnable = false) :
    r.written e m = m := by
  simp [PortRequest.written, h]

/-! ### Bytes and values (R65) -/

/-- A value's bytes are its digits to base 256, the least significant first. -/
theorem valueOf_toNat (bs : List Byte) :
    (valueOf bs).toNat = Nat.ofDigits 256 (bs.map BitVec.toNat) % 2 ^ 32 := by
  induction bs with
  | nil => rfl
  | cons b bs ih =>
    have disjoint : b.setWidth 32 &&& (valueOf bs <<< 8) = 0#32 := by
      ext i hi
      by_cases h8 : i < 8
      · simp [h8]
      · simp [BitVec.getLsbD_of_ge b i (by omega)]
    rw [valueOf, ← BitVec.add_eq_or_of_and_eq_zero _ _ disjoint, BitVec.toNat_add, BitVec.toNat_shiftLeft, ih,
      List.map_cons, Nat.ofDigits_cons, BitVec.toNat_setWidth, Nat.shiftLeft_eq]
    omega

/-- The bytes of an access are few enough for their value to be the sum itself. -/
theorem valueOf_toNat_of_length_le {bs : List Byte} (h : bs.length ≤ 4) :
    (valueOf bs).toNat = Nat.ofDigits 256 (bs.map BitVec.toNat) := by
  have digits : ∀ d ∈ bs.map BitVec.toNat, d < 256 := by
    intro d hd
    obtain ⟨b, -, rfl⟩ := List.mem_map.1 hd
    exact b.isLt
  have bound : Nat.ofDigits 256 (bs.map BitVec.toNat) < 2 ^ 32 :=
    calc Nat.ofDigits 256 (bs.map BitVec.toNat)
        < 256 ^ (bs.map BitVec.toNat).length := Nat.ofDigits_lt_base_pow_length (by decide) digits
      _ ≤ 256 ^ 4 := Nat.pow_le_pow_right (by decide) (by simpa using h)
      _ = 2 ^ 32 := by decide
  rw [valueOf_toNat, Nat.mod_eq_of_lt bound]

theorem ofDigits_bytesOf (n : Nat) (v : Word) :
    Nat.ofDigits 256 ((bytesOf n v).map BitVec.toNat) = v.toNat % 256 ^ n := by
  induction n generalizing v with
  | zero => simp [bytesOf, Nat.mod_one]
  | succ n ih =>
    calc Nat.ofDigits 256 ((bytesOf (n + 1) v).map BitVec.toNat)
        = v.toNat % 256 + 256 * (v.toNat / 256 % 256 ^ n) := by
          rw [bytesOf, List.map_cons, Nat.ofDigits_cons, ih]
          simp [Nat.shiftRight_eq_div_pow]
      _ = v.toNat % 256 ^ (n + 1) := by rw [pow_succ', Nat.mod_mul]

/-- The low `n` bytes of a value make its low `8n` bits. -/
theorem valueOf_bytesOf_toNat (n : Nat) (v : Word) : (valueOf (bytesOf n v)).toNat = v.toNat % 256 ^ n := by
  rw [valueOf_toNat, ofDigits_bytesOf]
  exact Nat.mod_eq_of_lt ((Nat.mod_le _ _).trans_lt v.isLt)

theorem ofDigits_map_range (f : Nat → Nat) (n : Nat) :
    Nat.ofDigits 256 ((List.range n).map f) = ((List.range n).map (fun j => f j * 256 ^ j)).sum := by
  induction n with
  | zero => rfl
  | succ n ih => simp [List.range_succ, Nat.ofDigits_append, ih, Nat.mul_comm]

/-- Turned round, the first byte weighs most. -/
theorem ofDigits_reverse_map_range (f : Nat → Nat) (n : Nat) :
    Nat.ofDigits 256 ((List.range n).map f).reverse =
      ((List.range n).map (fun j => f j * 256 ^ (n - 1 - j))).sum := by
  induction n generalizing f with
  | zero => rfl
  | succ n ih =>
    have weight (j : Nat) : n - 1 - j = n - (j + 1) := by omega
    rw [List.range_succ_eq_map, List.map_cons, List.reverse_cons, Nat.ofDigits_append, List.map_map,
      ih (f ∘ Nat.succ)]
    simp [Function.comp_def, weight, Nat.mul_comm, Nat.add_comm]

/-! ### Aligned reads (R65, R67) -/

theorem Width.bytes_le (w : Width) : w.bytes ≤ 4 := by
  cases w <;> decide

/-- The bytes of an aligned access lie at rising addresses, with no wrap. -/
theorem readBytes_of_aligned (m : Memory) {a : Word} {w : Width} (h : a.toNat % w.bytes = 0) :
    readBytes m a w.bytes = (List.range w.bytes).map (fun j => readByte m (a.toNat + j)) := by
  apply List.ext_getElem?
  intro j
  by_cases hj : j < w.bytes
  · rw [readBytes_getElem? m a hj, toNat_add_of_aligned h hj]
    simp [hj]
  · simp [hj]

/-- A read in either order is the digits of its bytes, turned into significance order. -/
theorem memRead_toNat (e : Endian) (m : Memory) (a : Word) (w : Width) :
    (memRead e m a w).toNat = Nat.ofDigits 256 ((inOrder e (readBytes m a w.bytes)).map BitVec.toNat) :=
  valueOf_toNat_of_length_le (by simpa using w.bytes_le)

/-- An aligned store's own bytes, read back, are the value's in the memory's order. -/
theorem readBytes_memWrite {m : Memory} (hm : m.wf = true) (e : Endian) {a : Word} {w : Width} (v : Word)
    (h : a.toNat % w.bytes = 0) :
    readBytes (memWrite e m a w v) a w.bytes = inOrder e (bytesOf w.bytes v) := by
  apply List.ext_getElem?
  intro j
  by_cases hj : j < w.bytes
  · rw [readBytes_getElem? _ a hj, toNat_add_of_aligned h hj, readByte_memWrite_inside hm e v h hj]
  · simp [hj]

theorem memRead_memWrite {m : Memory} (hm : m.wf = true) (e : Endian) {a : Word} {w : Width} (v : Word)
    (h : a.toNat % w.bytes = 0) : memRead e (memWrite e m a w v) a w = valueOf (bytesOf w.bytes v) := by
  rw [memRead, readBytes_memWrite hm e v h, inOrder_inOrder]

/-! ### The statements -/

/-- Settles O24: every meaning is a cycle, and a cycle looks at the two accesses alone. -/
theorem onlyMisalignedAccessesStop : Obligations.OnlyMisalignedAccessesStop := by
  unfold Obligations.OnlyMisalignedAccessesStop
  intro k i s
  simp only [← fetchMisaligned_iff, ← dataMisaligned_eq_some]
  refine ⟨accessesAligned_eq_false_iff, fun haligned => ?_, fun hfetch => ?_, fun hfetch r hdata => ?_⟩
  · exact meanings_of_cycle (P := fun o => ∃ t, o = .next t) (fun _ x => ⟨_, cycle_of_aligned x haligned⟩) k i
  · exact meanings_of_cycle (P := (· = .fault (.misalignedFetch s.pc)))
      (fun _ _ => cycle_eq_fault.2 (.inl ⟨hfetch, rfl⟩)) k i
  · have hfetch' : fetchMisaligned s = false := by simpa using hfetch
    exact meanings_of_cycle (P := (· = .fault (.misalignedData r.addr r.width.bytes)))
      (fun _ _ => cycle_eq_fault.2 (.inr ⟨hfetch', r, hdata, rfl⟩)) k i

/-- Settles O36, by the cycle's three cases: no access, a data stall, an access that answers ready. -/
theorem storesHappenWhenReady : Obligations.StoresHappenWhenReady := by
  unfold Obligations.StoresHappenWhenReady
  intro k s t hnext
  refine ⟨fun hnone => ?_, fun r hr hready => ?_, fun r hr hready => ?_⟩
  · rw [coreCycle_of_flow hnext (stalls_of_no_request hnone)]
    exact settledMem_of_no_request hnone
  · rw [coreCycle_of_stall hnext (by rw [stalls_of_request hr, hready]; rfl)]
    exact ⟨rfl, hr⟩
  · rw [coreCycle_of_flow hnext (by rw [stalls_of_request hr, hready]; rfl)]
    have hmem := settledMem_of_request hr
    exact ⟨rfl, fun hw => hmem.trans (written_of_no_store _ _ hw), fun hw => hmem.trans (written_of_store _ _ hw)⟩

/-- Settles O37: the stored bytes read back in order, whichever it is, and the others are outside the store. -/
theorem memoryReadsBackWhatWasWritten : Obligations.MemoryReadsBackWhatWasWritten := by
  unfold Obligations.MemoryReadsBackWhatWasWritten
  intro e m a w v hm ha
  refine ⟨?_, fun b hb => ?_, memWrite_wf e a w v hm⟩
  · rw [memRead_memWrite hm e v ha, valueOf_bytesOf_toNat]
  · refine readByte_memWrite_outside e a w v b fun j hj => ?_
    rw [toNat_add_of_aligned ha hj]
    exact hb j hj

/-- Settles O38: the bytes of an aligned read are the digits of its value, in the memory's order. -/
theorem readsAssembleBytes : Obligations.ReadsAssembleBytes := by
  unfold Obligations.ReadsAssembleBytes
  intro m a w ha
  simp only [memRead_toNat, readBytes_of_aligned m ha, inOrder, List.map_reverse, List.map_map]
  exact ⟨ofDigits_map_range _ _, ofDigits_reverse_map_range _ _⟩

end Sys2Proof.Machine

/-! Encoding (30_encoding.md): decoding and encoding invert each other, the table's rows and what the reference decoder
answers for them, inert words, immediates and targets. -/

namespace Sys2Proof

/-! ### Words and instructions (R86, R87, R97, R98) -/

/-- The word of an instruction decodes to it. -/
@[simp] theorem decodeWord_encode (i : Instr) : decodeWord (encode i) = some i := by
  cases i
  exacts [Laws.RoundTrip.sll .., Laws.RoundTrip.srl .., Laws.RoundTrip.sra .., Laws.RoundTrip.sllv ..,
    Laws.RoundTrip.srlv .., Laws.RoundTrip.srav .., Laws.RoundTrip.jr .., Laws.RoundTrip.jalr ..,
    Laws.RoundTrip.add .., Laws.RoundTrip.addu .., Laws.RoundTrip.sub .., Laws.RoundTrip.subu ..,
    Laws.RoundTrip.and .., Laws.RoundTrip.or .., Laws.RoundTrip.xor .., Laws.RoundTrip.nor ..,
    Laws.RoundTrip.slt .., Laws.RoundTrip.sltu .., Laws.RoundTrip.j .., Laws.RoundTrip.jal ..,
    Laws.RoundTrip.beq .., Laws.RoundTrip.bne .., Laws.RoundTrip.addi .., Laws.RoundTrip.addiu ..,
    Laws.RoundTrip.slti .., Laws.RoundTrip.sltiu .., Laws.RoundTrip.andi .., Laws.RoundTrip.ori ..,
    Laws.RoundTrip.xori .., Laws.RoundTrip.lui .., Laws.RoundTrip.lb .., Laws.RoundTrip.lh ..,
    Laws.RoundTrip.lw .., Laws.RoundTrip.sb .., Laws.RoundTrip.sh .., Laws.RoundTrip.sw ..]

section
variable {w : Word}

/-- A word with opcode 0 is its R-format fields. -/
theorem wordR_of_fields {f : BitVec 6} (hop : opcodeOf w = 0#6) (hf : functOf w = f) :
    wordR (rsOf w) (rtOf w) (rdOf w) (shamtOf w) f = w := by
  subst hf
  have hzero : w.toNat / 67108864 % 64 = 0 := by
    rw [← opcodeOf_toNat, hop]
    rfl
  apply BitVec.eq_of_toNat_eq
  rw [wordR_toNat, rsOf_toNat, rtOf_toNat, rdOf_toNat, shamtOf_toNat, functOf_toNat]
  have := w.isLt
  omega

/-- Any word is its opcode and its I-format fields. -/
theorem wordI_of_fields {op : BitVec 6} (hop : opcodeOf w = op) : wordI op (rsOf w) (rtOf w) (imm16Of w) = w := by
  subst hop
  apply BitVec.eq_of_toNat_eq
  rw [wordI_toNat, opcodeOf_toNat, rsOf_toNat, rtOf_toNat, imm16Of_toNat]
  have := w.isLt
  omega

/-- Any word is its opcode and its address field. -/
theorem wordJ_of_fields {op : BitVec 6} (hop : opcodeOf w = op) : wordJ op (addr26Of w) = w := by
  subst hop
  exact opcode_append_addr26 w

theorem encode_of_decodeRType {i : Instr} (hop : opcodeOf w = 0#6) (h : decodeRType w = some i) : encode i = w := by
  unfold decodeRType at h
  split at h
  case h_19 => cases h
  all_goals
    rename_i hf
    cases h
    exact wordR_of_fields hop (BitVec.eq_of_toNat_eq hf)

/-- A word that decodes to an instruction is that instruction's word: every bit of it is an operand or a key. -/
theorem encode_of_decodeWord {i : Instr} (h : decodeWord w = some i) : encode i = w := by
  unfold decodeWord at h
  split at h
  case h_1 hop => exact encode_of_decodeRType (BitVec.eq_of_toNat_eq hop) h
  case h_2 hop | h_3 hop =>
    cases h
    exact wordJ_of_fields (BitVec.eq_of_toNat_eq hop)
  case h_20 => cases h
  all_goals
    rename_i hop
    cases h
    exact wordI_of_fields (BitVec.eq_of_toNat_eq hop)

end

/-! ### Bytes and instructions (R85, 20_memory.md R65) -/

/-- Bytes decode to an instruction exactly when the first four are the bytes of a word that does. -/
theorem decode_eq_decoded {e : Endian} {bs rest : List Byte} {i : Instr} :
    decode e bs = .decoded i rest ↔
      ∃ l, l.length = 4 ∧ bs = l ++ rest ∧ decodeWord (valueOf (inOrder e l)) = some i := by
  constructor
  · intro h
    unfold decode at h
    split at h
    case h_1 b0 b1 b2 b3 rest' =>
      dsimp only at h
      split at h
      case h_1 j hj =>
        cases h
        exact ⟨[b0, b1, b2, b3], rfl, rfl, hj⟩
      case h_2 => cases h
    case h_2 => cases h
  · rintro ⟨l, hl, rfl, hi⟩
    obtain ⟨b0, b1, b2, b3, rfl⟩ := List.length_eq_four.1 hl
    simp only [List.cons_append, List.nil_append, decode, hi]

theorem valueOf_bytesOf (w : Word) : valueOf (bytesOf 4 w) = w := by
  apply BitVec.eq_of_toNat_eq
  rw [Machine.valueOf_bytesOf_toNat]
  exact Nat.mod_eq_of_lt w.isLt

/-- Four bytes are the digits of their value. -/
theorem bytesOf_valueOf {l : List Byte} (hl : l.length = 4) : bytesOf 4 (valueOf l) = l := by
  have digits (bs : List Byte) : ∀ d ∈ bs.map BitVec.toNat, d < 256 := by
    intro d hd
    obtain ⟨b, -, rfl⟩ := List.mem_map.1 hd
    exact b.isLt
  have hvalue : Nat.ofDigits 256 ((bytesOf 4 (valueOf l)).map BitVec.toNat) = Nat.ofDigits 256 (l.map BitVec.toNat) := by
    rw [Machine.ofDigits_bytesOf, ← Machine.valueOf_toNat_of_length_le hl.le]
    exact Nat.mod_eq_of_lt (valueOf l).isLt
  refine List.map_injective_iff.2 (fun _ _ => BitVec.eq_of_toNat_eq) ?_
  exact Nat.ofDigits_inj_of_len_eq (by decide) (by simp [hl]) (digits _) (digits l) hvalue

/-- Settles O9: the four bytes give back the word, and the word the instruction. -/
theorem decodeInvertsEncode : Obligations.DecodeInvertsEncode := by
  unfold Obligations.DecodeInvertsEncode
  intro e i rest
  refine decode_eq_decoded.2 ⟨encodeBytes e i, by simp [encodeBytes], rfl, ?_⟩
  rw [encodeBytes, Machine.inOrder_inOrder, valueOf_bytesOf, decodeWord_encode]

/-- Settles O10: the word decoded is the instruction's, and four bytes are those of their word. -/
theorem encodeInvertsDecode : Obligations.EncodeInvertsDecode := by
  unfold Obligations.EncodeInvertsDecode
  intro e bs rest i h
  obtain ⟨l, hl, rfl, hi⟩ := decode_eq_decoded.1 h
  rw [encodeBytes, encode_of_decodeWord hi, bytesOf_valueOf (by simp [hl]), Machine.inOrder_inOrder]

/-! ### The rows of the table (R97, R98, R99) -/

/-- A row matched on opcode 0 and `funct`. -/
def rTypeRow (mnemonic : String) (funct : BitVec 6) : OpcodeRow := ⟨mnemonic, 0xFC00003F#32, wordR 0#5 0#5 0#5 0#5 funct⟩

/-- A row matched on the opcode alone. -/
def otherRow (mnemonic : String) (opcode : BitVec 6) : OpcodeRow := ⟨mnemonic, 0xFC000000#32, wordJ opcode 0#26⟩

/-- The `funct` of each row with opcode 0. -/
def functKeys : List (String × BitVec 6) :=
  [("sll", 0x00#6), ("srl", 0x02#6), ("sra", 0x03#6), ("sllv", 0x04#6), ("srlv", 0x06#6), ("srav", 0x07#6),
   ("jr", 0x08#6), ("jalr", 0x09#6), ("add", 0x20#6), ("addu", 0x21#6), ("sub", 0x22#6), ("subu", 0x23#6),
   ("and", 0x24#6), ("or", 0x25#6), ("xor", 0x26#6), ("nor", 0x27#6), ("slt", 0x2A#6), ("sltu", 0x2B#6)]

/-- The opcode of each other row. -/
def opcodeKeys : List (String × BitVec 6) :=
  [("j", 0x02#6), ("jal", 0x03#6), ("beq", 0x04#6), ("bne", 0x05#6), ("addi", 0x08#6), ("addiu", 0x09#6),
   ("slti", 0x0A#6), ("sltiu", 0x0B#6), ("andi", 0x0C#6), ("ori", 0x0D#6), ("xori", 0x0E#6), ("lui", 0x0F#6),
   ("lb", 0x20#6), ("lh", 0x21#6), ("lw", 0x23#6), ("sb", 0x28#6), ("sh", 0x29#6), ("sw", 0x2B#6)]

/-- The table is the rows of these keys. -/
theorem mem_opcodeRows {r : OpcodeRow} :
    r ∈ opcodeRows ↔
      (∃ m f, (m, f) ∈ functKeys ∧ rTypeRow m f = r) ∨ ∃ m op, (m, op) ∈ opcodeKeys ∧ otherRow m op = r := by
  have hrows : opcodeRows =
      functKeys.map (fun k => rTypeRow k.1 k.2) ++ opcodeKeys.map (fun k => otherRow k.1 k.2) := by decide
  simp only [hrows, List.mem_append, List.mem_map, Prod.exists]

/-- No two rows have the same mnemonic. -/
theorem opcodeRows_mnemonic_nodup : (opcodeRows.map OpcodeRow.mnemonic).Nodup := by decide

theorem opcodeOf_and (v w : Word) : opcodeOf (v &&& w) = opcodeOf v &&& opcodeOf w := BitVec.extractLsb'_and

theorem functOf_and (v w : Word) : functOf (v &&& w) = functOf v &&& functOf w := BitVec.extractLsb'_and

section
variable {m : String} {w : Word}

/-- The mask of a row with opcode 0 keeps an R-format word's opcode and `funct`. -/
theorem wordR_and_mask (rs rt rd : Reg) (sa : BitVec 5) (f : BitVec 6) :
    wordR rs rt rd sa f &&& 0xFC00003F#32 = wordR 0#5 0#5 0#5 0#5 f :=
  calc (0#6 ++ rs ++ rt ++ rd ++ sa ++ f : Word) &&& (BitVec.allOnes 6 ++ 0#5 ++ 0#5 ++ 0#5 ++ 0#5 ++ BitVec.allOnes 6)
      = 0#6 ++ 0#5 ++ 0#5 ++ 0#5 ++ 0#5 ++ f := by simp only [BitVec.and_append, BitVec.and_zero, BitVec.and_allOnes]

/-- A word meets a row with opcode 0 exactly when it has that opcode and the row's `funct`. -/
theorem rTypeRow_matches {f : BitVec 6} :
    (rTypeRow m f).matches w = true ↔ opcodeOf w = 0#6 ∧ functOf w = f := by
  have hop : opcodeOf 0xFC00003F#32 = BitVec.allOnes 6 := by decide
  have hfunct : functOf 0xFC00003F#32 = BitVec.allOnes 6 := by decide
  rw [OpcodeRow.matches, beq_iff_eq, rTypeRow]
  constructor
  · intro h
    have hopcodes := congrArg opcodeOf h
    have hfuncts := congrArg functOf h
    rw [opcodeOf_and, hop, BitVec.and_allOnes, opcodeOf_wordR] at hopcodes
    rw [functOf_and, hfunct, BitVec.and_allOnes, functOf_wordR] at hfuncts
    exact ⟨hopcodes, hfuncts⟩
  · rintro ⟨hop, hf⟩
    rw [← wordR_of_fields hop hf, wordR_and_mask]

/-- A word meets any other row exactly when it has the row's opcode. -/
theorem otherRow_matches {op : BitVec 6} : (otherRow m op).matches w = true ↔ opcodeOf w = op := by
  have hmask : wordJ (opcodeOf w) (addr26Of w) &&& wordJ (BitVec.allOnes 6) 0#26 = wordJ (opcodeOf w) 0#26 := by
    rw [wordJ, wordJ, BitVec.and_append, BitVec.and_allOnes, BitVec.and_zero, wordJ]
  have hword : w &&& 0xFC000000#32 = wordJ (opcodeOf w) 0#26 := by
    rw [← hmask, wordJ_of_fields rfl]
    rfl
  rw [OpcodeRow.matches, beq_iff_eq, otherRow, hword]
  exact BitVec.append_left_inj _

end

/-! ### What the decoder answers for a row -/

/-- A word answers as its instruction does. -/
theorem row_of_encode {w : Word} {i : Instr} (h : encode i = w) :
    (decodeWord w).map Instr.mnemonic = some i.mnemonic ∧ referenceDec w = controlOf i := by
  subst h
  rw [referenceDec, decodeWord_encode]
  exact ⟨rfl, rfl⟩

/-- Settles O5: with the opcode and a row's `funct`, the word is the row's instruction with the word's own fields. -/
theorem rTypeRowsHaveTheirBundles : Obligations.RTypeRowsHaveTheirBundles := by
  unfold Obligations.RTypeRowsHaveTheirBundles
  intro w hop
  have row {f : BitVec 6} (mk : Reg → Reg → Reg → BitVec 5 → Instr)
      (hmk : encode (mk (rsOf w) (rtOf w) (rdOf w) (shamtOf w)) = wordR (rsOf w) (rtOf w) (rdOf w) (shamtOf w) f)
      (hf : functOf w = f) :=
    row_of_encode (hmk.trans (wordR_of_fields hop hf))
  exact ⟨row .sll rfl, row .srl rfl, row .sra rfl, row .sllv rfl, row .srlv rfl, row .srav rfl, row .jr rfl,
    row .jalr rfl, row .add rfl, row .addu rfl, row .sub rfl, row .subu rfl, row .and rfl, row .or rfl, row .xor rfl,
    row .nor rfl, row .slt rfl, row .sltu rfl⟩

/-- Settles O6: with a row's opcode, the word is the row's instruction with the word's own fields. -/
theorem otherRowsHaveTheirBundles : Obligations.OtherRowsHaveTheirBundles := by
  unfold Obligations.OtherRowsHaveTheirBundles
  intro w
  have jump {op : BitVec 6} (mk : BitVec 26 → Instr) (hmk : encode (mk (addr26Of w)) = wordJ op (addr26Of w))
      (hop : opcodeOf w = op) :=
    row_of_encode (hmk.trans (wordJ_of_fields hop))
  have imm {op : BitVec 6} (mk : Reg → Reg → BitVec 16 → Instr)
      (hmk : encode (mk (rsOf w) (rtOf w) (imm16Of w)) = wordI op (rsOf w) (rtOf w) (imm16Of w))
      (hop : opcodeOf w = op) :=
    row_of_encode (hmk.trans (wordI_of_fields hop))
  exact ⟨jump .j rfl, jump .jal rfl, imm .beq rfl, imm .bne rfl, imm .addi rfl, imm .addiu rfl, imm .slti rfl,
    imm .sltiu rfl, imm .andi rfl, imm .ori rfl, imm .xori rfl, imm .lui rfl, imm .lb rfl, imm .lh rfl, imm .lw rfl,
    imm .sb rfl, imm .sh rfl, imm .sw rfl⟩

/-- A word that decodes has the key of its instruction's row. -/
theorem key_of_decodeWord {w : Word} {i : Instr} (h : decodeWord w = some i) :
    (opcodeOf w = 0#6 ∧ (i.mnemonic, functOf w) ∈ functKeys) ∨ (i.mnemonic, opcodeOf w) ∈ opcodeKeys := by
  rw [← encode_of_decodeWord h]
  cases i <;> simp [encode, Instr.mnemonic, functKeys, opcodeKeys]

/-- A word with opcode 0 and a row's `funct` has the row's mnemonic. -/
theorem mnemonic_of_functKey {w : Word} {m : String} {f : BitVec 6} (hop : opcodeOf w = 0#6) (hf : functOf w = f)
    (h : (m, f) ∈ functKeys) : (decodeWord w).map Instr.mnemonic = some m := by
  have rows := rTypeRowsHaveTheirBundles w hop
  fin_cases h <;> simp [rows, hf]

/-- A word with any other row's opcode has the row's mnemonic. -/
theorem mnemonic_of_opcodeKey {w : Word} {m : String} {op : BitVec 6} (hop : opcodeOf w = op)
    (h : (m, op) ∈ opcodeKeys) : (decodeWord w).map Instr.mnemonic = some m := by
  have rows := otherRowsHaveTheirBundles w
  fin_cases h <;> simp [rows, hop]

/-- A word that meets a row has the row's mnemonic. -/
theorem mnemonic_of_matches {w : Word} {r : OpcodeRow} (hr : r ∈ opcodeRows) (h : r.matches w = true) :
    (decodeWord w).map Instr.mnemonic = some r.mnemonic := by
  obtain ⟨m, f, hkey, rfl⟩ | ⟨m, op, hkey, rfl⟩ := mem_opcodeRows.1 hr
  · obtain ⟨hop, hf⟩ := rTypeRow_matches.1 h
    exact mnemonic_of_functKey hop hf hkey
  · exact mnemonic_of_opcodeKey (otherRow_matches.1 h) hkey

/-- A word that decodes meets the row of its instruction. -/
theorem exists_row_of_decodeWord {w : Word} {i : Instr} (h : decodeWord w = some i) :
    ∃ r ∈ opcodeRows, r.mnemonic = i.mnemonic ∧ r.matches w = true := by
  obtain ⟨hop, hkey⟩ | hkey := key_of_decodeWord h
  · exact ⟨_, mem_opcodeRows.2 (.inl ⟨_, _, hkey, rfl⟩), rfl, rTypeRow_matches.2 ⟨hop, rfl⟩⟩
  · exact ⟨_, mem_opcodeRows.2 (.inr ⟨_, _, hkey, rfl⟩), rfl, otherRow_matches.2 rfl⟩

/-- The decoder answers exactly the row that the word meets. -/
theorem matches_iff_mnemonic {w : Word} {r : OpcodeRow} (hr : r ∈ opcodeRows) :
    r.matches w = true ↔ (decodeWord w).map Instr.mnemonic = some r.mnemonic := by
  refine ⟨mnemonic_of_matches hr, fun h => ?_⟩
  obtain ⟨i, hi, him⟩ := Option.map_eq_some_iff.1 h
  obtain ⟨q, hq, hqm, hmatch⟩ := exists_row_of_decodeWord hi
  have hqr : q = r := List.inj_on_of_nodup_map opcodeRows_mnemonic_nodup hq hr (hqm.trans him)
  exact hqr ▸ hmatch

theorem no_match_iff_decodeWord_eq_none {w : Word} :
    (∀ r ∈ opcodeRows, r.matches w = false) ↔ decodeWord w = none := by
  constructor
  · intro hno
    refine Option.eq_none_iff_forall_ne_some.2 fun i hi => ?_
    obtain ⟨r, hr, -, hmatch⟩ := exists_row_of_decodeWord hi
    simp [hno r hr] at hmatch
  · intro hnone r hr
    simpa [hnone] using mt (matches_iff_mnemonic (w := w) hr).1

/-- Settles O8: two rows that one word meets have its mnemonic, and no two rows share one. -/
theorem everyWordMeetsOneRowOrNone : Obligations.EveryWordMeetsOneRowOrNone := by
  unfold Obligations.EveryWordMeetsOneRowOrNone
  refine ⟨fun w r hr => matches_iff_mnemonic hr, fun w => no_match_iff_decodeWord_eq_none, ?_⟩
  refine (List.pairwise_map.1 opcodeRows_mnemonic_nodup).imp_of_mem ?_
  rintro r q hr hq hne w ⟨hrw, hqw⟩
  have hmnemonic := (mnemonic_of_matches hr hrw).symm.trans (mnemonic_of_matches hq hqw)
  exact hne (Option.some.inj hmnemonic)

/-! ### Inert words (R94, R95) -/

theorem referenceDec_of_none {w : Word} (h : decodeWord w = none) : referenceDec w = Ctrl.inert := by
  rw [referenceDec, h]

/-- A word without a key decodes to none. -/
theorem decodeWord_eq_none_of_keys {w : Word} (hf : opcodeOf w = 0#6 → ∀ k ∈ functKeys, k.2 ≠ functOf w)
    (hop : ∀ k ∈ opcodeKeys, k.2 ≠ opcodeOf w) : decodeWord w = none := by
  refine Option.eq_none_iff_forall_ne_some.2 fun i hi => ?_
  obtain ⟨hzero, hkey⟩ | hkey := key_of_decodeWord hi
  · exact hf hzero _ hkey rfl
  · exact hop _ hkey rfl

/-- The opcodes that R95 names are neither 0 nor a row's. -/
theorem named_opcode_not_key : ∀ op : BitVec 6,
    op.toNat ∈ [0x01, 0x06, 0x07, 0x10, 0x11, 0x12, 0x13, 0x22, 0x24, 0x25, 0x26, 0x2A, 0x2E] ∨ 0x30 ≤ op.toNat →
      op ≠ 0#6 ∧ ∀ k ∈ opcodeKeys, k.2 ≠ op := by
  decide

/-- The functs that R95 names, and all those not listed, are no row's. -/
theorem named_funct_not_key : ∀ f : BitVec 6,
    f.toNat ∈ [0x0C, 0x0D, 0x10, 0x11, 0x12, 0x13, 0x18, 0x19, 0x1A, 0x1B] ∨
      f.toNat ∉ [0x00, 0x02, 0x03, 0x04, 0x06, 0x07, 0x08, 0x09, 0x20, 0x21, 0x22, 0x23, 0x24, 0x25, 0x26, 0x27, 0x2A, 0x2B] →
      ∀ k ∈ functKeys, k.2 ≠ f := by
  decide

/-- Settles O7: what R95 names is no row's key. -/
theorem unlistedEncodingsAreInert : Obligations.UnlistedEncodingsAreInert := by
  unfold Obligations.UnlistedEncodingsAreInert
  intro w
  refine ⟨no_match_iff_decodeWord_eq_none.1, referenceDec_of_none, fun h => ?_, fun hop h => ?_⟩
  · obtain ⟨hzero, hkeys⟩ := named_opcode_not_key _ h
    exact decodeWord_eq_none_of_keys (fun hop => absurd hop hzero) hkeys
  · exact decodeWord_eq_none_of_keys (fun _ => named_funct_not_key _ h) (hop ▸ by decide)

/-- Settles O3: each word, written out bit by bit, is run through the decoder. -/
theorem sampleWordsDecode : Obligations.SampleWordsDecode := by
  unfold Obligations.SampleWordsDecode
  decide

end Sys2Proof

namespace Sys2Proof.Machine

/-! ### Decode (R86, 42_decode_hazard.md R158 to R164) -/

theorem decodeOut_of_invalid (dec : Word → Ctrl) {s : State} (h : s.fd.valid = false) : decodeOut dec s = .bubble := by
  simp [decodeOut, h]

theorem decodeOut_of_valid (dec : Word → Ctrl) {s : State} (h : s.fd.valid = true) :
    decodeOut dec s = .ofWord s.fd.word (decodeRead s (rsOf s.fd.word)) (decodeRead s (rtOf s.fd.word))
      (dec s.fd.word) s.fd.pc s.fd.predTaken := by
  simp [decodeOut, h]

/-- What decode reads for an index: the value the word in MW writes to it, or else the register. -/
theorem decodeRead_eq (s : State) (r : Reg) :
    decodeRead s r =
      if r ≠ 0#5 ∧ s.mw.valid = true ∧ s.mw.ctrl.regWrite = true ∧ s.mw.dest = r then s.mw.value
      else readReg s.rf r := by
  simp [decodeRead, fwdWB, mwWrites, and_assoc]

/-- Settles O4: each field is its slice of the word, as a number. -/
theorem decodeSlicesEveryWord : Obligations.DecodeSlicesEveryWord := by
  unfold Obligations.DecodeSlicesEveryWord
  intro dec s
  refine ⟨decodeOut_of_invalid dec, fun hvalid => ?_⟩
  have hopcode : (opcodeOf s.fd.word).toNat = s.fd.word.toNat / 2 ^ 26 := by
    rw [opcodeOf_toNat]
    have := s.fd.word.isLt
    omega
  rw [decodeOut_of_valid dec hvalid]
  exact ⟨rfl, hopcode, rsOf_toNat _, rtOf_toNat _, rdOf_toNat _, shamtOf_toNat _, functOf_toNat _, imm16Of_toNat _,
    addr26Of_toNat _, decodeRead_eq s _, decodeRead_eq s _, rfl, rfl, rfl⟩

/-! ### Immediates and targets (R90 to R92) -/

theorem executeStage_of_valid (k : Collaborators) {s : State} (h : s.de.valid = true) :
    executeStage k s = ⟨executeEm k s, executeRedirect k s, executePtUpd k s⟩ := by
  simp [executeStage, h]

theorem zext16_toNat (v : BitVec 16) : (zext16 v).toNat = v.toNat := by
  rw [zext16, BitVec.toNat_setWidth_of_le (by decide)]

/-- Sign extension adds 2^32 - 2^16 to the negative numbers. -/
theorem sext16_toNat (v : BitVec 16) :
    (sext16 v).toNat = if v.toNat < 2 ^ 15 then v.toNat else v.toNat + (2 ^ 32 - 2 ^ 16) := by
  rw [sext16, BitVec.toNat_signExtend, BitVec.toNat_setWidth_of_le (by decide), BitVec.msb_eq_decide]
  obtain h | h := Nat.lt_or_ge v.toNat 32768
  · simp [h, Nat.not_le.2 h]
  · simp [h, Nat.not_lt.2 h]

theorem extendImm_toNat (z : Bool) (v : BitVec 16) :
    (extendImm z v).toNat = if z = true ∨ v.toNat < 2 ^ 15 then v.toNat else v.toNat + (2 ^ 32 - 2 ^ 16) := by
  cases z
  · simpa [extendImm] using sext16_toNat v
  · simpa [extendImm] using zext16_toNat v

/-- Settles O11: execute latches the extended immediate, and `alu_src` selects it. -/
theorem immediatesAreExtendedByZext : Obligations.ImmediatesAreExtendedByZext := by
  unfold Obligations.ImmediatesAreExtendedByZext
  intro k s hvalid
  rw [executeStage_of_valid k hvalid]
  exact ⟨extendImm_toNat _ _, fun _ => rfl⟩

theorem btarget_eq_ofInt (pc : Word) (imm : BitVec 16) :
    btarget pc imm = BitVec.ofInt 32 (pc.toNat + 4 + 4 * imm.toInt) := by
  have hpc : BitVec.ofInt 32 (pc.toNat : Int) = pc := by simp
  have hshift : sext16 imm <<< 2 = BitVec.ofInt 32 (4 * imm.toInt) := by
    rw [BitVec.shiftLeft_eq_mul_twoPow, BitVec.ofInt_mul, BitVec.mul_comm]
    rfl
  rw [btarget, hshift, BitVec.ofInt_add, BitVec.ofInt_add, hpc]
  rfl

/-- Settles O12: the displacement is four times a 16-bit signed number. -/
theorem branchTargetIsRelative : Obligations.BranchTargetIsRelative := by
  unfold Obligations.BranchTargetIsRelative
  intro pc imm
  have hlow : -2 ^ 15 ≤ imm.toInt := imm.le_toInt
  have hhigh : imm.toInt < 2 ^ 15 := imm.toInt_lt
  exact ⟨btarget_eq_ofInt pc imm, by omega, by omega⟩

/-- A jump's target is the concatenation of the pc's top 4 bits, the address field and two zero bits. -/
theorem jtarget_eq_append (pc : Word) (addr : BitVec 26) : jtarget pc addr = pc.extractLsb' 28 4 ++ (addr ++ 0#2) := by
  have hpc : (pc.extractLsb' 28 4 ++ pc.extractLsb' 0 28 : Word) = pc := 
    (BitVec.extractLsb'_append_extractLsb'_eq_extractLsb' rfl).trans BitVec.extractLsb'_eq_self
  have haddr : addr.setWidth 32 <<< 2 = (0#4 ++ (addr ++ 0#2) : Word) := by
    have h : (0#4 ++ (addr ++ 0#2)).toNat = addr.toNat * 2 ^ 2 := by
      simp only [toNat_append_mul]
      simp
    refine BitVec.eq_of_toNat_eq (Eq.trans ?_ h.symm)
    rw [BitVec.toNat_shiftLeft, BitVec.toNat_setWidth, Nat.shiftLeft_eq]
    have := addr.isLt
    omega
  calc jtarget pc addr
      = (pc.extractLsb' 28 4 ++ pc.extractLsb' 0 28 &&& BitVec.allOnes 4 ++ 0#28) ||| (0#4 ++ (addr ++ 0#2)) := by
        rw [jtarget, haddr, hpc]
        rfl
    _ = pc.extractLsb' 28 4 ++ (addr ++ 0#2) := by
        simp only [BitVec.and_append, BitVec.or_append, BitVec.and_allOnes, BitVec.and_zero, BitVec.or_zero, BitVec.zero_or]

theorem jtarget_toNat (pc : Word) (addr : BitVec 26) :
    (jtarget pc addr).toNat = pc.toNat / 2 ^ 28 * 2 ^ 28 + addr.toNat * 4 := by
  have h : (pc.extractLsb' 28 4 ++ (addr ++ 0#2)).toNat = pc.toNat / 2 ^ 28 % 2 ^ 4 * 2 ^ 28 + addr.toNat * 2 ^ 2 := by
    simp only [toNat_append_mul, field_toNat]
    simp
  rw [jtarget_eq_append]
  refine h.trans ?_
  have := pc.isLt
  omega

/-- Settles O13: the two targets differ exactly when adding 4 carries into the top 4 bits. -/
theorem jumpTargetIsConcatenated : Obligations.JumpTargetIsConcatenated := by
  unfold Obligations.JumpTargetIsConcatenated
  intro pc addr
  refine ⟨jtarget_toNat pc addr, fun halign => ?_⟩
  have hnext : (pc + 4#32).toNat = (pc.toNat + 4) % 2 ^ 32 := by simp
  rw [Ne, ← BitVec.toNat_inj, jtarget_toNat, jtarget_toNat, hnext]
  have := pc.isLt
  omega

/-! ### A flowing cycle -/

/-- In a cycle without a data stall the instruction in execute moves on, and the two older ones have their effects. -/
theorem advances_of_flow {k : Collaborators} {s t : State} (h : coreCycle k s = .next t) (hs : s.stalls = false)
    (hvalid : s.de.valid = true) : s.Advances t := by
  rw [coreCycle_of_flow h hs, executeStage, if_pos hvalid]
  exact ⟨rfl, ⟨rfl, rfl, rfl⟩, rfl, rfl, rfl, rfl, rfl⟩

/-- The registers observed after a cycle that advances are those before, with the instruction's own write done. -/
theorem State.Advances.settledRf_eq {s t : State} (h : s.Advances t) :
    t.settledRf = writeBack (memoryOut t.em (answers t).rData) s.settledRf := by
  rw [State.settledRf, h.writeback, h.registers, State.settledRf]

/-- Without a redirect, the next word to execute is the oldest one not yet past decode, whether the front end stalls, hits
or misses. -/
theorem nextPc_of_no_redirect {k : Collaborators} {s t : State} (h : coreCycle k s = .next t) (hs : s.stalls = false)
    (hr : (executeStage k s).redirect = none) : t.nextPc = s.fromFetch := by
  rw [coreCycle_of_flow h hs]
  simp only [State.nextPc, State.fromFetch, advanced_pc, advanced_fd, advanced_de, frontEnd, hr]
  cases hf : s.fd.valid <;> cases loadUse s <;> cases (answers s).iReady <;> simp [hf, decodeOut, fetchOut]

/-- After a step without a data stall MW holds what was in EM. -/
theorem mw_of_step {s t : State} (h : step s = .next t) (hs : s.stalls = false) :
    t.mw = memoryOut s.em (answers s).rData := by
  obtain ⟨-, x, rfl⟩ := step_eq_next h
  rw [cycleNext_of_flow _ _ _ hs]
  rfl

/-! ### Inert bundles (R94, 46_instructions.md R283) -/

/-- In a reachable state DE has the bundle of its word. -/
theorem State.Inv.de_ctrl {s : State} (h : s.Inv) (hvalid : s.de.valid = true) : s.de.ctrl = referenceDec s.de.word := by
  have hcoherent := h.deCoherent hvalid
  rw [DecodeExecute.coherent, beq_iff_eq] at hcoherent
  exact congrArg DecodeExecute.ctrl hcoherent

section
variable {s : State}

theorem dportRequest_of_inert (h : s.em.ctrl = Ctrl.inert) : dportRequest s = none := by
  simp [dportRequest, h, Ctrl.inert]

/-- An inert instruction in execute neither redirects nor trains the predictor. -/
theorem executeStage_of_inert (k : Collaborators) (hvalid : s.de.valid = true) (h : s.de.ctrl = Ctrl.inert) :
    executeStage k s = { em := executeEm k s, redirect := none, ptUpd := none } := by
  simp [executeStage, executeRedirect, executePtUpd, isJump, isBranch, hvalid, h, Ctrl.inert]

/-- What an inert instruction leaves in MW writes no register. -/
theorem writeBack_memoryOut_of_inert {em : ExecuteMemory} (h : em.ctrl = Ctrl.inert) (v : Word) (rf : RegFile) :
    writeBack (memoryOut em v) rf = rf := by
  cases hv : em.valid <;> simp [writeBack, memoryOut, hv, h, Ctrl.inert]

/-- An inert word was not predicted taken, so the next word fetched is the one after it. -/
theorem State.Inv.fromFetch_of_inert (hinv : s.Inv) (hvalid : s.de.valid = true) (h : s.de.ctrl = Ctrl.inert) :
    s.fromFetch = s.de.pc + 4#32 := by
  have hpred : s.de.predTaken = false := by simpa [h, Ctrl.inert] using mt hinv.dePredicted
  rw [hinv.onPath.fromDe hvalid, DecodeExecute.successor, hpred]
  rfl

/-- An inert word runs by its bundle. -/
theorem step_of_inert (h : decodeWord s.de.word = none) : step s = coreCycle referenceCfg s := by
  simp [step, inExecute, h]

/-- An inert instruction in EM moves to MW, writes nothing, and retires in the next cycle without a data stall. -/
theorem retires_of_inert {u : State} (hvalid : s.em.valid = true) (h : s.em.ctrl = Ctrl.inert)
    (hu : step s = .next u) :
    u.mw.valid = true ∧ u.mw.pc = s.em.pc ∧ u.mw.ctrl.regWrite = false ∧
      (u.stalls = false → retires u u.ports.now.dReady = some s.em.pc) := by
  have hmw := mw_of_step hu (stalls_of_no_request (dportRequest_of_inert h))
  rw [memoryOut, if_pos hvalid] at hmw
  rw [hmw]
  refine ⟨rfl, rfl, by simp [h, Ctrl.inert], fun hs => ?_⟩
  rw [State.stalls] at hs
  simp [retires, hs, hmw]

end

/-- Settles O48: the cycle is the bundle-driven one, and each effect of the all-zero bundle is none. -/
theorem inertWordsHaveNoEffect : Obligations.InertWordsHaveNoEffect := by
  unfold Obligations.InertWordsHaveNoEffect
  intro s hinv hflows hvalid hnone
  obtain ⟨haligned, hstalls⟩ := flows_iff.1 hflows
  have hinert : s.de.ctrl = Ctrl.inert := (hinv.de_ctrl hvalid).trans (referenceDec_of_none hnone)
  have hstage := executeStage_of_inert referenceCfg hvalid hinert
  have hredirects : s.redirects = none := by rw [State.redirects, hstage]
  obtain ⟨t, hstep⟩ := step_goes_on haligned
  have hcycle : coreCycle referenceCfg s = .next t := (step_of_inert hnone).symm.trans hstep
  have hadvances := advances_of_flow hcycle hstalls hvalid
  obtain ⟨hemValid, hemPc, hemCtrl⟩ := hadvances.moved
  have htInert : t.em.ctrl = Ctrl.inert := hemCtrl.trans hinert
  have hrequest := dportRequest_of_inert htInert
  refine ⟨t, hstep, hadvances, fun r => ?_, fun a => ?_, ?_, ?_, hredirects, hrequest, fun u hu => ?_⟩
  · rw [hadvances.settledRf_eq, writeBack_memoryOut_of_inert htInert]
  · rw [settledMem_of_no_request hrequest, hadvances.memory]
  · rw [coreCycle_of_flow hcycle hstalls, hstage]
    rfl
  · rw [nextPc_of_no_redirect hcycle hstalls hredirects, hinv.fromFetch_of_inert hvalid hinert]
  · exact hemPc ▸ retires_of_inert hemValid htInert hu

end Sys2Proof.Machine

/-! The cycle (40_cycle.md): the meanings of the 36 instructions are the bundle-driven cycle, the next-state table, the
wait counters, data misses, and what becomes of the settled view. -/

namespace Sys2Proof.Machine

/-! ### A word in execute under its bundle (43_execute_forwarding.md R181 to R186) -/

/-- DE holds the word `w` under the bundle `c`, whatever its operand values, pc and prediction are. -/
def DecodeExecute.Holds (d : DecodeExecute) (w : Word) (c : Ctrl) : Prop :=
  d = .ofWord w d.rsVal d.rtVal c d.pc d.predTaken

/-- The instruction in execute is there as its own word, under its own bundle. -/
theorem holds_of_inExecute {d : DecodeExecute} {i : Instr} (h : inExecute d = some i) :
    d.Holds (encode i) (controlOf i) := by
  obtain ⟨hd, hi⟩ := inExecute_eq_some.1 h
  rwa [encode_of_decodeWord hi]

namespace DecodeExecute.Holds
variable {d : DecodeExecute} {w : Word} {c : Ctrl} (h : d.Holds w c)
include h

theorem valid : d.valid = true := congrArg DecodeExecute.valid h
theorem opcode : d.opcode = opcodeOf w := congrArg DecodeExecute.opcode h
theorem rs : d.rs = rsOf w := congrArg DecodeExecute.rs h
theorem rt : d.rt = rtOf w := congrArg DecodeExecute.rt h
theorem rd : d.rd = rdOf w := congrArg DecodeExecute.rd h
theorem shamt : d.shamt = shamtOf w := congrArg DecodeExecute.shamt h
theorem funct : d.funct = functOf w := congrArg DecodeExecute.funct h
theorem imm16 : d.imm16 = imm16Of w := congrArg DecodeExecute.imm16 h
theorem addr26 : d.addr26 = addr26Of w := congrArg DecodeExecute.addr26 h
theorem ctrl : d.ctrl = c := congrArg DecodeExecute.ctrl h

end DecodeExecute.Holds

/-- What the reference Functional Unit computes for the word `w` under the bundle `c` (R184, R190). -/
def fuResult (s : State) (w : Word) (c : Ctrl) : Word :=
  aluResult c.aluOp (functOf w) (opcodeOf w) (opA c.shift (shamtOf w) (operandA s (rsOf w)))
    (opB c.aluSrc (extendImm c.zext (imm16Of w)) (operandB s (rtOf w)))

section
variable {s : State} {w : Word} {c : Ctrl} (h : s.de.Holds w c)
include h

theorem fuCall_of_holds : fuCall referenceCfg s = (fuResult s w c, zeroFlag (fuResult s w c)) := by
  simp only [fuCall, h.opcode, h.rs, h.rt, h.shamt, h.funct, h.imm16, h.ctrl]
  rfl

/-- What the word latches in EM: the FU's result, or a link. -/
theorem executeEm_of_holds : executeEm referenceCfg s =
    emOut s c (rtOf w) (rdOf w) (imm16Of w) (fuResult s w c) (if c.link then s.de.pc + 8#32 else fuResult s w c) := by
  simp only [executeEm, fuCall_of_holds h, h.rt, h.rd, h.imm16, h.ctrl]
  rfl

/-- The cycle of a word that transfers no control. -/
theorem coreCycle_of_plain (hjump : isJump c = false) (hbranch : isBranch c = false) (hlink : c.link = false) :
    coreCycle referenceCfg s =
      runPlain s (emOut s c (rtOf w) (rdOf w) (imm16Of w) (fuResult s w c) (fuResult s w c)) := by
  have hredirect : executeRedirect referenceCfg s = none := by simp [executeRedirect, h.ctrl, hjump, hbranch]
  have hupd : executePtUpd referenceCfg s = none := by simp [executePtUpd, h.ctrl, hbranch]
  rw [coreCycle, executeStage_of_valid _ h.valid, executeEm_of_holds h, hredirect, hupd, hlink]
  rfl

/-- The cycle of a jump (44_control_transfer.md R202). -/
theorem coreCycle_of_jump (hjump : isJump c = true) :
    coreCycle referenceCfg s =
      runJump s
        (emOut s c (rtOf w) (rdOf w) (imm16Of w) (fuResult s w c) (if c.link then s.de.pc + 8#32 else fuResult s w c))
        (if c.jr then operandA s (rsOf w) else jtarget s.de.pc (addr26Of w)) := by
  have hredirect : executeRedirect referenceCfg s =
      some (if c.jr then operandA s (rsOf w) else jtarget s.de.pc (addr26Of w)) := by
    simp [executeRedirect, h.ctrl, h.rs, h.addr26, hjump]
  have hupd : executePtUpd referenceCfg s = none := by simp [executePtUpd, h.ctrl, isBranch, hjump]
  rw [coreCycle, executeStage_of_valid _ h.valid, executeEm_of_holds h, hredirect, hupd]
  rfl

/-- The cycle of a conditional branch (R205, R210). -/
theorem coreCycle_of_branch (hbranch : isBranch c = true) (hlink : c.link = false) :
    coreCycle referenceCfg s =
      runBranch s (emOut s c (rtOf w) (rdOf w) (imm16Of w) (fuResult s w c) (fuResult s w c)) (imm16Of w)
        (branchTaken c (zeroFlag (fuResult s w c))) := by
  have hjump : isJump c = false := by
    rw [isBranch, Bool.and_eq_true, Bool.not_eq_true'] at hbranch
    exact hbranch.1
  rw [coreCycle, executeStage_of_valid _ h.valid, executeEm_of_holds h, hlink]
  simp only [executeRedirect, executePtUpd, fuCall_of_holds h, h.ctrl, h.imm16, hjump, hbranch, Bool.and_true]
  rfl

end

/-! ### The formats (30_encoding.md R97, R98) -/

section
variable {s : State} {rs rt rd : Reg} {sa : BitVec 5} {f : BitVec 6}

theorem coreCycle_of_rAlu (h : s.de.Holds (wordR rs rt rd sa f) .rAlu) :
    coreCycle referenceCfg s = runR s .rAlu rt rd sa f (aluByFunct f (operandA s rs) (operandB s rt)) := by
  rw [coreCycle_of_plain h rfl rfl rfl, fuResult, functOf_wordR, rsOf_wordR, rtOf_wordR, rdOf_wordR, imm16Of_wordR]
  rfl

theorem coreCycle_of_rShift (h : s.de.Holds (wordR rs rt rd sa f) .rShift) :
    coreCycle referenceCfg s = runR s .rShift rt rd sa f (aluByFunct f (zext5 sa) (operandB s rt)) := by
  rw [coreCycle_of_plain h rfl rfl rfl, fuResult, functOf_wordR, shamtOf_wordR, rtOf_wordR, rdOf_wordR, imm16Of_wordR]
  rfl

theorem coreCycle_of_jr (h : s.de.Holds (wordR rs rt rd sa 0x08#6) .jrBundle) :
    coreCycle referenceCfg s = execJr rs rt rd sa s := by
  rw [coreCycle_of_jump h rfl, fuResult, functOf_wordR, rsOf_wordR, rtOf_wordR, rdOf_wordR, imm16Of_wordR]
  rfl

theorem coreCycle_of_jalr (h : s.de.Holds (wordR rs rt rd sa 0x09#6) .jalrBundle) :
    coreCycle referenceCfg s = execJalr rs rt rd sa s := by
  rw [coreCycle_of_jump h rfl, fuResult, functOf_wordR, rsOf_wordR, rtOf_wordR, rdOf_wordR, imm16Of_wordR]
  rfl

end

section
variable {s : State} {op : BitVec 6} {rs rt : Reg} {imm : BitVec 16} {c : Ctrl}

/-- The bundles under which the FU adds the sign-extended immediate: of `addi`, `addiu`, the loads and the stores. -/
def Ctrl.addsImm : List Ctrl := [.addImm, .loadByte, .loadHalf, .loadWord, .storeByte, .storeHalf, .storeWord]

theorem addsImm_bits : ∀ c ∈ Ctrl.addsImm, isJump c = false ∧ isBranch c = false ∧ c.link = false ∧
    c.shift = false ∧ c.aluOp = 0#2 ∧ c.aluSrc = true ∧ c.zext = false := by
  decide

theorem coreCycle_of_addsImm (h : s.de.Holds (wordI op rs rt imm) c) (hc : c ∈ Ctrl.addsImm) :
    coreCycle referenceCfg s = runI s c rt imm (operandA s rs + sext16 imm) := by
  obtain ⟨hjump, hbranch, hlink, hshift, hop, hsrc, hzext⟩ := addsImm_bits c hc
  rw [coreCycle_of_plain h hjump hbranch hlink, fuResult, rsOf_wordI, rtOf_wordI, rdOf_wordI, imm16Of_wordI, hshift,
    hop, hsrc, hzext]
  rfl

theorem coreCycle_of_setImm (h : s.de.Holds (wordI op rs rt imm) .setImm) :
    coreCycle referenceCfg s = runI s .setImm rt imm (aluByOpcode op (operandA s rs) (sext16 imm)) := by
  rw [coreCycle_of_plain h rfl rfl rfl, fuResult, opcodeOf_wordI, rsOf_wordI, rtOf_wordI, rdOf_wordI, imm16Of_wordI]
  rfl

theorem coreCycle_of_logicImm (h : s.de.Holds (wordI op rs rt imm) .logicImm) :
    coreCycle referenceCfg s = runI s .logicImm rt imm (aluByOpcode op (operandA s rs) (zext16 imm)) := by
  rw [coreCycle_of_plain h rfl rfl rfl, fuResult, opcodeOf_wordI, rsOf_wordI, rtOf_wordI, rdOf_wordI, imm16Of_wordI]
  rfl

theorem coreCycle_of_beq (h : s.de.Holds (wordI op rs rt imm) .beqBundle) :
    coreCycle referenceCfg s = execBeq rs rt imm s := by
  have htaken : ∀ z, branchTaken .beqBundle z = z := by decide
  rw [coreCycle_of_branch h rfl rfl, fuResult, rsOf_wordI, rtOf_wordI, rdOf_wordI, imm16Of_wordI, htaken]
  rfl

theorem coreCycle_of_bne (h : s.de.Holds (wordI op rs rt imm) .bneBundle) :
    coreCycle referenceCfg s = execBne rs rt imm s := by
  rw [coreCycle_of_branch h rfl rfl, fuResult, rsOf_wordI, rtOf_wordI, rdOf_wordI, imm16Of_wordI]
  rfl

end

section
variable {s : State} {op : BitVec 6} {addr : BitVec 26}

theorem coreCycle_of_j (h : s.de.Holds (wordJ op addr) .jBundle) : coreCycle referenceCfg s = execJ addr s := by
  rw [coreCycle_of_jump h rfl, fuResult, rsOf_wordJ, rtOf_wordJ, rdOf_wordJ, imm16Of_wordJ, addr26Of_wordJ]
  rfl

theorem coreCycle_of_jal (h : s.de.Holds (wordJ op addr) .jalBundle) : coreCycle referenceCfg s = execJal addr s := by
  rw [coreCycle_of_jump h rfl, fuResult, rsOf_wordJ, rtOf_wordJ, rdOf_wordJ, imm16Of_wordJ, addr26Of_wordJ]
  rfl

end

/-! ### The meanings are the cycle (40_cycle.md R130) -/

/-- Each meaning is the bundle-driven cycle when its instruction is in execute. -/
theorem coreCycle_of_inExecute {s : State} {i : Instr} (hi : inExecute s.de = some i) :
    coreCycle referenceCfg s = exec i s := by
  have h := holds_of_inExecute hi
  cases i
  case sll | srl | sra => exact (coreCycle_of_rShift h).trans rfl
  case sllv | srlv | srav | add | addu | sub | subu | and | or | xor | nor | slt | sltu =>
    exact (coreCycle_of_rAlu h).trans rfl
  case jr => exact coreCycle_of_jr h
  case jalr => exact coreCycle_of_jalr h
  case j => exact coreCycle_of_j h
  case jal => exact coreCycle_of_jal h
  case beq => exact coreCycle_of_beq h
  case bne => exact coreCycle_of_bne h
  case slti | sltiu => exact (coreCycle_of_setImm h).trans rfl
  case andi | ori | xori | lui => exact (coreCycle_of_logicImm h).trans rfl
  case addi | addiu | lb | lh | lw | sb | sh | sw => exact coreCycle_of_addsImm h (by simp [Ctrl.addsImm])

/-- Settles O26, by the instruction in execute. -/
theorem stepIsTheCoreCycle : Obligations.StepIsTheCoreCycle := by
  unfold Obligations.StepIsTheCoreCycle
  intro s
  rw [step]
  cases hi : inExecute s.de with
  | none => rfl
  | some i => exact (coreCycle_of_inExecute hi).symm

/-! ### The front end (R126, rows 2 to 5; R129) -/

section
variable (dec : Word → Ctrl) (ans : PortAnswers) {s : State}

theorem frontEnd_of_redirect (target : Word) :
    frontEnd dec (some target) ans s = { pc := target, fd := .bubble, de := .bubble, fetchWait := 0 } := rfl

theorem frontEnd_of_loadUse (hu : loadUse s = true) :
    frontEnd dec none ans s = { pc := s.pc, fd := s.fd, de := .bubble, fetchWait := s.fetchWait } := by
  simp [frontEnd, hu]

theorem frontEnd_of_hit (hu : loadUse s = false) (hready : ans.iReady = true) :
    frontEnd dec none ans s =
      { pc := pcSeq dec s ans.iWord, fd := fetchOut dec s ans.iWord, de := decodeOut dec s, fetchWait := 0 } := by
  simp [frontEnd, hu, hready]

theorem frontEnd_of_miss (hu : loadUse s = false) (hready : ans.iReady = false) :
    frontEnd dec none ans s =
      { pc := s.pc, fd := .bubble, de := decodeOut dec s, fetchWait := s.fetchWait + 1 } := by
  simp [frontEnd, hu, hready]

end

/-- Without a data stall, PC, FD, DE and `fetch_wait` are what the front end makes of them. -/
theorem front_of_flow {k : Collaborators} {s t : State} {pc : Word} {fd : FetchDecode} {de : DecodeExecute} {n : Nat}
    (h : coreCycle k s = .next t) (hs : s.stalls = false)
    (hfront : frontEnd k.dec (executeStage k s).redirect (answers s) s = ⟨pc, fd, de, n⟩) :
    t.pc = pc ∧ t.fd = fd ∧ t.de = de ∧ t.fetchWait = n := by
  rw [coreCycle_of_flow h hs]
  simp only [advanced_pc, advanced_fd, advanced_de, advanced_fetchWait, hfront, and_self]

/-- Settles O20, by the five cases: a data stall, and without one a redirect, a load-use stall, a fetch hit and a fetch
miss. -/
theorem nextStateTable : Obligations.NextStateTable := by
  unfold Obligations.NextStateTable
  intro k s haligned
  obtain ⟨t, hnext⟩ : ∃ t, coreCycle k s = .next t := ⟨_, cycle_of_aligned _ haligned⟩
  refine ⟨t, hnext, fun hs => ?stall, fun hs => ?back, fun target hs hr => ?redirect, fun hs hr hu => ?loadUse,
    fun hs hr hu hready => ?hit, fun hs hr hu hready => ?miss⟩
  case stall =>
    rw [coreCycle_of_stall hnext hs]
    exact ⟨rfl, rfl, rfl, rfl, rfl⟩
  case back =>
    rw [coreCycle_of_flow hnext hs]
    exact ⟨rfl, rfl⟩
  case redirect =>
    obtain ⟨hpc, hfd, hde, -⟩ := front_of_flow hnext hs (hr ▸ frontEnd_of_redirect _ _ target)
    exact ⟨hpc, hfd, hde⟩
  case loadUse =>
    obtain ⟨hpc, hfd, hde, -⟩ := front_of_flow hnext hs (hr ▸ frontEnd_of_loadUse _ _ hu)
    exact ⟨hpc, hfd, hde⟩
  case hit =>
    obtain ⟨hpc, hfd, hde, -⟩ := front_of_flow hnext hs (hr ▸ frontEnd_of_hit _ _ hu hready)
    exact ⟨hpc, hfd, hde⟩
  case miss =>
    obtain ⟨hpc, hfd, hde, -⟩ := front_of_flow hnext hs (hr ▸ frontEnd_of_miss _ _ hu hready)
    exact ⟨hpc, hfd, hde⟩

/-- The front end's next `fetch_wait` (R129). -/
theorem frontEnd_fetchWait (dec : Word → Ctrl) (redirect : Option Word) (ans : PortAnswers) (s : State) :
    (frontEnd dec redirect ans s).fetchWait =
      if redirect.isSome then 0
      else if loadUse s then s.fetchWait
      else if ans.iReady then 0
      else s.fetchWait + 1 := by
  cases redirect with
  | some target => rfl
  | none =>
    cases hu : loadUse s with
    | true =>
      rw [frontEnd_of_loadUse dec ans hu]
      rfl
    | false =>
      cases hready : ans.iReady with
      | true =>
        rw [frontEnd_of_hit dec ans hu hready]
        rfl
      | false =>
        rw [frontEnd_of_miss dec ans hu hready]
        rfl

/-- Settles O21: a data stall holds `fetch_wait`, and without one the front end makes it. -/
theorem waitCountersCountMisses : Obligations.WaitCountersCountMisses := by
  unfold Obligations.WaitCountersCountMisses
  intro k s t hnext
  cases hs : s.stalls with
  | true =>
    rw [coreCycle_of_stall hnext hs]
    exact ⟨rfl, rfl⟩
  | false =>
    rw [coreCycle_of_flow hnext hs]
    exact ⟨rfl, frontEnd_fetchWait _ _ _ _⟩

/-! ### A data miss (R125) -/

/-- A cycle with a data stall, whatever the execute stage answers. -/
theorem cycle_of_stall (dec : Word → Ctrl) {s : State} (x : ExecuteOut) (haligned : s.accessesAligned = true)
    (hs : s.stalls = true) :
    cycle dec s x = .next { s with memWait := s.memWait + 1, ports := s.ports.later } := by
  rw [cycle_of_aligned x haligned, cycleNext_of_stall _ _ _ hs, memNext_of_stall hs]
  rfl

theorem iportRequest_of_stall {s : State} (hs : s.stalls = true) : iportRequest s s.ports.now.dReady = none := by
  rw [State.stalls] at hs
  simp [iportRequest, fetchIssues, hs]

/-- Settles O23: every meaning is a cycle, and a cycle with a data stall does not look at what execute answers. -/
theorem dataMissFreezesThePipeline : Obligations.DataMissFreezesThePipeline := by
  unfold Obligations.DataMissFreezesThePipeline
  intro i s haligned hs
  obtain ⟨-, hexec, hstep⟩ := meanings_of_cycle
    (P := (· = .next { s with memWait := s.memWait + 1, ports := s.ports.later }))
    (fun dec x => cycle_of_stall dec x haligned hs) referenceCfg i
  exact ⟨_, hexec, hstep, rfl, iportRequest_of_stall hs, rfl⟩

/-! ### The settled view (notes/assumptions 15) -/

/-- After a step without a data stall the write of the word in MW is done. -/
theorem rf_of_step {s t : State} (h : step s = .next t) (hs : s.stalls = false) : t.rf = writeBack s.mw s.rf := by
  obtain ⟨-, x, rfl⟩ := step_eq_next h
  rw [cycleNext_of_flow _ _ _ hs]
  rfl

/-- And so is the store of the word in EM. -/
theorem mem_of_step {s t : State} (h : step s = .next t) (hs : s.stalls = false) : t.mem = s.settledMem := by
  obtain ⟨-, x, rfl⟩ := step_eq_next h
  exact memNext_of_flow hs

/-- Settles O44: the first cycle moves the word in EM to MW and does the write of the one in MW, the second does the
other's. -/
theorem settledValuesAreCommitted : Obligations.SettledValuesAreCommitted := by
  unfold Obligations.SettledValuesAreCommitted
  refine ⟨fun s t u hflows ht => ?_, fun s hem hmw => ?_⟩
  · have hs := (flows_iff.1 hflows).2
    refine ⟨mem_of_step ht hs, fun hflows' hu => ?_⟩
    rw [rf_of_step hu (flows_iff.1 hflows').2, mw_of_step ht hs, rf_of_step ht hs, State.settledRf]
  · have hrequest : dportRequest s = none := dportRequest_of_inert (by rw [hem, em_bubble_ctrl])
    refine ⟨?_, settledMem_of_no_request hrequest⟩
    rw [State.settledRf, hem, hmw, memoryOut_bubble, writeBack_bubble, writeBack_bubble]

/-! ### The instruction of a step (R120; notes/assumptions 9, 10) -/

/-- When a word's four bytes decode to an instruction, so does the word. -/
theorem decodeWord_of_decode {e : Endian} {w : Word} {i : Instr} {rest : List Byte}
    (h : decode e (inOrder e (bytesOf 4 w)) = .decoded i rest) : decodeWord w = some i := by
  obtain ⟨l, hl, hbytes, hi⟩ := decode_eq_decoded.1 h
  have hrest : rest = [] := by simpa [hl] using congrArg List.length hbytes
  rw [hrest, List.append_nil] at hbytes
  rwa [← hbytes, inOrder_inOrder, valueOf_bytesOf] at hi

theorem decodeWord_of_decodeTableWord {nbits w : Nat} {i : Instr} (h : decodeTableWord nbits w = some i) :
    decodeWord (BitVec.ofNat 32 (w % 2 ^ nbits)) = some i := by
  unfold decodeTableWord at h
  split at h
  next j rest hdecode =>
    cases h
    exact decodeWord_of_decode hdecode
  next => cases h

theorem step_of_inExecute {s : State} {i : Instr} (h : inExecute s.de = some i) : step s = exec i s := by
  rw [step, h]

/-- A decoded word is in execute as the instruction it decodes to. -/
@[simp] theorem inExecute_ofWord (w a b pc : Word) (p : Bool) :
    inExecute (.ofWord w a b (referenceDec w) pc p) = decodeWord w := by
  rw [inExecute, ofWord_coherent, if_pos rfl, ofWord_word]

/-- Settles O25: a placed word is in execute as the instruction it decodes to. -/
theorem stepRunsTheInstructionInExecute : Obligations.StepRunsTheInstructionInExecute := by
  unfold Obligations.StepRunsTheInstructionInExecute
  intro s
  refine ⟨fun i hi => step_of_inExecute hi, fun _ => stepIsTheCoreCycle s, fun nbits w i hi => ?_⟩
  have hplaced : inExecute (s.withFetchWord nbits w).de = some i := by
    rw [State.withFetchWord, placeWord_de, inExecute_ofWord, decodeWord_of_decodeTableWord hi]
  exact ⟨step_of_inExecute hplaced, rfl⟩

end Sys2Proof.Machine

/-! Fetch (41_fetch.md): what a fetch hit makes of FD and PC, and a disabled predictor, whose table nothing reads. -/

namespace Sys2Proof.Machine

/-! ### The prediction of a fetched word (R143, R145) -/

section
variable {dec : Word → Ctrl} {s : State}

theorem fetchPredict_iff {a w : Word} :
    fetchPredict dec s a w = true ↔
      s.cfg.predEn = true ∧ ((dec w).branch = true ∨ (dec w).bne = true) ∧
        2 ≤ (s.pt.getD (a.toNat / 4 % s.pt.length) 0).val := by
  simp [fetchPredict, ptPredicts, ptCounter, ptIndex, and_assoc]

theorem pcSeq_of_predicted {w : Word} (h : fetchPredict dec s s.pc w = true) :
    pcSeq dec s w = btarget s.pc (imm16Of w) :=
  if_pos h

theorem pcSeq_of_not_predicted {w : Word} (h : ¬fetchPredict dec s s.pc w = true) : pcSeq dec s w = s.pc + 4#32 :=
  if_neg h

/-- Without a stall of either kind the fetch is issued (R141). -/
theorem iportRequest_of_flow (hs : s.stalls = false) (hu : loadUse s = false) :
    iportRequest s s.ports.now.dReady = some ⟨s.pc, .word, true, false, 0#32⟩ := by
  rw [State.stalls] at hs
  simp [iportRequest, fetchIssues, hs, hu]

end

/-- Settles O29: the front end's fetch-hit row, with the prediction and the next PC it holds spelled out. -/
theorem fetchHitAdvances : Obligations.FetchHitAdvances := by
  unfold Obligations.FetchHitAdvances
  intro k s t hnext hs hu hredirect hready w counter predicted
  obtain ⟨hpc, hfd, -, hwait⟩ := front_of_flow hnext hs (hredirect ▸ frontEnd_of_hit k.dec (answers s) hu hready)
  have hpredicted : fetchPredict k.dec s s.pc w = true ↔ predicted := fetchPredict_iff
  refine ⟨iportRequest_of_flow hs hu, ?_⟩
  rw [hfd, hpc]
  exact ⟨rfl, rfl, rfl, hpredicted, fun h => pcSeq_of_predicted (hpredicted.2 h),
    fun h => pcSeq_of_not_predicted (mt hpredicted.1 h), hwait⟩

/-! ### A disabled predictor (R147) -/

/-- The state with another predictor table. -/
def State.withTable (s : State) (pt : List Counter) : State := { s with pt := pt }

section
variable (s : State) (pt : List Counter)

@[simp] theorem withTable_cfg : (s.withTable pt).cfg = s.cfg := rfl

@[simp] theorem withTable_pc : (s.withTable pt).pc = s.pc := rfl

@[simp] theorem withTable_ports : (s.withTable pt).ports = s.ports := rfl

@[simp] theorem memStall_withTable (dReady : Bool) : memStall (s.withTable pt) dReady = memStall s dReady := rfl

@[simp] theorem loadUse_withTable : loadUse (s.withTable pt) = loadUse s := rfl

@[simp] theorem decodeOut_withTable (dec : Word → Ctrl) : decodeOut dec (s.withTable pt) = decodeOut dec s := rfl

@[simp] theorem answers_withTable : answers (s.withTable pt) = answers s := rfl

@[simp] theorem fetchMisaligned_withTable : fetchMisaligned (s.withTable pt) = fetchMisaligned s := rfl

@[simp] theorem dataMisaligned_withTable : dataMisaligned (s.withTable pt) = dataMisaligned s := rfl

@[simp] theorem executeEm_withTable (k : Collaborators) : executeEm k (s.withTable pt) = executeEm k s := rfl

@[simp] theorem executeRedirect_withTable (k : Collaborators) :
    executeRedirect k (s.withTable pt) = executeRedirect k s := rfl

end

section
variable {s : State} (hdisabled : s.cfg.predEn = false)
include hdisabled

theorem fetchPredict_of_disabled (dec : Word → Ctrl) (a w : Word) : fetchPredict dec s a w = false := by
  simp [fetchPredict, hdisabled]

theorem fetchOut_of_disabled (dec : Word → Ctrl) (w : Word) :
    fetchOut dec s w = { valid := true, word := w, pc := s.pc, predTaken := false } := by
  rw [fetchOut, fetchPredict_of_disabled hdisabled]

theorem pcSeq_of_disabled (dec : Word → Ctrl) (w : Word) : pcSeq dec s w = s.pc + 4#32 :=
  pcSeq_of_not_predicted (by simp [fetchPredict_of_disabled hdisabled])

/-- No branch trains its counter (44_control_transfer.md R210). -/
theorem executeStage_ptUpd_of_disabled (k : Collaborators) : (executeStage k s).ptUpd = none := by
  cases hv : s.de.valid <;> simp [executeStage, executePtUpd, hv, hdisabled]

/-- The execute stage reads the table only to index an update, and there is none. -/
theorem executeStage_withTable (k : Collaborators) (pt : List Counter) :
    executeStage k (s.withTable pt) = executeStage k s := by
  have hupd : executePtUpd k (s.withTable pt) = executePtUpd k s := by simp [executePtUpd, hdisabled]
  rw [executeStage, executeEm_withTable, executeRedirect_withTable, hupd]
  rfl

/-- The front end reads the table only to predict, and it predicts nothing. -/
theorem frontEnd_withTable (dec : Word → Ctrl) (redirect : Option Word) (ans : PortAnswers) (pt : List Counter) :
    frontEnd dec redirect ans (s.withTable pt) = frontEnd dec redirect ans s := by
  have hpc : pcSeq dec (s.withTable pt) ans.iWord = pcSeq dec s ans.iWord := by
    rw [pcSeq_of_disabled hdisabled, pcSeq_of_disabled (s := s.withTable pt) hdisabled, withTable_pc]
  have hfd : fetchOut dec (s.withTable pt) ans.iWord = fetchOut dec s ans.iWord := by
    rw [fetchOut_of_disabled hdisabled, fetchOut_of_disabled (s := s.withTable pt) hdisabled, withTable_pc]
  cases redirect with
  | some target => rfl
  | none =>
    simp only [frontEnd, hpc, hfd, loadUse_withTable, decodeOut_withTable]
    rfl

/-- A cycle that trains no counter carries the table along, whatever it is. -/
theorem cycleNext_withTable (dec : Word → Ctrl) {x : ExecuteOut} (hupd : x.ptUpd = none) (pt : List Counter) :
    cycleNext dec (s.withTable pt) x = (cycleNext dec s x).withTable pt := by
  cases hs : memStall s s.ports.now.dReady with
  | true =>
    rw [cycleNext_of_stall dec s x hs, cycleNext_of_stall dec (s.withTable pt) x (by simpa using hs)]
    rfl
  | false =>
    rw [cycleNext_of_flow dec s x hs, cycleNext_of_flow dec (s.withTable pt) x (by simpa using hs),
      answers_withTable, advanced, frontEnd_withTable hdisabled, hupd]
    rfl

/-- A cycle that goes on does so whatever the table holds, and differs in it alone. -/
theorem coreCycle_next_withTable {t : State} {k : Collaborators} (pt : List Counter) (h : coreCycle k s = .next t) :
    coreCycle k (s.withTable pt) = .next (t.withTable pt) := by
  obtain ⟨haligned, rfl⟩ := cycle_eq_next.1 h
  rw [coreCycle, executeStage_withTable hdisabled,
    ← cycleNext_withTable hdisabled k.dec (executeStage_ptUpd_of_disabled hdisabled k)]
  exact cycle_of_aligned _ haligned

end

/-- A cycle that stops does so whatever the table holds, and for the same reason. -/
theorem coreCycle_fault_withTable {s : State} {k : Collaborators} {f : Fault} (pt : List Counter)
    (h : coreCycle k s = .fault f) : coreCycle k (s.withTable pt) = .fault f := by
  rw [coreCycle, cycle_eq_fault] at h ⊢
  simpa using h

/-- Settles O30: neither the front end nor the execute stage reads the table, and no update changes it. -/
theorem disabledPredictorIsNeverRead : Obligations.DisabledPredictorIsNeverRead := by
  unfold Obligations.DisabledPredictorIsNeverRead
  intro k s hdisabled
  refine ⟨fetchPredict_of_disabled hdisabled k.dec, fun w => ⟨?_, pcSeq_of_disabled hdisabled k.dec w⟩,
    fun t pt h => coreCycle_next_withTable hdisabled pt h, fun f pt h => coreCycle_fault_withTable pt h⟩
  rw [fetchOut_of_disabled hdisabled]

end Sys2Proof.Machine

/-! The load-use hazard (42_decode_hazard.md): when decode stalls behind a load, what the stall cycle does, and how the
loaded value reaches the held word. -/

namespace Sys2Proof.Machine

/-! ### The load-use stall (R156, R157, R165) -/

section
variable {s : State}

theorem loadUse_iff :
    loadUse s = true ↔
      s.fd.valid = true ∧ s.de.valid = true ∧ s.de.ctrl.memRead = true ∧ s.de.ctrl.regWrite = true ∧
        (rsOf s.fd.word = dest s.de.ctrl s.de.rt s.de.rd ∨ rtOf s.fd.word = dest s.de.ctrl s.de.rt s.de.rd) := by
  simp [loadUse, and_assoc]

/-- A bubble in DE stalls nothing behind it. -/
theorem loadUse_of_bubble (h : s.de = .bubble) : loadUse s = false := by
  simp [loadUse, h]

theorem iportRequest_of_loadUse (h : loadUse s = true) (dReady : Bool) : iportRequest s dReady = none := by
  simp [iportRequest, fetchIssues, h]

/-- The stall cycle holds PC and FD and empties DE. -/
theorem front_of_loadUse {k : Collaborators} {t : State} (h : coreCycle k s = .next t) (hs : s.stalls = false)
    (hredirect : (executeStage k s).redirect = none) (hu : loadUse s = true) :
    t.pc = s.pc ∧ t.fd = s.fd ∧ t.de = .bubble := by
  obtain ⟨hpc, hfd, hde, -⟩ := front_of_flow h hs (hredirect ▸ frontEnd_of_loadUse k.dec (answers s) hu)
  exact ⟨hpc, hfd, hde⟩

end

/-- Settles O31: the stall's row of the next-state table, whose bubble in DE ends the stall. -/
theorem loadUseStallsOneCycle : Obligations.LoadUseStallsOneCycle := by
  unfold Obligations.LoadUseStallsOneCycle
  intro k s d
  refine ⟨loadUse_iff, fun t hnext hs hredirect hu => ?_⟩
  obtain ⟨hpc, hfd, hde⟩ := front_of_loadUse hnext hs hredirect hu
  exact ⟨hde, hfd, hpc, iportRequest_of_loadUse hu _, loadUse_of_bubble hde⟩

/-! ### The load ahead of the held word (R166) -/

/-- No bundle of the table both loads and transfers control. -/
theorem no_transfer_of_load : ∀ c ∈ referenceBundles, c.memRead = true → isJump c = false ∧ isBranch c = false := by
  decide

section
variable {s t : State}

/-- In a reachable state a load in execute does not redirect. -/
theorem State.Inv.redirect_of_load (hinv : s.Inv) (k : Collaborators) (hvalid : s.de.valid = true)
    (hload : s.de.ctrl.memRead = true) : (executeStage k s).redirect = none := by
  have hmem : s.de.ctrl ∈ referenceBundles := hinv.de_ctrl hvalid ▸ referenceDec_mem _
  obtain ⟨hjump, hbranch⟩ := no_transfer_of_load _ hmem hload
  simp [executeStage_of_valid k hvalid, executeRedirect, hjump, hbranch]

/-- After a cycle without a data stall EM holds what the word in execute latches. -/
theorem em_of_flow {k : Collaborators} (h : coreCycle k s = .next t) (hs : s.stalls = false)
    (hvalid : s.de.valid = true) : t.em = executeEm k s := by
  rw [coreCycle_of_flow h hs, executeStage_of_valid k hvalid]
  rfl

/-- The data a load in EM reads. -/
theorem answers_rData_of_load (hvalid : s.em.valid = true) (hload : s.em.ctrl.memRead = true) :
    (answers s).rData = memRead s.cfg.endian s.mem s.em.aluResult (widthOf s.em.ctrl) := by
  simp [answers, dportRequest, PortRequest.readValue, hvalid, hload]

/-- After a step without a data stall a load in EM is in MW, with the value it loaded (45_memory_writeback.md R227). -/
theorem mw_of_load (h : step s = .next t) (hs : s.stalls = false) (hvalid : s.em.valid = true)
    (hload : s.em.ctrl.memRead = true) (hmtr : s.em.ctrl.memToReg = true) :
    t.mw =
      { valid := true
        dest := dest s.em.ctrl s.em.rt s.em.rd
        value := loadedValue s.em.ctrl (memRead s.cfg.endian s.mem s.em.aluResult (widthOf s.em.ctrl))
        ctrl := s.em.ctrl
        pc := s.em.pc } := by
  rw [mw_of_step h hs, answers_rData_of_load hvalid hload, memoryOut, if_pos hvalid, if_pos hmtr]

/-- After a cycle with a bubble in execute and no data stall EM is a bubble, and DE is what decode made, whether the
fetch hits or misses. -/
theorem back_of_bubble {k : Collaborators} (h : coreCycle k s = .next t) (hs : s.stalls = false)
    (hde : s.de = .bubble) : t.em = .bubble ∧ t.de = decodeOut k.dec s := by
  have hstage : executeStage k s = ⟨.bubble, none, none⟩ := by simp [executeStage, hde]
  rw [coreCycle_of_flow h hs, hstage]
  refine ⟨rfl, ?_⟩
  cases hready : (answers s).iReady with
  | true => exact congrArg FrontEnd.de (frontEnd_of_hit k.dec _ (loadUse_of_bubble hde) hready)
  | false => exact congrArg FrontEnd.de (frontEnd_of_miss k.dec _ (loadUse_of_bubble hde) hready)

/-- With a bubble in EM, an operand the word in MW writes is its value (43_execute_forwarding.md R178). -/
theorem fwd_of_mw {i : Reg} (v : Word) (hem : s.em = .bubble) (hmw : mwWrites s i = true) (hi : i ≠ 0#5) :
    fwd s i v = s.mw.value := by
  simp [fwd, fwdsel, emWrites, hem, hmw, hi]

end

/-- Settles O32: in the stall cycle the load enters EM and DE empties; in the next one the load enters MW, the held word
decodes, and EM is the bubble that leaves the forwarding to MW. -/
theorem loadedValueReachesItsConsumer : Obligations.LoadedValueReachesItsConsumer := by
  unfold Obligations.LoadedValueReachesItsConsumer
  intro s t u hinv hflows hu hmtr ht hflows' hu' d loaded
  have hs := (flows_iff.1 hflows).2
  have hs' := (flows_iff.1 hflows').2
  obtain ⟨hfdValid, hdeValid, hload, hwrite, -⟩ := loadUse_iff.1 hu
  have hcycle : coreCycle referenceCfg s = .next t := (stepIsTheCoreCycle s).symm.trans ht
  have hcycle' : coreCycle referenceCfg t = .next u := (stepIsTheCoreCycle t).symm.trans hu'
  obtain ⟨-, htfd, htde⟩ := front_of_loadUse hcycle hs (hinv.redirect_of_load _ hdeValid hload) hu
  have htem : t.em = executeEm referenceCfg s := em_of_flow hcycle hs hdeValid
  have hctrl : t.em.ctrl = s.de.ctrl := congrArg ExecuteMemory.ctrl htem
  obtain ⟨huem, hude⟩ := back_of_bubble hcycle' hs' htde
  rw [decodeOut_of_valid _ (htfd ▸ hfdValid), htfd] at hude
  have humw := mw_of_load hu' hs' (congrArg ExecuteMemory.valid htem) (hctrl ▸ hload) (hctrl ▸ hmtr)
  have hvalue : u.mw.value = loaded := by rw [humw, hctrl]
  have hwrites : mwWrites u d = true := by simp [mwWrites, humw, htem, executeEm, hwrite, d]
  have hoperand : ∀ i v, d ≠ 0#5 → i = d → fwd u i v = loaded := by
    rintro i v hd rfl
    exact (fwd_of_mw v huem hwrites hd).trans hvalue
  refine ⟨?_, ?_, ?_, ?_, ?_, hvalue, hoperand _ _, hoperand _ _⟩
  · rw [hude, ofWord_valid]
  · rw [hude, ofWord_word]
  · rw [hude, ofWord_pc]
  · rw [humw]
  · rw [humw, htem]
    rfl

end Sys2Proof.Machine

/-! Execute and forwarding (43_execute_forwarding.md): the reference Functional Unit's rows as arithmetic, which
producer an operand comes from, why the operands are the registers with both older writes done, and what execute
latches. -/

namespace Sys2Proof.Machine

/-! ### The Functional Unit's operations as arithmetic (R190, R191) -/

section
variable (a b : Word)

theorem sub_toNat : (a - b).toNat = (a.toNat + (2 ^ 32 - b.toNat)) % 2 ^ 32 := by
  rw [BitVec.toNat_sub, Nat.add_comm]

theorem boolWord_toNat (c : Bool) : (boolWord c).toNat = if c then 1 else 0 := by
  cases c <;> rfl

theorem sltWord_toNat : (sltWord a b).toNat = if a.toInt < b.toInt then 1 else 0 := by
  simp [sltWord, boolWord_toNat]

theorem sltuWord_toNat : (sltuWord a b).toNat = if a.toNat < b.toNat then 1 else 0 := by
  simp [sltuWord, boolWord_toNat]

theorem sllWord_toNat : (sllWord a b).toNat = b.toNat * 2 ^ (a.toNat % 32) % 2 ^ 32 := by
  rw [sllWord, shiftAmount, BitVec.toNat_shiftLeft, Nat.shiftLeft_eq]

theorem srlWord_toNat : (srlWord a b).toNat = b.toNat / 2 ^ (a.toNat % 32) := by
  rw [srlWord, shiftAmount, BitVec.toNat_ushiftRight, Nat.shiftRight_eq_div_pow]

/-- An arithmetic shift is the quotient rounded down. -/
theorem sraWord_toInt : (sraWord a b).toInt = b.toInt / 2 ^ (a.toNat % 32) := by
  rw [sraWord, shiftAmount, BitVec.toInt_sshiftRight, Int.shiftRight_eq_div_pow]
  push_cast
  rfl

theorem luiWord_toNat : (luiWord b).toNat = b.toNat * 65536 % 2 ^ 32 := by
  rw [luiWord, BitVec.toNat_shiftLeft, Nat.shiftLeft_eq]

/-! ### The selector columns (R190) -/

theorem aluByFunct_of_add : ∀ f ∈ [0x20#6, 0x21#6], aluByFunct f a b = a + b := by
  simp [aluByFunct]

theorem aluByFunct_of_sub : ∀ f ∈ [0x22#6, 0x23#6], aluByFunct f a b = a - b := by
  simp [aluByFunct]

theorem aluByFunct_of_sll : ∀ f ∈ [0x00#6, 0x04#6], aluByFunct f a b = sllWord a b := by
  simp [aluByFunct]

theorem aluByFunct_of_srl : ∀ f ∈ [0x02#6, 0x06#6], aluByFunct f a b = srlWord a b := by
  simp [aluByFunct]

theorem aluByFunct_of_sra : ∀ f ∈ [0x03#6, 0x07#6], aluByFunct f a b = sraWord a b := by
  simp [aluByFunct]

theorem aluByFunct_of_unlisted {f : BitVec 6}
    (h : f.toNat ∉ [0x00, 0x02, 0x03, 0x04, 0x06, 0x07, 0x20, 0x21, 0x22, 0x23, 0x24, 0x25, 0x26, 0x27, 0x2A, 0x2B]) :
    aluByFunct f a b = 0#32 := by
  unfold aluByFunct
  split <;> simp_all

theorem aluByOpcode_of_unlisted {op : BitVec 6} (h : op.toNat ∉ [0x0A, 0x0B, 0x0C, 0x0D, 0x0E, 0x0F]) :
    aluByOpcode op a b = 0#32 := by
  unfold aluByOpcode
  split <;> simp_all

end

/-- Settles O14: row by row, each operation with its value as a number. -/
theorem referenceUnitComputes : Obligations.ReferenceUnitComputes := by
  unfold Obligations.ReferenceUnitComputes
  intro a b funct opcode res sum diff sh less below
  have hfunct : res 2#2 = aluByFunct funct a b := rfl
  have hopcode : res 3#2 = aluByOpcode opcode a b := rfl
  refine ⟨fun _ => rfl, BitVec.toNat_add a b, sub_toNat a b, ?_, ?_, ?_, ?_, ?_, ?_, ?_, ?_, ?_, ?_, ?_, ?_, ?_, ?_, ?_,
    ?_, ?_, ?_, ?_⟩
  · exact fun h => by rw [hfunct, aluByFunct_of_add a b _ h, BitVec.toNat_add]
  · exact fun h => by rw [hfunct, aluByFunct_of_sub a b _ h, sub_toNat]
  · rintro rfl; rfl
  · rintro rfl; rfl
  · rintro rfl; rfl
  · rintro rfl; rfl
  · rintro rfl; exact sltWord_toNat a b
  · rintro rfl; exact sltuWord_toNat a b
  · exact fun h => by rw [hfunct, aluByFunct_of_sll a b _ h, sllWord_toNat]
  · exact fun h => by rw [hfunct, aluByFunct_of_srl a b _ h, srlWord_toNat]
  · exact fun h => by rw [hfunct, aluByFunct_of_sra a b _ h, sraWord_toInt]
  · exact aluByFunct_of_unlisted a b
  · rintro rfl; exact sltWord_toNat a b
  · rintro rfl; exact sltuWord_toNat a b
  · rintro rfl; rfl
  · rintro rfl; rfl
  · rintro rfl; rfl
  · rintro rfl; exact luiWord_toNat b
  · exact aluByOpcode_of_unlisted a b

/-! ### The producer of an operand (R178 to R180) -/

section
variable {s : State} {i : Reg}

theorem emWrites_iff :
    emWrites s i = true ↔ s.em.valid = true ∧ s.em.ctrl.regWrite = true ∧ dest s.em.ctrl s.em.rt s.em.rd = i := by
  simp [emWrites, and_assoc]

theorem mwWrites_iff : mwWrites s i = true ↔ s.mw.valid = true ∧ s.mw.ctrl.regWrite = true ∧ s.mw.dest = i := by
  simp [mwWrites, and_assoc]

/-- The younger producer comes first. -/
theorem forward_of_emWrites (v : Word) (hi : i ≠ 0#5) (hem : emWrites s i = true) :
    fwdsel s i = .forwardFromMemoryStage ∧ fwd s i v = s.em.aluResult := by
  simp [fwd, fwdsel, hi, hem]

theorem forward_of_mwWrites (v : Word) (hi : i ≠ 0#5) (hem : ¬emWrites s i = true) (hmw : mwWrites s i = true) :
    fwdsel s i = .forwardFromWritebackStage ∧ fwd s i v = s.mw.value := by
  simp [fwd, fwdsel, hi, hem, hmw]

theorem forward_of_no_producer (v : Word) (hem : ¬emWrites s i = true) (hmw : ¬mwWrites s i = true) :
    fwdsel s i = .noForward ∧ fwd s i v = v := by
  simp [fwd, fwdsel, hem, hmw]

theorem fwdsel_ne_memoryStage (hem : ¬emWrites s i = true) : fwdsel s i ≠ .forwardFromMemoryStage := by
  unfold fwdsel
  split_ifs <;> decide

end

/-- Settles O15: the four cases of the selector. -/
theorem forwardingPrefersTheYoungerProducer : Obligations.ForwardingPrefersTheYoungerProducer := by
  unfold Obligations.ForwardingPrefersTheYoungerProducer
  intro s i v dM fromEm fromMw
  have hem : emWrites s i = true ↔ fromEm := emWrites_iff
  have hmw : mwWrites s i = true ↔ fromMw := mwWrites_iff
  rw [← hem, ← hmw]
  refine ⟨?_, forward_of_emWrites v, forward_of_mwWrites v, fun _ => forward_of_no_producer v, rfl, rfl⟩
  rintro rfl
  exact ⟨fwdsel_zero s, fwd_zero s v⟩

/-! ### The operands and the settled registers (R187 to R189; notes/assumptions 15) -/

/-- Only a load of the table writes memory data to a register. -/
theorem memRead_of_memToReg : ∀ c ∈ referenceBundles, c.memToReg = true → c.memRead = true := by
  decide

section
variable {s : State} {r : Reg}

/-- The writeback of MW, in the terms of forwarding. -/
theorem readReg_writeBack_mw (rf : RegFile) (hr : r ≠ 0#5) :
    readReg (writeBack s.mw rf) r = if mwWrites s r = true then s.mw.value else readReg rf r := by
  simp [readReg_writeBack, mwWrites_iff, eq_comm (a := r) (b := s.mw.dest), hr]

/-- The writeback of what the memory stage hands on to MW: the register write that EM holds. -/
theorem readReg_writeBack_memoryOut (rData : Word) (rf : RegFile) (hr : r ≠ 0#5) :
    readReg (writeBack (memoryOut s.em rData) rf) r =
      if emWrites s r = true then (memoryOut s.em rData).value else readReg rf r := by
  rw [readReg_writeBack]
  cases hvalid : s.em.valid with
  | false => simp [memoryOut, emWrites, hvalid]
  | true => simp [memoryOut, emWrites_iff, hvalid, eq_comm (a := r) (b := dest _ _ _), hr]

/-- The settled registers: EM's write comes after MW's. -/
theorem readReg_settledRf (hr : r ≠ 0#5) :
    readReg s.settledRf r =
      if emWrites s r = true then (memoryOut s.em (answers s).rData).value
      else if mwWrites s r = true then s.mw.value else readReg s.rf r := by
  rw [State.settledRf, readReg_writeBack_memoryOut _ _ hr, readReg_writeBack_mw _ hr]

/-- The interlock (R187): a load in EM writes neither source of the word in execute. -/
theorem State.Inv.not_emWrites_of_load (hinv : s.Inv) (hvalid : s.de.valid = true) (hr : r = s.de.rs ∨ r = s.de.rt)
    (hload : s.em.ctrl.memRead = true) : ¬emWrites s r = true := by
  rw [emWrites_iff]
  rintro ⟨hem, hwrite, hdest⟩
  obtain ⟨hrs, hrt⟩ := hinv.interlock hvalid hem hload hwrite
  obtain rfl | rfl := hr
  · exact hrs hdest
  · exact hrt hdest

/-- What EM writes to a source of the word in execute is its ALU result, since it is no load (R188). -/
theorem State.Inv.memoryOut_value (hinv : s.Inv) (hvalid : s.de.valid = true) (hr : r = s.de.rs ∨ r = s.de.rt)
    (hem : emWrites s r = true) (rData : Word) : (memoryOut s.em rData).value = s.em.aluResult := by
  have hmtr : ¬s.em.ctrl.memToReg = true := fun h =>
    hinv.not_emWrites_of_load hvalid hr (memRead_of_memToReg _ hinv.emBundle h) hem
  rw [memoryOut, if_pos (emWrites_iff.1 hem).1, if_neg hmtr]

/-- A source of the word in execute, forwarded, is its register in the settled view (R189). -/
theorem State.Inv.fwd_eq_settled (hinv : s.Inv) (hvalid : s.de.valid = true) (hr : r = s.de.rs ∨ r = s.de.rt) :
    fwd s r (readReg s.rf r) = readReg s.settledRf r := by
  by_cases h0 : r = 0#5
  · rw [h0, fwd_zero, readReg_zero, readReg_zero]
  rw [readReg_settledRf h0]
  by_cases hem : emWrites s r = true
  · rw [(forward_of_emWrites _ h0 hem).2, if_pos hem, hinv.memoryOut_value hvalid hr hem]
  rw [if_neg hem]
  by_cases hmw : mwWrites s r = true
  · rw [(forward_of_mwWrites _ h0 hem hmw).2, if_pos hmw]
  · rw [(forward_of_no_producer _ hem hmw).2, if_neg hmw]

end

/-- Settles O43: the latches are the registers (R163), and forwarding adds the writes of MW and EM. -/
theorem operandsAreTheSettledRegisters : Obligations.OperandsAreTheSettledRegisters := by
  unfold Obligations.OperandsAreTheSettledRegisters
  intro s hinv hvalid
  obtain ⟨hrs, hrt⟩ := hinv.latches hvalid
  rw [operandA, operandB, hrs, hrt]
  refine ⟨hinv.fwd_eq_settled hvalid (.inl rfl), hinv.fwd_eq_settled hvalid (.inr rfl), fun _ hload => ?_⟩
  exact ⟨fwdsel_ne_memoryStage (hinv.not_emWrites_of_load hvalid (.inl rfl) hload),
    fwdsel_ne_memoryStage (hinv.not_emWrites_of_load hvalid (.inr rfl) hload)⟩

/-! ### What execute latches (R176, R186) -/

/-- A bubble in execute gives a bubble (R176). -/
theorem executeStage_of_invalid (k : Collaborators) {s : State} (h : s.de.valid = false) :
    executeStage k s = ⟨.bubble, none, none⟩ := by
  simp [executeStage, h]

/-- Settles O17: EM takes the execute stage's answer in every cycle without a data stall, whatever it redirects. -/
theorem executeLatchesItsOutput : Obligations.ExecuteLatchesItsOutput := by
  unfold Obligations.ExecuteLatchesItsOutput
  intro k s t hnext hs
  constructor
  · intro hbubble
    rw [coreCycle_of_flow hnext hs, executeStage_of_invalid k hbubble]
    rfl
  · intro hvalid
    exact em_of_flow hnext hs hvalid

end Sys2Proof.Machine

/-! Control transfer (44_control_transfer.md): the class of the word in execute, what each class redirects to, and which
counter a cycle trains. -/

namespace Sys2Proof.Machine

/-! ### The classes of control transfer (44_control_transfer.md R201, R202) -/

theorem isJump_iff (c : Ctrl) : isJump c = true ↔ c.jump = true ∨ c.jr = true := by
  simp [isJump]

/-- A branch bit counts only where no jump bit is set. -/
theorem isBranch_iff (c : Ctrl) :
    isBranch c = true ↔ c.jump = false ∧ c.jr = false ∧ (c.branch = true ∨ c.bne = true) := by
  simp [isBranch, isJump, and_assoc]

theorem isBranch_of_isJump {c : Ctrl} (h : isJump c = true) : isBranch c = false := by
  simp [isBranch, h]

theorem isJump_of_isBranch {c : Ctrl} (h : isBranch c = true) : isJump c = false := by
  rw [isBranch, Bool.and_eq_true, Bool.not_eq_true'] at h
  exact h.1

/-! ### What each class redirects to and trains (R202, R205, R210) -/

section
variable (k : Collaborators) {s : State}

theorem executeRedirect_of_isJump (h : isJump s.de.ctrl = true) :
    executeRedirect k s = some (if s.de.ctrl.jr then operandA s s.de.rs else jtarget s.de.pc s.de.addr26) := by
  simp [executeRedirect, h]

/-- A branch redirects to its actual next address, unless its outcome is the predicted one. -/
theorem executeRedirect_of_isBranch (h : isBranch s.de.ctrl = true) :
    executeRedirect k s =
      if branchTaken s.de.ctrl (fuCall k s).2 = s.de.predTaken then none
      else some (actualNext s.de.pc s.de.imm16 (branchTaken s.de.ctrl (fuCall k s).2)) := by
  simp [executeRedirect, h, isJump_of_isBranch h]

theorem executeRedirect_of_no_transfer (hjump : isJump s.de.ctrl = false) (hbranch : isBranch s.de.ctrl = false) :
    executeRedirect k s = none := by
  simp [executeRedirect, hjump, hbranch]

theorem executePtUpd_of_not_isBranch (h : isBranch s.de.ctrl = false) : executePtUpd k s = none := by
  simp [executePtUpd, h]

end

/-- Settles O18, by the class of the word in execute. -/
theorem controlTransfersResolve : Obligations.ControlTransfersResolve := by
  unfold Obligations.ControlTransfersResolve
  intro k s c x z taken
  have hstage (hvalid : s.de.valid = true) : x = ⟨executeEm k s, executeRedirect k s, executePtUpd k s⟩ :=
    executeStage_of_valid k hvalid
  refine ⟨fun hvalid hbits => ?jump, fun hvalid hjump hjr hbits => ?branch, fun h => ?neither⟩
  case jump =>
    have hjump : isJump s.de.ctrl = true := (isJump_iff _).2 hbits
    rw [hstage hvalid]
    exact ⟨executeRedirect_of_isJump k hjump, executePtUpd_of_not_isBranch k (isBranch_of_isJump hjump)⟩
  case branch =>
    have hbranch : isBranch s.de.ctrl = true := (isBranch_iff _).2 ⟨hjump, hjr, hbits⟩
    have hredirect : x.redirect =
        if taken = s.de.predTaken then none else some (actualNext s.de.pc s.de.imm16 taken) := by
      simp only [taken, z, hstage hvalid]
      exact executeRedirect_of_isBranch k hbranch
    rw [hredirect]
    refine ⟨fun heq => if_pos heq, fun htaken hpred => ?_, fun htaken hpred => ?_⟩
    · rw [htaken, hpred]
      rfl
    · rw [htaken, hpred]
      rfl
  case neither =>
    obtain hvalid | ⟨hvalid, hjump, hjr, hbeq, hbne⟩ :
        s.de.valid = false ∨ s.de.valid = true ∧ c.jump = false ∧ c.jr = false ∧ c.branch = false ∧ c.bne = false := by
      cases hv : s.de.valid with
      | false => exact .inl rfl
      | true => exact .inr ⟨rfl, h.resolve_left (by simp [hv])⟩
    · have hbubble : x = ⟨.bubble, none, none⟩ := executeStage_of_invalid k hvalid
      rw [hbubble]
      exact ⟨rfl, rfl⟩
    · have hnojump : isJump s.de.ctrl = false := by simp [isJump, c, hjump, hjr]
      have hnobranch : isBranch s.de.ctrl = false := by simp [isBranch, c, hbeq, hbne]
      rw [hstage hvalid]
      exact ⟨executeRedirect_of_no_transfer k hnojump hnobranch, executePtUpd_of_not_isBranch k hnobranch⟩

/-! ### The predictor update (R210) -/

/-- The cycle trains a counter: no data stall, prediction enabled, and a branch in execute. -/
def State.trains (s : State) : Prop :=
  s.stalls = false ∧ s.cfg.predEn = true ∧ s.de.valid = true ∧ isBranch s.de.ctrl = true

/-- An update changes the counter it names and no other. -/
theorem getD_applyUpd_some (i : Nat) (taken : Bool) {pt : List Counter} {j : Nat} (hj : j < pt.length) :
    (applyUpd (some (i, taken)) pt).getD j 0 = if j = i then bump (pt.getD j 0) taken else pt.getD j 0 := by
  by_cases h : j = i
  · subst h
    simp [applyUpd, hj]
  · simp [applyUpd, h, Ne.symm h]

section
variable {k : Collaborators} {s t : State} (hnext : coreCycle k s = .next t)
include hnext

/-- A cycle that trains updates the branch's own counter with its outcome. -/
theorem pt_of_trains (h : s.trains) :
    t.pt = applyUpd (some (ptIndex s.pt s.de.pc, branchTaken s.de.ctrl (executeStage k s).em.zero)) s.pt := by
  obtain ⟨hs, hen, hvalid, hbranch⟩ := h
  rw [coreCycle_of_flow hnext hs, executeStage_of_valid k hvalid]
  simp [executePtUpd, executeEm, hen, hbranch]

/-- Every other cycle leaves the table as it was. -/
theorem pt_of_not_trains (h : ¬s.trains) : t.pt = s.pt := by
  cases hs : s.stalls with
  | true => rw [coreCycle_of_stall hnext hs]
  | false =>
    rw [coreCycle_of_flow hnext hs]
    cases hvalid : s.de.valid with
    | false => rw [executeStage_of_invalid k hvalid]; rfl
    | true =>
      have hupd : executePtUpd k s = none := by simpa [executePtUpd, State.trains, hs, hvalid] using h
      rw [executeStage_of_valid k hvalid, hupd]
      rfl

end

/-- Settles O19, by whether the cycle trains, and then by whether the counter is the branch's own. -/
theorem branchesTrainTheirCounter : Obligations.BranchesTrainTheirCounter := by
  unfold Obligations.BranchesTrainTheirCounter
  intro k s t hnext c branch z taken
  have htrains : s.trains ↔ s.stalls = false ∧ s.cfg.predEn = true ∧ branch := by
    rw [State.trains, isBranch_iff]
  by_cases h : s.trains
  · obtain ⟨hs, hen, hbranch⟩ := htrains.1 h
    rw [pt_of_trains hnext h]
    refine ⟨applyUpd_length _ _, fun j hj => ?_⟩
    rw [getD_applyUpd_some _ _ hj]
    by_cases hown : j = ptIndex s.pt s.de.pc
    · rw [if_pos hown, if_pos ⟨hs, hen, hbranch, hown⟩, bump_val]
      rfl
    · rw [if_neg hown, if_neg fun ⟨_, _, _, hj⟩ => hown hj]
  · rw [pt_of_not_trains hnext h]
    exact ⟨rfl, fun j _ => by rw [if_neg fun ⟨hs, hen, hbranch, _⟩ => h (htrains.2 ⟨hs, hen, hbranch⟩)]⟩

end Sys2Proof.Machine

/-! The memory stage, writeback and retirement (45_memory_writeback.md): the data request, load extension, what MW
latches, the one register write of a cycle, and how data misses shift a run. -/

namespace Sys2Proof.Machine

/-! ### The memory stage (R222 to R228) -/

section
variable {s : State}

/-- A valid instruction with an enable makes an access (R223). -/
theorem dportRequest_of_access (hvalid : s.em.valid = true)
    (haccess : s.em.ctrl.memRead = true ∨ s.em.ctrl.memWrite = true) :
    dportRequest s =
      some ⟨s.em.aluResult, widthOf s.em.ctrl, s.em.ctrl.memRead, s.em.ctrl.memWrite, s.em.storeVal⟩ := by
  simp [dportRequest, hvalid, haccess]

/-- A bubble, and an instruction with neither enable, makes none (R223). -/
theorem dportRequest_of_no_access
    (h : s.em.valid = false ∨ s.em.ctrl.memRead = false ∧ s.em.ctrl.memWrite = false) : dportRequest s = none := by
  obtain hvalid | ⟨hread, hwrite⟩ := h
  · simp [dportRequest, hvalid]
  · simp [dportRequest, hread, hwrite]

theorem memStall_of_no_request (h : dportRequest s = none) (ready : Bool) : memStall s ready = false := by
  simp [memStall, h]

end

/-- Settles O33, by whether EM makes an access. -/
theorem dataPortRequest : Obligations.DataPortRequest := by
  unfold Obligations.DataPortRequest
  intro s c width
  refine ⟨dportRequest_of_access, fun h => ?_⟩
  have hnone := dportRequest_of_no_access h
  exact ⟨hnone, memStall_of_no_request hnone⟩

section
variable {c : Ctrl} (rData : Word)

theorem loadedValue_of_no_read (h : c.memRead = false) : loadedValue c rData = 0#32 := by
  simp [loadedValue, h]

theorem loadedValue_of_byte (hread : c.memRead = true) (hbyte : c.byte = true) :
    loadedValue c rData = (rData.setWidth 8).signExtend 32 := by
  simp [loadedValue, widthOf, hread, hbyte]

theorem loadedValue_of_half (hread : c.memRead = true) (hbyte : c.byte = false) (hhalf : c.half = true) :
    loadedValue c rData = (rData.setWidth 16).signExtend 32 := by
  simp [loadedValue, widthOf, hread, hbyte, hhalf]

theorem loadedValue_of_word (hread : c.memRead = true) (hbyte : c.byte = false) (hhalf : c.half = false) :
    loadedValue c rData = rData := by
  simp [loadedValue, widthOf, hread, hbyte, hhalf]

/-- The low `n` bits of a datum, sign-extended, are its residue nearest 0. -/
theorem signExtend_setWidth_toInt {n : Nat} (h : n ≤ 32) :
    ((rData.setWidth n).signExtend 32).toInt = Int.bmod rData.toNat (2 ^ n) := by
  rw [BitVec.toInt_signExtend_of_le h, BitVec.toInt_setWidth]

end

/-- Settles O34, by the width of the access. -/
theorem loadedDataIsSignExtended : Obligations.LoadedDataIsSignExtended := by
  unfold Obligations.LoadedDataIsSignExtended
  intro c rData
  refine ⟨loadedValue_of_no_read rData, fun hread hbyte => ?byte, fun hread hbyte hhalf => ?half,
    loadedValue_of_word rData⟩
  case byte =>
    rw [loadedValue_of_byte rData hread hbyte]
    exact signExtend_setWidth_toInt rData (by decide)
  case half =>
    rw [loadedValue_of_half rData hread hbyte hhalf]
    exact signExtend_setWidth_toInt rData (by decide)

/-- The value loaded in a cycle is made of the bytes at EM's address, whatever else the access does (R225, R227). -/
theorem loadedValue_answers {s : State} (hvalid : s.em.valid = true) :
    loadedValue s.em.ctrl (answers s).rData =
      if s.em.ctrl.memRead then
        loadedValue s.em.ctrl (memRead s.cfg.endian s.mem s.em.aluResult (widthOf s.em.ctrl))
      else 0#32 := by
  cases hread : s.em.ctrl.memRead with
  | false => exact loadedValue_of_no_read _ hread
  | true =>
    rw [answers_rData_of_load hvalid hread]
    rfl

/-- Settles O35: MW takes the memory stage's answer in every cycle without a data stall. -/
theorem memoryStageOutput : Obligations.MemoryStageOutput := by
  unfold Obligations.MemoryStageOutput
  intro k s t hnext hs c
  have hmw : t.mw = memoryOut s.em (answers s).rData := by rw [coreCycle_of_flow hnext hs, advanced_mw]
  rw [hmw, memoryOut]
  constructor
  · intro hbubble
    simp [hbubble]
  · intro hvalid
    rw [if_pos hvalid, loadedValue_answers hvalid]
    exact ⟨rfl, rfl, rfl, rfl, rfl⟩

/-! ### Writeback (R233) -/

/-- Settles O39: a data stall keeps the registers, and without one the writeback of MW is the only write. -/
theorem writebackWritesOneRegister : Obligations.WritebackWritesOneRegister := by
  unfold Obligations.WritebackWritesOneRegister
  intro k s t hnext r
  cases hs : s.stalls with
  | true =>
    rw [coreCycle_of_stall hnext hs]
    simp
  | false =>
    rw [coreCycle_of_flow hnext hs, advanced_rf, readReg_writeBack]
    simp

/-! ### Runs and the wait counters (R34) -/

section
variable {s t : State} (a b : Nat)

theorem step_next_withWaits (h : step s = .next t) : ∃ c d, step (s.withWaits a b) = .next (t.withWaits c d) := by
  rw [stepIsTheCoreCycle] at h ⊢
  exact coreCycle_next_withWaits a b h

theorem step_fault_withWaits {f : Fault} (h : step s = .fault f) : step (s.withWaits a b) = .fault f := by
  rw [stepIsTheCoreCycle] at h ⊢
  exact coreCycle_fault_withWaits a b h

/-- A run that goes on does so whatever the wait counters hold at its start, and ends with a difference in them alone. -/
theorem run_withWaits {n : Nat} (h : core.run n s = .next t) :
    ∃ c d, core.run n (s.withWaits a b) = .next (t.withWaits c d) := by
  induction n generalizing s a b with
  | zero =>
    cases h
    exact ⟨a, b, rfl⟩
  | succ n ih =>
    obtain ⟨u, hu, ht⟩ := run_succ_eq_next h
    obtain ⟨a', b', hu'⟩ := step_next_withWaits a b hu
    rw [run_succ_of_next hu']
    exact ih a' b' ht

theorem retirements_of_fault {f : Fault} (h : step s = .fault f) (n : Nat) : retirements n s = [] := by
  cases n with
  | zero => rfl
  | succ n => simp only [retirements, h]

/-- A step either goes on or stops: it never refuses (60_exceptions.md R301). -/
theorem step_next_or_fault (s : State) : (∃ t, step s = .next t) ∨ ∃ f, step s = .fault f := by
  obtain ⟨x, hx⟩ := step_eq_cycle s
  rw [hx]
  cases haligned : s.accessesAligned with
  | true => exact .inl ⟨_, cycle_of_aligned x haligned⟩
  | false => exact .inr (cycle_faults_iff.2 haligned)

/-- What a run retires does not depend on the wait counters. -/
theorem retirements_withWaits (n : Nat) (s : State) : retirements n (s.withWaits a b) = retirements n s := by
  induction n generalizing s a b with
  | zero => rfl
  | succ n ih =>
    obtain ⟨t, ht⟩ | ⟨f, hf⟩ := step_next_or_fault s
    · obtain ⟨c, d, ht'⟩ := step_next_withWaits a b ht
      rw [retirements_succ_of_next ht', retirements_succ_of_next ht, ih]
      rfl
    · rw [retirements_of_fault (step_fault_withWaits a b hf), retirements_of_fault hf]

end

/-! ### Data misses (R237) -/

/-- The state has an aligned data access in EM, which the schedule answers not ready for the cycles of `l`, before
`later`. -/
structure State.Misses (s : State) (l later : List PortReady) : Prop where
  request : (dportRequest s).isSome = true
  aligned : dataMisaligned s = none
  notReady : ∀ a ∈ l, a.dReady = false
  sched : s.ports.sched = l ++ later

/-- The state `k` data misses later, with `sched` still to come (40_cycle.md R125). -/
def State.afterMisses (s : State) (k : Nat) (sched : List PortReady) : State :=
  { s with memWait := s.memWait + k, ports := { s.ports with sched := sched } }

theorem afterMisses_add (s : State) (j k : Nat) (sched sched' : List PortReady) :
    (s.afterMisses j sched).afterMisses k sched' = s.afterMisses (j + k) sched' := by
  simp [State.afterMisses, Nat.add_assoc]

section
variable {s : State} {a : PortReady} {l later : List PortReady}

theorem State.Misses.stalls (h : s.Misses (a :: l) later) : s.stalls = true := by
  have hready : a.dReady = false := h.notReady a List.mem_cons_self
  simp [State.stalls, memStall, Readiness.now, h.sched, h.request, hready]

/-- The stall keeps the fetch from being issued, so neither access is misaligned. -/
theorem State.Misses.accessesAligned (h : s.Misses (a :: l) later) : s.accessesAligned = true := by
  refine accessesAligned_iff.2 ⟨?_, h.aligned⟩
  rw [← Bool.not_eq_true, fetchMisaligned_iff, h.stalls]
  simp

/-- One miss: `mem_wait` and the schedule move on. -/
theorem State.Misses.step (h : s.Misses (a :: l) later) : step s = .next (s.afterMisses 1 (l ++ later)) := by
  obtain ⟨x, hx⟩ := step_eq_cycle s
  have hlater : s.ports.later = { s.ports with sched := l ++ later } := by rw [Readiness.later, h.sched]; rfl
  rw [hx, cycle_of_stall _ x h.accessesAligned h.stalls, hlater]
  rfl

/-- The access is issued again, unchanged, with one miss less to come. -/
theorem State.Misses.tail (h : s.Misses (a :: l) later) : (s.afterMisses 1 (l ++ later)).Misses l later where
  request := h.request
  aligned := h.aligned
  notReady x hx := h.notReady x (List.mem_cons_of_mem a hx)
  sched := rfl

theorem retires_of_stall (hs : s.stalls = true) : retires s s.ports.now.dReady = none := by
  rw [State.stalls] at hs
  simp [retires, hs]

theorem State.Misses.afterMisses_nil (h : s.Misses [] later) : s.afterMisses 0 later = s := by
  rw [State.afterMisses, ← List.nil_append later, ← h.sched]
  rfl

theorem State.Misses.run (h : s.Misses l later) (n : Nat) :
    core.run (l.length + n) s = core.run n (s.afterMisses l.length later) := by
  induction l generalizing s with
  | nil => rw [List.length_nil, Nat.zero_add, h.afterMisses_nil]
  | cons a l ih =>
    rw [List.length_cons, Nat.succ_add, run_succ_of_next h.step, ih h.tail, afterMisses_add, Nat.add_comm 1]

/-- Nothing retires during the misses (R235). -/
theorem State.Misses.retirements (h : s.Misses l later) (n : Nat) :
    retirements (l.length + n) s = retirements n (s.afterMisses l.length later) := by
  induction l generalizing s with
  | nil => rw [List.length_nil, Nat.zero_add, h.afterMisses_nil]
  | cons a l ih =>
    rw [List.length_cons, Nat.succ_add, retirements_succ_of_next h.step, retires_of_stall h.stalls, ih h.tail,
      afterMisses_add, Nat.add_comm 1]
    rfl

end

/-- Settles O42: the misses only raise `mem_wait`, by induction on them, and the run from there steers by no wait
counter. -/
theorem dataMissShiftsTheRun : Obligations.DataMissShiftsTheRun := by
  unfold Obligations.DataMissShiftsTheRun
  intro s l later haligned hrequest hnotReady hsched ready
  have hmisses : s.Misses l later := ⟨hrequest, (accessesAligned_iff.1 haligned).2, hnotReady, hsched⟩
  have hready : s.afterMisses l.length later = ready.withWaits s.fetchWait (s.memWait + l.length) := rfl
  refine ⟨hmisses.run 0, fun n => ⟨?_, fun t ht => ?_⟩⟩
  · rw [hmisses.retirements, hready, retirements_withWaits]
  · rw [hmisses.run, hready]
    exact run_withWaits _ _ ht

end Sys2Proof.Machine

/-! The instructions (46_instructions.md): what the instruction in execute makes of the settled view, its refinement of
sequential execution, step by step and over whole runs, and each instruction's result and frame. -/

namespace Sys2Proof.Machine

/-! ### The settled view after a flowing cycle -/

theorem step_eq_next_iff {s t : State} : step s = .next t ↔ coreCycle referenceCfg s = .next t := by
  rw [stepIsTheCoreCycle]

theorem exec_eq_next {s t : State} {i : Instr} (hi : inExecute s.de = some i)
    (hnext : coreCycle referenceCfg s = .next t) : exec i s = .next t :=
  (coreCycle_of_inExecute hi).symm.trans hnext

theorem em_of_cycle {dec : Word → Ctrl} {s t : State} {x : ExecuteOut} (h : cycle dec s x = .next t)
    (hs : s.stalls = false) : t.em = x.em := by
  obtain ⟨-, rfl⟩ := cycle_eq_next.1 h
  rw [cycleNext_of_flow _ _ _ hs]
  rfl

theorem State.Inv.settledMem_wf {s : State} (hinv : s.Inv) : s.settledMem.wf = true := by
  rw [State.settledMem]
  split
  · exact written_wf _ _ hinv.memCanonical
  · exact hinv.memCanonical

section
variable {s t : State} {em : ExecuteMemory} (h : s.Advances t) (hem : t.em = em)
include h hem

theorem State.Advances.settledRf_of_no_write (hwrite : em.ctrl.regWrite = false) : t.settledRf = s.settledRf := by
  subst hem
  rw [h.settledRf_eq, memoryOut, if_pos h.moved.1]
  simp [writeBack, hwrite]

/-- The write of an instruction that does not load is its result. -/
theorem State.Advances.settledRf_of_result (hwrite : em.ctrl.regWrite = true) (hmtr : em.ctrl.memToReg = false) :
    t.settledRf = writeReg s.settledRf (dest em.ctrl em.rt em.rd) em.aluResult := by
  subst hem
  rw [h.settledRf_eq, memoryOut, if_pos h.moved.1]
  simp [writeBack, hwrite, hmtr]

/-- The write of a load is read from memory with the older store done. -/
theorem State.Advances.settledRf_of_load (hwrite : em.ctrl.regWrite = true) (hmtr : em.ctrl.memToReg = true)
    (hread : em.ctrl.memRead = true) :
    t.settledRf = writeReg s.settledRf (dest em.ctrl em.rt em.rd)
      (loadedValue em.ctrl (memRead s.cfg.endian s.settledMem em.aluResult (widthOf em.ctrl))) := by
  subst hem
  rw [h.settledRf_eq, answers_rData_of_load h.moved.1 hread, h.memory, h.options, memoryOut, if_pos h.moved.1]
  simp [writeBack, hwrite, hmtr]

theorem State.Advances.settledMem_of_no_store (hwrite : em.ctrl.memWrite = false) : t.settledMem = s.settledMem := by
  subst hem
  cases hread : t.em.ctrl.memRead with
  | false => rw [settledMem_of_no_request (dportRequest_of_no_access (.inr ⟨hread, hwrite⟩)), h.memory]
  | true =>
    rw [settledMem_of_request (dportRequest_of_access h.moved.1 (.inl hread)), written_of_no_store _ _ hwrite, h.memory]

theorem State.Advances.settledMem_of_store (hwrite : em.ctrl.memWrite = true) :
    t.settledMem = memWrite s.cfg.endian s.settledMem em.aluResult (widthOf em.ctrl) em.storeVal := by
  subst hem
  rw [settledMem_of_request (dportRequest_of_access h.moved.1 (.inr hwrite)), written_of_store _ _ hwrite, h.memory,
    h.options]

end

/-! ### The next word to execute -/

theorem nextPc_of_valid {s : State} (h : s.de.valid = true) : s.nextPc = s.de.pc := if_pos h

theorem nextPc_of_invalid {s : State} (h : s.de.valid = false) : s.nextPc = s.fromFetch := by
  simp [State.nextPc, h]

/-- A bundle of the table with a branch bit is a branch, and extends its offset with the sign. -/
theorem isBranch_of_bits : ∀ c ∈ referenceBundles, c.branch = true ∨ c.bne = true →
    isBranch c = true ∧ c.zext = false := by
  decide

theorem State.Inv.de_ctrl_mem {s : State} (hinv : s.Inv) (hvalid : s.de.valid = true) : s.de.ctrl ∈ referenceBundles :=
  hinv.de_ctrl hvalid ▸ referenceDec_mem _

/-- Only a branch is predicted taken. -/
theorem State.Inv.predTaken_of_no_branch {s : State} (hinv : s.Inv) (hvalid : s.de.valid = true)
    (hbranch : isBranch s.de.ctrl = false) : s.de.predTaken = false := by
  rw [← Bool.not_eq_true]
  intro hpred
  obtain ⟨hbranch', -⟩ := isBranch_of_bits _ (hinv.de_ctrl_mem hvalid) (hinv.dePredicted hpred)
  simp [hbranch'] at hbranch

theorem redirect_of_predicted_branch {k : Collaborators} {s : State} (hvalid : s.de.valid = true)
    (hbranch : isBranch s.de.ctrl = true) (hhit : branchTaken s.de.ctrl (fuCall k s).2 = s.de.predTaken) :
    (executeStage k s).redirect = none := by
  rw [executeStage_of_valid k hvalid]
  exact (executeRedirect_of_isBranch k hbranch).trans (if_pos hhit)

section
variable {k : Collaborators} {s t : State} (hnext : coreCycle k s = .next t) (hs : s.stalls = false)
include hnext hs

/-- A redirect discards the two younger slots (44_control_transfer.md R206). -/
theorem transfers_of_redirect {target : Word} (hredirect : (executeStage k s).redirect = some target) :
    s.Transfers t target := by
  obtain ⟨hpc, hfd, hde, -⟩ := front_of_flow hnext hs (hredirect ▸ frontEnd_of_redirect k.dec (answers s) target)
  refine ⟨hpc, hfd, hde, ?_⟩
  rw [nextPc_of_invalid (by rw [hde, de_bubble_valid]), State.fromFetch, hfd, hpc]
  rfl

/-- Without a redirect and a load-use stall DE takes what decode made, whether the fetch hits or misses. -/
theorem de_of_no_redirect (hredirect : (executeStage k s).redirect = none) (hu : loadUse s = false) :
    t.de = decodeOut k.dec s := by
  cases hready : (answers s).iReady with
  | true =>
    obtain ⟨-, -, hde, -⟩ := front_of_flow hnext hs (hredirect ▸ frontEnd_of_hit k.dec _ hu hready)
    exact hde
  | false =>
    obtain ⟨-, -, hde, -⟩ := front_of_flow hnext hs (hredirect ▸ frontEnd_of_miss k.dec _ hu hready)
    exact hde

variable (hvalid : s.de.valid = true)
include hvalid

/-- A branch whose outcome is not the predicted one. -/
theorem transfers_of_branch (hbranch : isBranch s.de.ctrl = true)
    (hmiss : branchTaken s.de.ctrl (fuCall k s).2 ≠ s.de.predTaken) :
    s.Transfers t (actualNext s.de.pc s.de.imm16 (branchTaken s.de.ctrl (fuCall k s).2)) := by
  refine transfers_of_redirect hnext hs ?_
  rw [executeStage_of_valid k hvalid]
  exact (executeRedirect_of_isBranch k hbranch).trans (if_neg hmiss)

variable (hinv : s.Inv)
include hinv

theorem nextPc_of_no_transfer (hjump : isJump s.de.ctrl = false) (hbranch : isBranch s.de.ctrl = false) :
    t.nextPc = s.de.pc + 4#32 := by
  have hredirect : (executeStage k s).redirect = none := by
    rw [executeStage_of_valid k hvalid]
    exact executeRedirect_of_no_transfer k hjump hbranch
  rw [nextPc_of_no_redirect hnext hs hredirect, hinv.onPath.fromDe hvalid, DecodeExecute.successor,
    hinv.predTaken_of_no_branch hvalid hbranch]
  rfl

/-- A branch goes where its outcome says, predicted or not (R205). -/
theorem nextPc_of_branch (hbranch : isBranch s.de.ctrl = true) :
    t.nextPc = actualNext s.de.pc s.de.imm16 (branchTaken s.de.ctrl (fuCall k s).2) := by
  by_cases hhit : branchTaken s.de.ctrl (fuCall k s).2 = s.de.predTaken
  · rw [nextPc_of_no_redirect hnext hs (redirect_of_predicted_branch hvalid hbranch hhit), hinv.onPath.fromDe hvalid,
      hhit]
    rfl
  · exact (transfers_of_branch hnext hs hvalid hbranch hhit).next

end

/-! ### An instruction that transfers no control -/

/-- The operands of the word in execute are its registers in the settled view. -/
theorem operands_of_holds {s : State} {w : Word} {c : Ctrl} (hinv : s.Inv) (h : s.de.Holds w c) :
    operandA s (rsOf w) = readReg s.settledRf (rsOf w) ∧ operandB s (rtOf w) = readReg s.settledRf (rtOf w) := by
  obtain ⟨hrs, hrt, -⟩ := operandsAreTheSettledRegisters s hinv h.valid
  rw [h.rs] at hrs
  rw [h.rt] at hrt
  exact ⟨hrs, hrt⟩

theorem operands_of_wordI {s : State} {op : BitVec 6} {rs rt : Reg} {imm : BitVec 16} {c : Ctrl} (hinv : s.Inv)
    (h : s.de.Holds (wordI op rs rt imm) c) :
    operandA s rs = readReg s.settledRf rs ∧ operandB s rt = readReg s.settledRf rt := by
  simpa using operands_of_holds hinv h

theorem operands_of_wordR {s : State} {rs rt rd : Reg} {sa : BitVec 5} {f : BitVec 6} {c : Ctrl} (hinv : s.Inv)
    (h : s.de.Holds (wordR rs rt rd sa f) c) :
    operandA s rs = readReg s.settledRf rs ∧ operandB s rt = readReg s.settledRf rt := by
  simpa using operands_of_holds hinv h

/-- The word in execute moves on as `em`, trains nothing, and the next word follows. -/
structure State.Passes (s t : State) (em : ExecuteMemory) : Prop where
  advances : s.Advances t
  em : t.em = em
  predictor : t.pt = s.pt
  next : t.nextPc = s.de.pc + 4#32

section
variable {s t : State} (hinv : s.Inv) (hnext : coreCycle referenceCfg s = .next t) (hs : s.stalls = false)
include hinv hnext hs

theorem passes_of_plain {w : Word} {c : Ctrl} {em : ExecuteMemory} (h : s.de.Holds w c) (hjump : isJump c = false)
    (hbranch : isBranch c = false) (hrun : coreCycle referenceCfg s = runPlain s em) : s.Passes t em := by
  rw [← h.ctrl] at hjump hbranch
  exact ⟨advances_of_flow hnext hs h.valid, em_of_cycle (hrun.symm.trans hnext) hs,
    pt_of_not_trains hnext (by simp [State.trains, hbranch]),
    nextPc_of_no_transfer hnext hs h.valid hinv hjump hbranch⟩

section
variable {rs rt rd : Reg} {sa : BitVec 5} {f : BitVec 6}

theorem passes_of_rAlu (h : s.de.Holds (wordR rs rt rd sa f) .rAlu) :
    let v := aluByFunct f (readReg s.settledRf rs) (readReg s.settledRf rt)
    s.Passes t (emOut s .rAlu rt rd (immR rd sa f) v v) := by
  obtain ⟨hrs, hrt⟩ := operands_of_wordR hinv h
  rw [← hrs, ← hrt]
  exact passes_of_plain hinv hnext hs h rfl rfl (coreCycle_of_rAlu h)

theorem passes_of_rShift (h : s.de.Holds (wordR rs rt rd sa f) .rShift) :
    let v := aluByFunct f (zext5 sa) (readReg s.settledRf rt)
    s.Passes t (emOut s .rShift rt rd (immR rd sa f) v v) := by
  rw [← (operands_of_wordR hinv h).2]
  exact passes_of_plain hinv hnext hs h rfl rfl (coreCycle_of_rShift h)

end

section
variable {op : BitVec 6} {rs rt : Reg} {imm : BitVec 16} {c : Ctrl}

theorem passes_of_addsImm (h : s.de.Holds (wordI op rs rt imm) c) (hc : c ∈ Ctrl.addsImm) :
    let v := readReg s.settledRf rs + sext16 imm
    s.Passes t (emOut s c rt (rdOfImm imm) imm v v) := by
  obtain ⟨hjump, hbranch, -⟩ := addsImm_bits c hc
  rw [← (operands_of_wordI hinv h).1]
  exact passes_of_plain hinv hnext hs h hjump hbranch (coreCycle_of_addsImm h hc)

theorem passes_of_setImm (h : s.de.Holds (wordI op rs rt imm) .setImm) :
    let v := aluByOpcode op (readReg s.settledRf rs) (sext16 imm)
    s.Passes t (emOut s .setImm rt (rdOfImm imm) imm v v) := by
  rw [← (operands_of_wordI hinv h).1]
  exact passes_of_plain hinv hnext hs h rfl rfl (coreCycle_of_setImm h)

theorem passes_of_logicImm (h : s.de.Holds (wordI op rs rt imm) .logicImm) :
    let v := aluByOpcode op (readReg s.settledRf rs) (zext16 imm)
    s.Passes t (emOut s .logicImm rt (rdOfImm imm) imm v v) := by
  rw [← (operands_of_wordI hinv h).1]
  exact passes_of_plain hinv hnext hs h rfl rfl (coreCycle_of_logicImm h)

end
end

/-! ### Refinement of sequential execution (46_instructions.md R284) -/

/-- The step from `s` to `t` does what the operation line of `i` says; where that line has a misaligned access, the next
step stops (notes/assumptions 4). -/
def State.Refines (s t : State) (i : Instr) : Prop :=
  seqExec s.cfg.endian i s.settled = some t.settled ∨
    seqExec s.cfg.endian i s.settled = none ∧ ∃ f, step t = .fault f

theorem settled_of_valid {s : State} (hvalid : s.de.valid = true) :
    s.settled = ⟨s.de.pc, s.settledRf, s.settledMem⟩ := by
  rw [State.settled, nextPc_of_valid hvalid]

theorem refines_of_seqExec {s t : State} {i : Instr} {pc : Word} {rf : RegFile} {mem : Memory}
    (hvalid : s.de.valid = true) (hpc : t.nextPc = pc) (hrf : t.settledRf = rf) (hmem : t.settledMem = mem)
    (h : seqExec s.cfg.endian i ⟨s.de.pc, s.settledRf, s.settledMem⟩ = some ⟨pc, rf, mem⟩) : s.Refines t i := by
  rw [← settled_of_valid hvalid, ← hpc, ← hrf, ← hmem] at h
  exact .inl h

/-! ### Instructions that write the FU's result -/

/-- The bundles of the instructions whose register write is the FU's result. -/
def Ctrl.writesResult : List Ctrl := [.rAlu, .rShift, .addImm, .setImm, .logicImm]

theorem writesResult_bits : ∀ c ∈ Ctrl.writesResult,
    c.regWrite = true ∧ c.memToReg = false ∧ c.memWrite = false := by
  decide

/-- The instruction goes on, writes `v` to `rd` and changes nothing else, and its zero flag says whether `v` is 0. -/
def State.Gives (s : State) (i : Instr) (rd : Reg) (v : Word) : Prop :=
  ∃ t, exec i s = .next t ∧ s.Writes t rd v ∧ t.em.zero = decide (v = 0#32)

section
variable {s t : State} {c : Ctrl} {rt rd : Reg} {imm : BitVec 16} {v : Word} {i : Instr}
  (h : s.Passes t (emOut s c rt rd imm v v)) (hc : c ∈ Ctrl.writesResult)
include h hc

theorem State.Passes.settledRf : t.settledRf = writeReg s.settledRf (dest c rt rd) v := by
  obtain ⟨hwrite, hmtr, -⟩ := writesResult_bits c hc
  exact h.advances.settledRf_of_result h.em hwrite hmtr

theorem State.Passes.settledMem : t.settledMem = s.settledMem := by
  obtain ⟨-, -, hstore⟩ := writesResult_bits c hc
  exact h.advances.settledMem_of_no_store h.em hstore

theorem State.Passes.writes : s.Writes t (dest c rt rd) v :=
  ⟨h.advances, fun r => by rw [h.settledRf hc, readReg_writeReg], fun _ => by rw [h.settledMem hc], h.predictor,
    h.next⟩

theorem State.Passes.refines (hvalid : s.de.valid = true)
    (hseq : seqExec s.cfg.endian i ⟨s.de.pc, s.settledRf, s.settledMem⟩ =
      some ⟨s.de.pc + 4#32, writeReg s.settledRf (dest c rt rd) v, s.settledMem⟩) : s.Refines t i :=
  refines_of_seqExec hvalid h.next (h.settledRf hc) (h.settledMem hc) hseq

theorem State.Passes.gives (hi : inExecute s.de = some i) (hnext : coreCycle referenceCfg s = .next t) :
    s.Gives i (dest c rt rd) v :=
  ⟨t, exec_eq_next hi hnext, h.writes hc, congrArg ExecuteMemory.zero h.em⟩

end

/-! ### Loads and stores -/

theorem aligned_eq_false_iff {a : Word} {w : Width} : aligned a w = false ↔ a.toNat % w.bytes ≠ 0 := by
  simp [aligned]

/-- A misaligned request stops the model in the cycle that issues it. -/
theorem step_faults_of_misaligned {t : State} {r : PortRequest} (hr : dportRequest t = some r)
    (h : r.addr.toNat % r.width.bytes ≠ 0) : ∃ f, step t = .fault f := by
  obtain ⟨x, hx⟩ := step_eq_cycle t
  rw [hx, cycle_faults_iff, accessesAligned_eq_false_iff]
  exact .inr ⟨r, dataMisaligned_eq_some.2 ⟨hr, h⟩⟩

/-- The bundles of the loads. -/
def Ctrl.loads : List Ctrl := [.loadByte, .loadHalf, .loadWord]

/-- The bundles of the stores. -/
def Ctrl.stores : List Ctrl := [.storeByte, .storeHalf, .storeWord]

theorem loads_bits : ∀ c ∈ Ctrl.loads, c ∈ Ctrl.addsImm ∧ c.memRead = true ∧ c.memWrite = false ∧
    c.regWrite = true ∧ c.memToReg = true ∧ c.regdst = false ∧ c.link = false := by
  decide

theorem stores_bits : ∀ c ∈ Ctrl.stores, c ∈ Ctrl.addsImm ∧ c.memRead = false ∧ c.memWrite = true ∧
    c.regWrite = false := by
  decide

section
variable {s t : State} {c : Ctrl} {rt rd : Reg} {imm : BitVec 16} {ea : Word} {i : Instr}
  (h : s.Passes t (emOut s c rt rd imm ea ea))
include h

section
variable (hc : c ∈ Ctrl.loads)
include hc

theorem State.Passes.request_of_load : dportRequest t = some ⟨ea, widthOf c, true, false, operandB s rt⟩ := by
  obtain ⟨-, hread, hwrite, -⟩ := loads_bits c hc
  have hrequest := dportRequest_of_access h.advances.moved.1 (.inl (by rw [h.em]; exact hread))
  rw [hrequest, h.em]
  simp [emOut, hread, hwrite]

theorem State.Passes.settledRf_of_load :
    t.settledRf =
      writeReg s.settledRf rt (loadedValue c (memRead s.cfg.endian s.settledMem ea (widthOf c))) := by
  obtain ⟨-, hread, -, hwrite, hmtr, hregdst, hlink⟩ := loads_bits c hc
  have hdest : dest c rt rd = rt := by simp [dest, hregdst, hlink]
  exact hdest ▸ h.advances.settledRf_of_load h.em hwrite hmtr hread

theorem State.Passes.settledMem_of_load : t.settledMem = s.settledMem := by
  obtain ⟨-, -, hstore, -⟩ := loads_bits c hc
  exact h.advances.settledMem_of_no_store h.em hstore

theorem State.Passes.writes_of_load :
    s.Writes t rt (loadedValue c (memRead s.cfg.endian s.settledMem ea (widthOf c))) :=
  ⟨h.advances, fun r => by rw [h.settledRf_of_load hc, readReg_writeReg],
    fun _ => by rw [h.settledMem_of_load hc], h.predictor, h.next⟩

theorem State.Passes.refines_of_load (hvalid : s.de.valid = true)
    (hseq : seqExec s.cfg.endian i ⟨s.de.pc, s.settledRf, s.settledMem⟩ =
      (⟨s.de.pc, s.settledRf, s.settledMem⟩ : ArchState).loads s.cfg.endian rt ea (widthOf c) (loadedValue c)) :
    s.Refines t i := by
  cases haligned : aligned ea (widthOf c) with
  | true =>
    exact refines_of_seqExec hvalid h.next (h.settledRf_of_load hc) (h.settledMem_of_load hc)
      (hseq.trans (if_pos haligned))
  | false =>
    refine .inr ⟨?_, step_faults_of_misaligned (h.request_of_load hc) (aligned_eq_false_iff.1 haligned)⟩
    rw [settled_of_valid hvalid, hseq, ArchState.loads, if_neg (by simp [haligned])]

end

section
variable (hc : c ∈ Ctrl.stores)
include hc

theorem State.Passes.request_of_store : dportRequest t = some ⟨ea, widthOf c, false, true, operandB s rt⟩ := by
  obtain ⟨-, hread, hwrite, -⟩ := stores_bits c hc
  have hrequest := dportRequest_of_access h.advances.moved.1 (.inr (by rw [h.em]; exact hwrite))
  rw [hrequest, h.em]
  simp [emOut, hread, hwrite]

theorem State.Passes.settledRf_of_store : t.settledRf = s.settledRf := by
  obtain ⟨-, -, -, hwrite⟩ := stores_bits c hc
  exact h.advances.settledRf_of_no_write h.em hwrite

theorem State.Passes.settledMem_of_store :
    t.settledMem = memWrite s.cfg.endian s.settledMem ea (widthOf c) (operandB s rt) := by
  obtain ⟨-, -, hstore, -⟩ := stores_bits c hc
  exact h.advances.settledMem_of_store h.em hstore

theorem State.Passes.refines_of_store (hvalid : s.de.valid = true)
    (hseq : seqExec s.cfg.endian i ⟨s.de.pc, s.settledRf, s.settledMem⟩ =
      (⟨s.de.pc, s.settledRf, s.settledMem⟩ : ArchState).stores s.cfg.endian ea (widthOf c) (operandB s rt)) :
    s.Refines t i := by
  cases haligned : aligned ea (widthOf c) with
  | true =>
    exact refines_of_seqExec hvalid h.next (h.settledRf_of_store hc) (h.settledMem_of_store hc)
      (hseq.trans (if_pos haligned))
  | false =>
    refine .inr ⟨?_, step_faults_of_misaligned (h.request_of_store hc) (aligned_eq_false_iff.1 haligned)⟩
    rw [settled_of_valid hvalid, hseq, ArchState.stores, if_neg (by simp [haligned])]

end
end

/-! ### Jumps and branches -/

section
variable {s t : State} {w : Word} {c : Ctrl} (hnext : coreCycle referenceCfg s = .next t) (hs : s.stalls = false)
  (h : s.de.Holds w c)
include hnext hs h

theorem em_of_holds :
    t.em = emOut s c (rtOf w) (rdOf w) (imm16Of w) (fuResult s w c)
      (if c.link then s.de.pc + 8#32 else fuResult s w c) :=
  (em_of_flow hnext hs h.valid).trans (executeEm_of_holds h)

/-- A link is `pc + 8` (43_execute_forwarding.md R185). -/
theorem settledRf_of_link {rd : Reg} (hlink : c.link = true) (hwrite : c.regWrite = true) (hmtr : c.memToReg = false)
    (hdest : dest c (rtOf w) (rdOf w) = rd) : t.settledRf = writeReg s.settledRf rd (s.de.pc + 8#32) := by
  subst hdest
  have hem := em_of_holds hnext hs h
  rw [if_pos hlink] at hem
  exact (advances_of_flow hnext hs h.valid).settledRf_of_result hem hwrite hmtr

theorem settledRf_of_no_write (hwrite : c.regWrite = false) : t.settledRf = s.settledRf :=
  (advances_of_flow hnext hs h.valid).settledRf_of_no_write (em_of_holds hnext hs h) hwrite

theorem settledMem_of_no_store (hwrite : c.memWrite = false) : t.settledMem = s.settledMem :=
  (advances_of_flow hnext hs h.valid).settledMem_of_no_store (em_of_holds hnext hs h) hwrite

end

section
variable {s t : State} {w : Word} {c : Ctrl} (hnext : coreCycle referenceCfg s = .next t) (hjump : isJump c = true)
include hnext hjump

/-- A jump trains no counter. -/
theorem pt_of_jump (h : s.de.Holds w c) : t.pt = s.pt := by
  rw [← h.ctrl] at hjump
  exact pt_of_not_trains hnext (by simp [State.trains, isBranch_of_isJump hjump])

variable (hinv : s.Inv) (hs : s.stalls = false)
include hinv hs

/-- A jump always redirects, to a register of the settled view or to its concatenated target (R202). -/
theorem transfers_of_jump (h : s.de.Holds w c) :
    s.Transfers t (if c.jr then readReg s.settledRf (rsOf w) else jtarget s.de.pc (addr26Of w)) := by
  rw [← h.ctrl] at hjump
  refine transfers_of_redirect hnext hs ?_
  rw [executeStage_of_valid _ h.valid, ← (operands_of_holds hinv h).1, ← h.ctrl, ← h.rs, ← h.addr26]
  exact executeRedirect_of_isJump _ hjump

theorem transfers_of_wordJ {op : BitVec 6} {addr : BitVec 26} (hjr : c.jr = false) (h : s.de.Holds (wordJ op addr) c) :
    s.Transfers t (jtarget s.de.pc addr) := by
  simpa [hjr] using transfers_of_jump hnext hjump hinv hs h

theorem transfers_of_wordR {rs rt rd : Reg} {sa : BitVec 5} {f : BitVec 6} (hjr : c.jr = true)
    (h : s.de.Holds (wordR rs rt rd sa f) c) : s.Transfers t (readReg s.settledRf rs) := by
  simpa [hjr] using transfers_of_jump hnext hjump hinv hs h

end

/-- The zero flag of a difference says whether the operands are equal (R204). -/
theorem zeroFlag_sub (a b : Word) : zeroFlag (a - b) = decide (a = b) := by
  rw [zeroFlag, Bool.eq_iff_iff, beq_iff_eq, decide_eq_true_iff]
  exact sub_eq_zero

/-- The bundles of the branches. -/
def Ctrl.branches : List Ctrl := [.beqBundle, .bneBundle]

theorem branches_bits : ∀ c ∈ Ctrl.branches, isBranch c = true ∧ c.memRead = false ∧ c.memWrite = false ∧
    c.regWrite = false ∧ c.aluOp = 1#2 ∧ c.shift = false ∧ c.aluSrc = false := by
  decide

theorem branchTaken_beq : ∀ z, branchTaken .beqBundle z = z := by decide

theorem branchTaken_bne : ∀ z, branchTaken .bneBundle z = !z := by decide

/-- A branch with outcome `taken` and offset `imm`: where it goes, what it discards and what it trains (R205 to
R210). -/
structure State.Resolves (s t : State) (imm : BitVec 16) (taken : Bool) : Prop where
  next : t.nextPc = actualNext s.de.pc imm taken
  missed : taken ≠ s.de.predTaken → s.Transfers t (actualNext s.de.pc imm taken)
  predicted : taken = s.de.predTaken → t.de = decodeOut referenceDec s
  predictor : t.pt = if s.cfg.predEn then applyUpd (some (ptIndex s.pt s.de.pc, taken)) s.pt else s.pt

section
variable {s t : State} {op : BitVec 6} {rs rt : Reg} {imm : BitVec 16} {c : Ctrl} (hinv : s.Inv)
  (hnext : coreCycle referenceCfg s = .next t) (hs : s.stalls = false) (h : s.de.Holds (wordI op rs rt imm) c)
  (hc : c ∈ Ctrl.branches)
include hinv h hc

theorem fuCall_zero_of_branch :
    (fuCall referenceCfg s).2 = decide (readReg s.settledRf rs = readReg s.settledRf rt) := by
  obtain ⟨-, -, -, -, hop, hshift, hsrc⟩ := branches_bits c hc
  obtain ⟨hrs, hrt⟩ := operands_of_holds hinv h
  rw [fuCall_of_holds h, fuResult, hop, hshift, hsrc, hrs, hrt, rsOf_wordI, rtOf_wordI]
  exact zeroFlag_sub _ _

include hnext hs

theorem resolves_of_branch :
    s.Resolves t imm (branchTaken c (decide (readReg s.settledRf rs = readReg s.settledRf rt))) := by
  obtain ⟨hbranch, hread, -⟩ := branches_bits c hc
  rw [← h.ctrl] at hbranch hread
  have hload : loadUse s = false := by simp [loadUse, hread]
  have himm : s.de.imm16 = imm := h.imm16.trans (imm16Of_wordI ..)
  have htaken : branchTaken c (decide (readReg s.settledRf rs = readReg s.settledRf rt)) =
      branchTaken s.de.ctrl (fuCall referenceCfg s).2 := by
    rw [fuCall_zero_of_branch hinv h hc, h.ctrl]
  rw [htaken, ← himm]
  refine ⟨nextPc_of_branch hnext hs h.valid hinv hbranch, transfers_of_branch hnext hs h.valid hbranch,
    fun hhit => ?_, ?_⟩
  · exact de_of_no_redirect hnext hs (redirect_of_predicted_branch h.valid hbranch hhit) hload
  · cases hen : s.cfg.predEn with
    | true =>
      rw [pt_of_trains hnext ⟨hs, hen, h.valid, hbranch⟩, executeStage_of_valid _ h.valid]
      rfl
    | false => exact pt_of_not_trains hnext (by simp [State.trains, hen])

end

/-! ### One step against sequential execution -/

theorem shiftAmount_zext5 (sa : BitVec 5) : shiftAmount (zext5 sa) = sa.toNat := by
  rw [shiftAmount, zext5, BitVec.toNat_setWidth_of_le (by decide), Nat.mod_eq_of_lt sa.isLt]

theorem sltWord_eq (a b : Word) : sltWord a b = if a.toInt < b.toInt then 1#32 else 0#32 := by
  simp [sltWord, boolWord]

theorem sltuWord_eq (a b : Word) : sltuWord a b = if a.toNat < b.toNat then 1#32 else 0#32 := by
  simp [sltuWord, boolWord]

/-- The instruction in execute does what its operation line says. -/
theorem refines_of_inExecute {s t : State} {i : Instr} (hinv : s.Inv) (hnext : coreCycle referenceCfg s = .next t)
    (hs : s.stalls = false) (hi : inExecute s.de = some i) : s.Refines t i := by
  have h := holds_of_inExecute hi
  have hvalid := h.valid
  cases i
  case sllv | srlv | srav | add | addu | sub | subu | and | or | xor | nor =>
    exact (passes_of_rAlu hinv hnext hs h).refines (by decide) hvalid rfl
  case slt | sltu =>
    refine (passes_of_rAlu hinv hnext hs h).refines (by decide) hvalid ?_
    simp only [seqExec, ← sltWord_eq, ← sltuWord_eq]
    rfl
  case sll | srl | sra =>
    refine (passes_of_rShift hinv hnext hs h).refines (by decide) hvalid ?_
    simp only [seqExec, ← shiftAmount_zext5]
    rfl
  case addi | addiu =>
    exact (passes_of_addsImm (c := .addImm) hinv hnext hs h (by decide)).refines (by decide) hvalid rfl
  case slti | sltiu =>
    refine (passes_of_setImm hinv hnext hs h).refines (by decide) hvalid ?_
    simp only [seqExec, ← sltWord_eq, ← sltuWord_eq]
    rfl
  case andi | ori | xori | lui =>
    exact (passes_of_logicImm hinv hnext hs h).refines (by decide) hvalid rfl
  case lb | lh | lw =>
    refine (passes_of_addsImm hinv hnext hs h ?_).refines_of_load ?_ hvalid rfl <;>
      simp [controlOf, Ctrl.addsImm, Ctrl.loads]
  case sb | sh | sw =>
    refine (passes_of_addsImm hinv hnext hs h ?_).refines_of_store ?_ hvalid ?_
    · simp [controlOf, Ctrl.addsImm]
    · simp [controlOf, Ctrl.stores]
    · rw [(operands_of_wordI hinv h).2]
      rfl
  case j =>
    exact refines_of_seqExec hvalid (transfers_of_wordJ hnext rfl hinv hs rfl h).next
      (settledRf_of_no_write hnext hs h rfl) (settledMem_of_no_store hnext hs h rfl) rfl
  case jr =>
    exact refines_of_seqExec hvalid (transfers_of_wordR hnext rfl hinv hs rfl h).next
      (settledRf_of_no_write hnext hs h rfl) (settledMem_of_no_store hnext hs h rfl) rfl
  case jal =>
    exact refines_of_seqExec hvalid (transfers_of_wordJ hnext rfl hinv hs rfl h).next
      (settledRf_of_link hnext hs h rfl rfl rfl rfl) (settledMem_of_no_store hnext hs h rfl) rfl
  case jalr =>
    exact refines_of_seqExec hvalid (transfers_of_wordR hnext rfl hinv hs rfl h).next
      (settledRf_of_link hnext hs h rfl rfl rfl (rdOf_wordR ..)) (settledMem_of_no_store hnext hs h rfl) rfl
  case beq =>
    refine refines_of_seqExec hvalid (resolves_of_branch (c := .beqBundle) hinv hnext hs h (by decide)).next
      (settledRf_of_no_write hnext hs h rfl) (settledMem_of_no_store hnext hs h rfl) ?_
    rw [branchTaken_beq]
    rfl
  case bne =>
    refine refines_of_seqExec hvalid (resolves_of_branch (c := .bneBundle) hinv hnext hs h (by decide)).next
      (settledRf_of_no_write hnext hs h rfl) (settledMem_of_no_store hnext hs h rfl) ?_
    rw [branchTaken_bne, ← decide_not]
    rfl

/-- The instruction in a DE that agrees with its word is the one the word decodes to. -/
theorem State.Inv.inExecute_eq {s : State} (hinv : s.Inv) (hvalid : s.de.valid = true) :
    inExecute s.de = decodeWord s.de.word :=
  if_pos (hinv.deCoherent hvalid)

section
variable {s t : State} (hnext : coreCycle referenceCfg s = .next t)
include hnext

/-- A stall changes nothing that the settled view reads. -/
theorem settled_of_stall (hs : s.stalls = true) : t.settled = s.settled := by
  rw [coreCycle_of_stall hnext hs]
  rfl

/-- A bubble in execute only moves the older words on. -/
theorem settled_of_bubble (hs : s.stalls = false) (hbubble : s.de.valid = false) : t.settled = s.settled := by
  have hstage := executeStage_of_invalid referenceCfg hbubble
  have hstep := step_eq_next_iff.2 hnext
  have hem : t.em = .bubble := (em_of_cycle hnext hs).trans (congrArg ExecuteOut.em hstage)
  have hrequest : dportRequest t = none := dportRequest_of_no_access (.inl (by rw [hem, em_bubble_valid]))
  have hmem : t.settledMem = s.settledMem := by
    rw [settledMem_of_no_request hrequest, mem_of_step hstep hs]
  have hrf : t.settledRf = s.settledRf := by
    rw [State.settledRf, hem, memoryOut_bubble, writeBack_bubble, mw_of_step hstep hs, rf_of_step hstep hs,
      State.settledRf]
  have hpc : t.nextPc = s.nextPc := by
    rw [nextPc_of_no_redirect hnext hs (by rw [hstage]), nextPc_of_invalid hbubble]
  rw [State.settled, hpc, hrf, hmem, State.settled]

/-- An inert word only moves on to the next word (46_instructions.md R283). -/
theorem settled_of_inert (hinv : s.Inv) (hs : s.stalls = false) (hvalid : s.de.valid = true)
    (hnone : decodeWord s.de.word = none) : t.settled = { s.settled with pc := s.settled.pc + 4#32 } := by
  have hinert : s.de.ctrl = Ctrl.inert := (hinv.de_ctrl hvalid).trans (referenceDec_of_none hnone)
  have hadvances := advances_of_flow hnext hs hvalid
  obtain ⟨-, -, hmoved⟩ := hadvances.moved
  have hctrl : t.em.ctrl = Ctrl.inert := hmoved.trans hinert
  have hpc : t.nextPc = s.de.pc + 4#32 := by
    refine nextPc_of_no_transfer hnext hs hvalid hinv ?_ ?_ <;> rw [hinert] <;> rfl
  have hrf : t.settledRf = s.settledRf := hadvances.settledRf_of_no_write rfl (by rw [hctrl]; rfl)
  have hmem : t.settledMem = s.settledMem := hadvances.settledMem_of_no_store rfl (by rw [hctrl]; rfl)
  rw [settled_of_valid hvalid, State.settled, hpc, hrf, hmem]

end

/-- Settles O46, by what is in execute: nothing that leaves it, an inert word, or an instruction. -/
theorem stepRefinesSequentialExecution : Obligations.StepRefinesSequentialExecution := by
  unfold Obligations.StepRefinesSequentialExecution
  intro s t hinv ht
  have hnext := step_eq_next_iff.1 ht
  refine ⟨fun h => ?_, fun hs hvalid hnone => settled_of_inert hnext hinv hs hvalid hnone, fun i hs hi => ?_⟩
  · cases hs : s.stalls with
    | true => exact settled_of_stall hnext hs
    | false => exact settled_of_bubble hnext hs (h.resolve_left (by simp [hs]))
  · obtain hsome | ⟨hnone, hfault⟩ := refines_of_inExecute hinv hnext hs hi
    · simp [hsome]
    · simp [hnone, hfault]

/-! ### Every step keeps the invariant (60_exceptions.md R304) -/

/-- What decode latches for an index is the register as this cycle's writeback leaves it (42_decode_hazard.md R163). -/
theorem decodeRead_eq_writeBack (s : State) (r : Reg) : decodeRead s r = readReg (writeBack s.mw s.rf) r := by
  by_cases hr : r = 0#5
  · rw [hr, decodeRead_zero, readReg_zero]
  · rw [decodeRead_eq, readReg_writeBack_mw _ hr]
    simp [mwWrites_iff, hr]

/-- What MW says follows the word it took from EM, EM said too. -/
theorem em_successor_of_mw {e : ExecuteMemory} {m : MemoryWriteback} {a : Word} (hctrl : m.ctrl = e.ctrl)
    (hpc : m.pc = e.pc) (h : m.successor = some a) : e.successor = some a := by
  rw [MemoryWriteback.successor, hctrl, hpc] at h
  split at h
  next => cases h
  next htransfer =>
    obtain ⟨hjump, hbranch⟩ : isJump e.ctrl = false ∧ isBranch e.ctrl = false := by simpa using htransfer
    simpa [ExecuteMemory.successor, hjump, hbranch] using h

section
variable {s t : State} (hnext : coreCycle referenceCfg s = .next t) (hs : s.stalls = false)
include hnext hs

/-- What a cycle without a data stall leaves in FD: a bubble, the word held there, or a fetched word. -/
theorem fd_cases :
    t.fd = .bubble ∨ (t.pc = s.pc ∧ t.fd = s.fd) ∨
      ∃ w, t.pc = pcSeq referenceDec s w ∧ t.fd = fetchOut referenceDec s w := by
  cases hr : (executeStage referenceCfg s).redirect with
  | some target => exact .inl (transfers_of_redirect hnext hs hr).fd
  | none =>
    cases hu : loadUse s with
    | true =>
      obtain ⟨hpc, hfd, -⟩ := front_of_loadUse hnext hs hr hu
      exact .inr (.inl ⟨hpc, hfd⟩)
    | false =>
      cases hready : (answers s).iReady with
      | true =>
        obtain ⟨hpc, hfd, -⟩ := front_of_flow hnext hs (hr ▸ frontEnd_of_hit _ _ hu hready)
        exact .inr (.inr ⟨_, hpc, hfd⟩)
      | false =>
        obtain ⟨-, hfd, -⟩ := front_of_flow hnext hs (hr ▸ frontEnd_of_miss _ _ hu hready)
        exact .inl hfd

/-- Without a redirect and a load-use stall the next word to decode is at PC, whether the fetch hits or misses. -/
theorem fromFetch_of_no_redirect (hredirect : (executeStage referenceCfg s).redirect = none) (hu : loadUse s = false) :
    t.fromFetch = s.pc := by
  cases hready : (answers s).iReady with
  | true =>
    obtain ⟨-, hfd, -⟩ := front_of_flow hnext hs (hredirect ▸ frontEnd_of_hit _ _ hu hready)
    rw [State.fromFetch, hfd]
    rfl
  | false =>
    obtain ⟨hpc, hfd, -⟩ := front_of_flow hnext hs (hredirect ▸ frontEnd_of_miss _ _ hu hready)
    rw [State.fromFetch, hfd]
    exact hpc

/-- What it leaves in DE: a bubble, or the word that was in FD, decoded, with the fetch gone on from PC. -/
theorem de_cases :
    t.de = .bubble ∨
      loadUse s = false ∧ s.fd.valid = true ∧ t.fromFetch = s.pc ∧
        t.de = .ofWord s.fd.word (readReg t.rf (rsOf s.fd.word)) (readReg t.rf (rtOf s.fd.word))
          (referenceDec s.fd.word) s.fd.pc s.fd.predTaken := by
  cases hr : (executeStage referenceCfg s).redirect with
  | some target => exact .inl (transfers_of_redirect hnext hs hr).de
  | none =>
    cases hu : loadUse s with
    | true =>
      obtain ⟨-, -, hde⟩ := front_of_loadUse hnext hs hr hu
      exact .inl hde
    | false =>
      have hde := de_of_no_redirect hnext hs hr hu
      cases hfd : s.fd.valid with
      | false => exact .inl (hde.trans (decodeOut_of_invalid _ hfd))
      | true =>
        have hrf : t.rf = writeBack s.mw s.rf := rf_of_step (step_eq_next_iff.2 hnext) hs
        refine .inr ⟨rfl, rfl, fromFetch_of_no_redirect hnext hs hr hu, ?_⟩
        rw [hde, decodeOut_of_valid _ hfd, decodeRead_eq_writeBack, decodeRead_eq_writeBack, hrf]
        rfl

/-- What it leaves in EM: a bubble, or what the word in execute latches. -/
theorem em_cases :
    s.de.valid = false ∧ t.em = .bubble ∨ s.de.valid = true ∧ t.em = executeEm referenceCfg s := by
  cases hvalid : s.de.valid with
  | false =>
    exact .inl ⟨rfl, (em_of_cycle hnext hs).trans (congrArg ExecuteOut.em (executeStage_of_invalid _ hvalid))⟩
  | true => exact .inr ⟨rfl, em_of_flow hnext hs hvalid⟩

/-- What it leaves in MW: a bubble, or what the memory stage makes of the word in EM. -/
theorem mw_cases :
    t.mw = .bubble ∨ s.em.valid = true ∧ t.mw.valid = true ∧ t.mw.ctrl = s.em.ctrl ∧ t.mw.pc = s.em.pc := by
  have hmw : t.mw = memoryOut s.em (answers s).rData := mw_of_step (step_eq_next_iff.2 hnext) hs
  rw [hmw, memoryOut]
  cases hvalid : s.em.valid with
  | false => exact .inl (if_neg (by simp))
  | true => exact .inr ⟨rfl, rfl, rfl, rfl⟩

/-- A word that sources what the load ahead of it writes is held in FD (43_execute_forwarding.md R187). -/
theorem interlock_of_flow (hde : t.de.valid = true) (hem : t.em.valid = true) (hread : t.em.ctrl.memRead = true)
    (hwrite : t.em.ctrl.regWrite = true) :
    dest t.em.ctrl t.em.rt t.em.rd ≠ t.de.rs ∧ dest t.em.ctrl t.em.rt t.em.rd ≠ t.de.rt := by
  obtain hbubble | ⟨hu, hfd, -, htde⟩ := de_cases hnext hs
  · simp [hbubble] at hde
  obtain ⟨-, hbubble⟩ | ⟨hvalid, htem⟩ := em_cases hnext hs
  · simp [hbubble] at hem
  rw [htem] at hread hwrite
  have hno : ¬loadUse s = true := by simp [hu]
  rw [loadUse_iff] at hno
  rw [htem, htde]
  exact ⟨fun h => hno ⟨hfd, hvalid, hread, hwrite, .inl h.symm⟩,
    fun h => hno ⟨hfd, hvalid, hread, hwrite, .inr h.symm⟩⟩

variable (hinv : s.Inv)
include hinv

/-- The word in execute is followed by what EM will say follows it. -/
theorem nextPc_of_successor (hvalid : s.de.valid = true) {a : Word}
    (h : (executeEm referenceCfg s).successor = some a) : t.nextPc = a := by
  have hctrl : (executeEm referenceCfg s).ctrl = s.de.ctrl := rfl
  rw [ExecuteMemory.successor, hctrl] at h
  cases hjump : isJump s.de.ctrl with
  | true => simp [hjump] at h
  | false =>
    rw [hjump, if_neg (by simp)] at h
    cases hbranch : isBranch s.de.ctrl with
    | false =>
      rw [nextPc_of_no_transfer hnext hs hvalid hinv hjump hbranch]
      simpa [hbranch, executeEm] using h
    | true =>
      obtain ⟨-, -, hbits⟩ := (isBranch_iff _).1 hbranch
      obtain ⟨-, hzext⟩ := isBranch_of_bits _ (hinv.de_ctrl_mem hvalid) hbits
      rw [nextPc_of_branch hnext hs hvalid hinv hbranch, actualNext]
      cases htaken : branchTaken s.de.ctrl (fuCall referenceCfg s).2 <;>
        simpa [hbranch, executeEm, hzext, extendImm, btarget, htaken] using h

theorem onPath_of_flow : t.OnPath where
  fromFd hvalid := by
    obtain hfd | ⟨hpc, hfd⟩ | ⟨w, hpc, hfd⟩ := fd_cases hnext hs
    · simp [hfd] at hvalid
    · rw [hpc, hfd]
      exact hinv.onPath.fromFd (hfd ▸ hvalid)
    · rw [hpc, hfd]
      rfl
  fromDe hvalid := by
    obtain hde | ⟨-, hfd, hfetch, hde⟩ := de_cases hnext hs
    · simp [hde] at hvalid
    · rw [hfetch, hde, hinv.onPath.fromFd hfd]
      rfl
  fromEm hvalid a ha := by
    obtain ⟨-, hem⟩ | ⟨hde, hem⟩ := em_cases hnext hs
    · simp [hem] at hvalid
    · exact nextPc_of_successor hnext hs hinv hde (hem ▸ ha)
  fromMw hvalid a ha := by
    obtain hmw | ⟨hem, -, hctrl, hpc⟩ := mw_cases hnext hs
    · simp [hmw] at hvalid
    rw [← hinv.onPath.fromEm hem a (em_successor_of_mw hctrl hpc ha), State.fromMemory]
    obtain ⟨hde, htem⟩ | ⟨hde, htem⟩ := em_cases hnext hs
    · have hredirect : (executeStage referenceCfg s).redirect = none := by rw [executeStage_of_invalid _ hde]
      rw [htem, em_bubble_valid, if_neg (by simp), nextPc_of_no_redirect hnext hs hredirect, nextPc_of_invalid hde]
    · rw [htem, nextPc_of_valid hde]
      rfl

theorem fd_invariant_of_flow :
    (t.fd.valid = false → t.fd = .bubble) ∧ (s.cfg.predEn = false → t.fd.predTaken = false) ∧
      (t.fd.predTaken = true → (referenceDec t.fd.word).branch = true ∨ (referenceDec t.fd.word).bne = true) := by
  obtain hfd | ⟨-, hfd⟩ | ⟨w, -, hfd⟩ := fd_cases hnext hs
  · simp [hfd]
  · rw [hfd]
    exact ⟨hinv.fdBubble, fun h => (hinv.unpredicted h).1, hinv.fdPredicted⟩
  · rw [hfd]
    refine ⟨fun h => absurd h (by simp [fetchOut]), fun h => by rw [fetchOut_of_disabled h], fun h => ?_⟩
    obtain ⟨-, hbranch, -⟩ := fetchPredict_iff.1 h
    exact hbranch

theorem inv_of_flow : t.Inv := by
  obtain ⟨hfdBubble, hfdUnpredicted, hfdPredicted⟩ := fd_invariant_of_flow hnext hs hinv
  obtain ⟨hcfg, hlength⟩ := step_keeps_options (step_eq_next_iff.2 hnext)
  exact {
    memCanonical := by
      rw [mem_of_step (step_eq_next_iff.2 hnext) hs]
      exact hinv.settledMem_wf
    tableNonempty := by
      rw [← List.length_pos_iff, hlength, List.length_pos_iff]
      exact hinv.tableNonempty
    fdBubble := hfdBubble
    deBubble h := (de_cases hnext hs).resolve_right fun ⟨_, _, _, hde⟩ => by simp [hde] at h
    emBubble h := by
      obtain ⟨-, hem⟩ | ⟨-, hem⟩ := em_cases hnext hs
      · exact hem
      · simp [hem, executeEm] at h
    mwBubble h := (mw_cases hnext hs).resolve_right fun ⟨_, hvalid, _⟩ => by simp [hvalid] at h
    deCoherent h := by
      obtain hde | ⟨-, -, -, hde⟩ := de_cases hnext hs
      · simp [hde] at h
      · rw [hde, ofWord_coherent]
    emBundle := by
      obtain ⟨-, hem⟩ | ⟨hvalid, hem⟩ := em_cases hnext hs
      · rw [hem, em_bubble_ctrl]
        decide
      · rw [hem]
        exact hinv.de_ctrl_mem hvalid
    mwBundle := by
      obtain hmw | ⟨-, -, hctrl, -⟩ := mw_cases hnext hs
      · rw [hmw, mw_bubble_ctrl]
        decide
      · exact hctrl ▸ hinv.emBundle
    waitPending h := by simp [coreCycle_of_flow hnext hs] at h
    unpredicted h := by
      rw [hcfg] at h
      refine ⟨hfdUnpredicted h, ?_⟩
      obtain hde | ⟨-, -, -, hde⟩ := de_cases hnext hs
      · rw [hde, de_bubble_predTaken]
      · rw [hde]
        exact (hinv.unpredicted h).1
    fdPredicted := hfdPredicted
    dePredicted h := by
      obtain hde | ⟨-, -, -, hde⟩ := de_cases hnext hs
      · simp [hde] at h
      · rw [hde] at h ⊢
        exact hinv.fdPredicted h
    latches h := by
      obtain hde | ⟨-, -, -, hde⟩ := de_cases hnext hs
      · simp [hde] at h
      · simp [hde]
    interlock := interlock_of_flow hnext hs
    onPath := onPath_of_flow hnext hs hinv }

end

/-- A data stall keeps every pipeline register, and counts the wait of the access that is pending. -/
theorem inv_of_stall {s t : State} (hnext : coreCycle referenceCfg s = .next t) (hs : s.stalls = true) (hinv : s.Inv) :
    t.Inv := by
  have hpending : s.em.valid = true ∧ (s.em.ctrl.memRead = true ∨ s.em.ctrl.memWrite = true) := by
    have hrequest : (dportRequest s).isSome = true := by
      rw [State.stalls, memStall, Bool.and_eq_true] at hs
      exact hs.1
    simpa [dportRequest] using hrequest
  rw [coreCycle_of_stall hnext hs]
  obtain ⟨fromFd, fromDe, fromEm, fromMw⟩ := hinv.onPath
  exact { hinv with waitPending := fun _ => hpending, onPath := ⟨fromFd, fromDe, fromEm, fromMw⟩ }

/-- Every step keeps the invariant. -/
theorem State.Inv.step {s t : State} (hinv : s.Inv) (h : step s = .next t) : t.Inv := by
  have hnext := step_eq_next_iff.1 h
  cases hs : s.stalls with
  | true => exact inv_of_stall hnext hs hinv
  | false => exact inv_of_flow hnext hs hinv

/-! ### Runs against sequential execution (46_instructions.md R284) -/

/-- A run to a state without a misaligned access has none at its start. -/
theorem accessesAligned_of_run {k : Nat} {s t : State} (h : core.run k s = .next t) (ht : t.accessesAligned = true) :
    s.accessesAligned = true := by
  cases k with
  | zero =>
    cases h
    exact ht
  | succ k =>
    obtain ⟨u, hu, -⟩ := run_succ_eq_next h
    exact (step_eq_next hu).1

theorem executed_succ_of_next {k : Nat} {s t : State} (h : step s = .next t) :
    executed (k + 1) s = (if s.de.valid && !s.stalls then 1 else 0) + executed k t := by
  simp only [executed, h]

theorem runsCurrentCode_succ_of_next {k : Nat} {s t : State} (h : step s = .next t) :
    runsCurrentCode (k + 1) s = true ↔
      (s.de.valid = true → s.de.word = memRead s.cfg.endian s.settledMem s.de.pc .word) ∧
        runsCurrentCode k t = true := by
  simp only [runsCurrentCode, h, Bool.and_eq_true, Bool.or_eq_true, Bool.not_eq_true', beq_iff_eq,
    ← Bool.not_eq_true (b := s.de.valid), imp_iff_not_or]

/-- The word that leaves execute is the one sequential execution fetches, if memory still holds it. -/
theorem seqStep_of_flow {s t : State} (hinv : s.Inv) (hnext : coreCycle referenceCfg s = .next t)
    (hs : s.stalls = false) (hvalid : s.de.valid = true)
    (hcode : s.de.word = memRead s.cfg.endian s.settledMem s.de.pc .word) (ht : t.accessesAligned = true) :
    seqStep s.cfg.endian s.settled = some t.settled := by
  have hfetch : decodeWord (memRead s.cfg.endian s.settled.mem s.settled.pc .word) = decodeWord s.de.word := by
    rw [settled_of_valid hvalid, hcode]
  rw [seqStep, hfetch]
  cases hdecode : decodeWord s.de.word with
  | none => exact congrArg some (settled_of_inert hnext hinv hs hvalid hdecode).symm
  | some i =>
    have hi : inExecute s.de = some i := (hinv.inExecute_eq hvalid).trans hdecode
    refine (refines_of_inExecute hinv hnext hs hi).resolve_right ?_
    rintro ⟨-, f, hf⟩
    obtain ⟨u, hu⟩ := step_goes_on ht
    simp [hu] at hf

/-- Settles O47, by induction on the cycles: each runs one word of sequential execution, or leaves the settled state. -/
theorem pipelineRunsAreSequentialRuns : Obligations.PipelineRunsAreSequentialRuns := by
  unfold Obligations.PipelineRunsAreSequentialRuns
  intro k
  induction k with
  | zero =>
    intro s t _ hrun _ _
    cases hrun
    rfl
  | succ k ih =>
    intro s t hinv hrun hcode ht
    obtain ⟨u, hu, hrun'⟩ := run_succ_eq_next hrun
    obtain ⟨hword, hcode'⟩ := (runsCurrentCode_succ_of_next hu).1 hcode
    have hnext := step_eq_next_iff.1 hu
    have hrest := ih u t (hinv.step hu) hrun' hcode' ht
    rw [(step_keeps_options hu).1] at hrest
    rw [executed_succ_of_next hu]
    cases hs : s.stalls with
    | true =>
      rw [settled_of_stall hnext hs] at hrest
      simpa using hrest
    | false =>
      cases hvalid : s.de.valid with
      | false =>
        rw [settled_of_bubble hnext hs hvalid] at hrest
        simpa using hrest
      | true =>
        have hstep := seqStep_of_flow hinv hnext hs hvalid (hword hvalid) (accessesAligned_of_run hrun' ht)
        simpa [Nat.add_comm 1, seqRun, hstep] using hrest

/-! ### The instructions' results and frames (46_instructions.md R247 to R282) -/

theorem coreCycle_of_flows {s : State} (h : s.flows = true) :
    (∃ t, coreCycle referenceCfg s = .next t) ∧ s.stalls = false := by
  obtain ⟨haligned, hs⟩ := flows_iff.1 h
  exact ⟨⟨_, cycle_of_aligned _ haligned⟩, hs⟩

/-- The variable shifts and register arithmetic, logic and compare: the FU's row for `f` of the two sources. -/
theorem gives_of_rAlu {s : State} {i : Instr} {rs rt rd : Reg} {sa : BitVec 5} {f : BitVec 6} {v : Word} (hinv : s.Inv)
    (hflows : s.flows = true) (h : inExecute s.de = some i → s.de.Holds (wordR rs rt rd sa f) .rAlu)
    (hv : aluByFunct f (readReg s.settledRf rs) (readReg s.settledRf rt) = v) (hi : inExecute s.de = some i) :
    s.Gives i rd v := by
  obtain ⟨⟨t, hnext⟩, hs⟩ := coreCycle_of_flows hflows
  exact hv ▸ (passes_of_rAlu hinv hnext hs (h hi)).gives (by decide) hi hnext

/-- Settles O49: a shift by an amount takes `sa` for its first operand. -/
theorem shiftsByAmount : Obligations.ShiftsByAmount := by
  unfold Obligations.ShiftsByAmount
  intro s rsX rt rd sa hinv hflows x gives
  obtain ⟨⟨t, hnext⟩, hs⟩ := coreCycle_of_flows hflows
  have shift {i f v} (h : inExecute s.de = some i → s.de.Holds (wordR rsX rt rd sa f) .rShift)
      (hv : aluByFunct f (zext5 sa) (x rt) = v) : gives i v :=
    fun hi => hv ▸ (passes_of_rShift hinv hnext hs (h hi)).gives (by decide) hi hnext
  rw [← shiftAmount_zext5 sa]
  exact ⟨shift holds_of_inExecute rfl, shift holds_of_inExecute rfl, shift holds_of_inExecute rfl⟩

/-- Settles O50: the FU shifts by its first operand modulo 32. -/
theorem variableShifts : Obligations.VariableShifts := by
  unfold Obligations.VariableShifts
  intro s rs rt rd saX hinv hflows x amount gives
  exact ⟨gives_of_rAlu hinv hflows holds_of_inExecute rfl, gives_of_rAlu hinv hflows holds_of_inExecute rfl,
    gives_of_rAlu hinv hflows holds_of_inExecute rfl⟩

/-- Settles O51, row by row of the FU. -/
theorem registerArithmetic : Obligations.RegisterArithmetic := by
  unfold Obligations.RegisterArithmetic
  intro s rs rt rd saX hinv hflows x gives
  exact ⟨gives_of_rAlu hinv hflows holds_of_inExecute rfl, gives_of_rAlu hinv hflows holds_of_inExecute rfl,
    gives_of_rAlu hinv hflows holds_of_inExecute rfl, gives_of_rAlu hinv hflows holds_of_inExecute rfl⟩

/-- Settles O52, row by row of the FU. -/
theorem registerLogicAndCompare : Obligations.RegisterLogicAndCompare := by
  unfold Obligations.RegisterLogicAndCompare
  intro s rs rt rd saX hinv hflows x gives
  rw [← sltWord_eq, ← sltuWord_eq]
  exact ⟨gives_of_rAlu hinv hflows holds_of_inExecute rfl, gives_of_rAlu hinv hflows holds_of_inExecute rfl,
    gives_of_rAlu hinv hflows holds_of_inExecute rfl, gives_of_rAlu hinv hflows holds_of_inExecute rfl,
    gives_of_rAlu hinv hflows holds_of_inExecute rfl, gives_of_rAlu hinv hflows holds_of_inExecute rfl⟩

/-- Settles O53: the immediate of both bundles is sign-extended. -/
theorem immediateArithmeticAndCompare : Obligations.ImmediateArithmeticAndCompare := by
  unfold Obligations.ImmediateArithmeticAndCompare
  intro s rs rt imm hinv hflows x simm gives
  obtain ⟨⟨t, hnext⟩, hs⟩ := coreCycle_of_flows hflows
  have sum {i op} (h : inExecute s.de = some i → s.de.Holds (wordI op rs rt imm) .addImm) : gives i (x rs + simm) :=
    fun hi => (passes_of_addsImm hinv hnext hs (h hi) (by decide)).gives (by decide) hi hnext
  have compare {i op v} (h : inExecute s.de = some i → s.de.Holds (wordI op rs rt imm) .setImm)
      (hv : aluByOpcode op (x rs) simm = v) : gives i v :=
    fun hi => hv ▸ (passes_of_setImm hinv hnext hs (h hi)).gives (by decide) hi hnext
  rw [← sltWord_eq, ← sltuWord_eq]
  exact ⟨sum holds_of_inExecute, sum holds_of_inExecute, compare holds_of_inExecute rfl,
    compare holds_of_inExecute rfl⟩

/-- Settles O54: the immediate of their one bundle is zero-extended. -/
theorem immediateLogic : Obligations.ImmediateLogic := by
  unfold Obligations.ImmediateLogic
  intro s rs rt imm hinv hflows x zimm gives
  obtain ⟨⟨t, hnext⟩, hs⟩ := coreCycle_of_flows hflows
  have logic {i op v} (h : inExecute s.de = some i → s.de.Holds (wordI op rs rt imm) .logicImm)
      (hv : aluByOpcode op (x rs) zimm = v) : gives i v :=
    fun hi => hv ▸ (passes_of_logicImm hinv hnext hs (h hi)).gives (by decide) hi hnext
  exact ⟨logic holds_of_inExecute rfl, logic holds_of_inExecute rfl, logic holds_of_inExecute rfl,
    logic holds_of_inExecute rfl⟩

/-- Settles O55: the three loads are one but for the width and the extension. -/
theorem loads : Obligations.Loads := by
  unfold Obligations.Loads
  intro s rs rt imm hinv hflows ea gives byte half
  obtain ⟨⟨t, hnext⟩, hs⟩ := coreCycle_of_flows hflows
  have load {i op} {c : Ctrl} (hc : c ∈ Ctrl.loads)
      (h : inExecute s.de = some i → s.de.Holds (wordI op rs rt imm) c) :
      gives i (widthOf c) (loadedValue c (memRead s.cfg.endian s.settledMem ea (widthOf c))) := by
    intro hi
    obtain ⟨hadds, -⟩ := loads_bits c hc
    have hp := passes_of_addsImm hinv hnext hs (h hi) hadds
    exact ⟨t, exec_eq_next hi hnext, hp.advances, congrArg ExecuteMemory.zero hp.em,
      ⟨_, hp.request_of_load hc⟩, fun _ => hp.writes_of_load hc, step_faults_of_misaligned (hp.request_of_load hc)⟩
  exact ⟨load (c := .loadByte) (by decide) holds_of_inExecute,
    load (c := .loadHalf) (by decide) holds_of_inExecute, load (c := .loadWord) (by decide) holds_of_inExecute⟩

/-- A little-endian store puts byte `j` of the value, the least significant first, at byte `j` of memory (20_memory.md
R65). -/
theorem readByte_memWrite_little {m : Memory} (hm : m.wf = true) {a : Word} {w : Width} (v : Word)
    (h : a.toNat % w.bytes = 0) {j : Nat} (hj : j < w.bytes) :
    readByte (memWrite .little m a w v) (a.toNat + j) = (v >>> (8 * j)).setWidth 8 := by
  have hbyte := readByte_memWrite_inside hm .little v h hj
  rw [inOrder, bytesOf_getElem? v hj] at hbyte
  exact (Option.some.inj hbyte).symm

/-- A big-endian store puts it first from the other end (notes/assumptions 3). -/
theorem readByte_memWrite_big {m : Memory} (hm : m.wf = true) {a : Word} {w : Width} (v : Word)
    (h : a.toNat % w.bytes = 0) {j : Nat} (hj : j < w.bytes) :
    readByte (memWrite .big m a w v) (a.toNat + j) = (v >>> (8 * (w.bytes - 1 - j))).setWidth 8 := by
  have hbyte := readByte_memWrite_inside hm .big v h hj
  rw [inOrder, List.getElem?_reverse (by simpa using hj), bytesOf_length, bytesOf_getElem? v (by omega)] at hbyte
  exact (Option.some.inj hbyte).symm

/-- Settles O56: the three stores are one but for the width. -/
theorem stores : Obligations.Stores := by
  unfold Obligations.Stores
  intro s rs rt imm hinv hflows x ea gives
  obtain ⟨⟨t, hnext⟩, hs⟩ := coreCycle_of_flows hflows
  have store {i op} {c : Ctrl} (hc : c ∈ Ctrl.stores)
      (h : inExecute s.de = some i → s.de.Holds (wordI op rs rt imm) c) : gives i (widthOf c) := by
    intro hi
    obtain ⟨hrs, hrt⟩ := operands_of_wordI hinv (h hi)
    obtain ⟨hadds, -⟩ := stores_bits c hc
    have hea : ea = x rs + sext16 imm := congrArg (· + sext16 imm) hrs
    have hp : s.Passes t (emOut s c rt (rdOfImm imm) imm ea ea) :=
      hea ▸ passes_of_addsImm hinv hnext hs (h hi) hadds
    have hrequest := hp.request_of_store hc
    have hmem := hp.settledMem_of_store hc
    rw [hrt] at hrequest hmem
    refine ⟨hea, t, exec_eq_next hi hnext, hp.advances, congrArg ExecuteMemory.zero hp.em,
      hrequest, fun r => by rw [hp.settledRf_of_store hc], hp.predictor, hp.next, fun haligned => ?_,
      step_faults_of_misaligned hrequest⟩
    rw [hmem]
    refine ⟨fun a ha => readByte_memWrite_outside _ _ _ _ _ fun j hj => ?_, fun j hj he => ?_, fun j hj he => ?_⟩
    · rw [toNat_add_of_aligned haligned hj]
      exact ha j hj
    · rw [he]
      exact readByte_memWrite_little hinv.settledMem_wf _ haligned hj
    · rw [he]
      exact readByte_memWrite_big hinv.settledMem_wf _ haligned hj
  exact ⟨store (c := .storeByte) (by decide) holds_of_inExecute,
    store (c := .storeHalf) (by decide) holds_of_inExecute, store (c := .storeWord) (by decide) holds_of_inExecute⟩

section
variable {s t : State} {w : Word} {c : Ctrl} (hnext : coreCycle referenceCfg s = .next t) (hs : s.stalls = false)
  (h : s.de.Holds w c)
include hnext hs h

theorem sameRegs_of_no_write (hwrite : c.regWrite = false) : sameRegs s.settledRf t.settledRf :=
  fun r => by rw [settledRf_of_no_write hnext hs h hwrite]

theorem sameBytes_of_no_store (hwrite : c.memWrite = false) : sameBytes s.settledMem t.settledMem :=
  fun a => by rw [settledMem_of_no_store hnext hs h hwrite]

theorem writesOnly_of_link {rd : Reg} (hlink : c.link = true) (hwrite : c.regWrite = true) (hmtr : c.memToReg = false)
    (hdest : dest c (rtOf w) (rdOf w) = rd) : writesOnly s.settledRf t.settledRf rd (s.de.pc + 8#32) :=
  fun r => by rw [settledRf_of_link hnext hs h hlink hwrite hmtr hdest, readReg_writeReg]

end

/-- Settles O57: the target is the concatenated one, and only `jal` writes a register. -/
theorem jumps : Obligations.Jumps := by
  unfold Obligations.Jumps
  intro s addr hinv hflows target
  obtain ⟨⟨t, hnext⟩, hs⟩ := coreCycle_of_flows hflows
  refine ⟨fun hi => ?j, fun hi => ?jal⟩
  case j =>
    have h : s.de.Holds (wordJ 0x02#6 addr) .jBundle := holds_of_inExecute (i := .j addr) hi
    exact ⟨t, exec_eq_next hi hnext, advances_of_flow hnext hs h.valid, transfers_of_wordJ hnext rfl hinv hs rfl h,
      pt_of_jump hnext rfl h, sameRegs_of_no_write hnext hs h rfl, sameBytes_of_no_store hnext hs h rfl⟩
  case jal =>
    have h : s.de.Holds (wordJ 0x03#6 addr) .jalBundle := holds_of_inExecute (i := .jal addr) hi
    exact ⟨t, exec_eq_next hi hnext, advances_of_flow hnext hs h.valid, transfers_of_wordJ hnext rfl hinv hs rfl h,
      pt_of_jump hnext rfl h, writesOnly_of_link hnext hs h rfl rfl rfl rfl, sameBytes_of_no_store hnext hs h rfl⟩

/-- Settles O58: the target is a register as it was before the link, and only `jalr` writes a register. -/
theorem registerJumps : Obligations.RegisterJumps := by
  unfold Obligations.RegisterJumps
  intro s rs rtX rd saX hinv hflows target
  obtain ⟨⟨t, hnext⟩, hs⟩ := coreCycle_of_flows hflows
  refine ⟨fun hi => ?jr, fun hi => ?jalr⟩
  case jr =>
    have h : s.de.Holds (wordR rs rtX rd saX 0x08#6) .jrBundle := holds_of_inExecute (i := .jr rs rtX rd saX) hi
    exact ⟨t, exec_eq_next hi hnext, advances_of_flow hnext hs h.valid, transfers_of_wordR hnext rfl hinv hs rfl h,
      pt_of_jump hnext rfl h, sameRegs_of_no_write hnext hs h rfl, sameBytes_of_no_store hnext hs h rfl⟩
  case jalr =>
    have h : s.de.Holds (wordR rs rtX rd saX 0x09#6) .jalrBundle := holds_of_inExecute (i := .jalr rs rtX rd saX) hi
    exact ⟨t, exec_eq_next hi hnext, advances_of_flow hnext hs h.valid, transfers_of_wordR hnext rfl hinv hs rfl h,
      pt_of_jump hnext rfl h, writesOnly_of_link hnext hs h rfl rfl rfl (rdOf_wordR ..),
      sameBytes_of_no_store hnext hs h rfl⟩

/-- Settles O59: the two branches are one but for which outcome of the compare is taken. -/
theorem branches : Obligations.Branches := by
  unfold Obligations.Branches
  intro s rs rt imm hinv hflows x j gives
  obtain ⟨⟨t, hnext⟩, hs⟩ := coreCycle_of_flows hflows
  have branch {i op taken} {c : Ctrl} (hc : c ∈ Ctrl.branches)
      (h : inExecute s.de = some i → s.de.Holds (wordI op rs rt imm) c)
      (htaken : branchTaken c (decide (x rs = x rt)) = taken) : gives i taken := by
    intro hi actual
    obtain ⟨-, -, hstore, hwrite, -⟩ := branches_bits c hc
    have hresolves : s.Resolves t imm taken := htaken ▸ resolves_of_branch hinv hnext hs (h hi) hc
    have hem : t.em = executeEm referenceCfg s := em_of_flow hnext hs (h hi).valid
    have hzero : t.em.zero = decide (x rs = x rt) :=
      (congrArg ExecuteMemory.zero hem).trans (fuCall_zero_of_branch hinv (h hi) hc)
    exact ⟨t, exec_eq_next hi hnext, advances_of_flow hnext hs (h hi).valid, hzero,
      sameRegs_of_no_write hnext hs (h hi) hwrite, sameBytes_of_no_store hnext hs (h hi) hstore, hresolves.next,
      hresolves.missed, hresolves.predicted, hresolves.predictor⟩
  exact ⟨branch (c := .beqBundle) (by decide) holds_of_inExecute (branchTaken_beq _),
    branch (c := .bneBundle) (by decide) holds_of_inExecute ((branchTaken_bne _).trans decide_not.symm)⟩

end Sys2Proof.Machine

/-! The invariant of R304 (60_exceptions.md): it holds at every launch, and every step keeps it. -/

namespace Sys2Proof.Machine

/-- An empty pipeline meets the invariant: what it says of a word in flight says nothing of a bubble. -/
theorem inv_of_empty {s : State} (hmem : s.mem.wf = true) (hpt : s.pt ≠ []) (hfd : s.fd = .bubble)
    (hde : s.de = .bubble) (hem : s.em = .bubble) (hmw : s.mw = .bubble) (hwait : s.memWait = 0) : s.Inv where
  memCanonical := hmem
  tableNonempty := hpt
  fdBubble _ := hfd
  deBubble _ := hde
  emBubble _ := hem
  mwBubble _ := hmw
  deCoherent h := by simp [hde] at h
  emBundle := by
    rw [hem]
    decide
  mwBundle := by
    rw [hmw]
    decide
  waitPending h := absurd hwait h.ne'
  unpredicted _ := by simp [hfd, hde]
  fdPredicted h := by simp [hfd] at h
  dePredicted h := by simp [hde] at h
  latches h := by simp [hde] at h
  interlock h := by simp [hde] at h
  onPath := {
    fromFd h := by simp [hfd] at h
    fromDe h := by simp [hde] at h
    fromEm h := by simp [hem] at h
    fromMw h := by simp [hmw] at h }

/-- A launch empties the pipeline, whatever its other arguments. -/
theorem launch_inv (cfg : Cfg) {n : Nat} (rf0 : RegFile) {mem0 : Memory} (ports : Readiness) (hn : 0 < n)
    (hmem : mem0.wf = true) : (State.launch cfg n rf0 mem0 ports).Inv :=
  inv_of_empty hmem (by rw [launch_pt, ne_eq, List.replicate_eq_nil_iff]; exact hn.ne') rfl rfl rfl rfl rfl

/-- Settles O2: a launch empties the pipeline, and `State.reset` is the launch of 16 counters and an empty memory. -/
theorem launchMeetsTheInvariant : Obligations.LaunchMeetsTheInvariant := by
  unfold Obligations.LaunchMeetsTheInvariant
  exact ⟨fun cfg _ rf0 _ ports => launch_inv cfg rf0 ports, launch_inv _ _ _ (by decide) rfl⟩

/-- Settles O45, by whether the cycle is a data stall: one keeps every pipeline register (`inv_of_stall`), and without one
each stage hands on a word that the invariant already covers, or a bubble (`inv_of_flow`). -/
theorem stepKeepsTheInvariant : Obligations.StepKeepsTheInvariant := by
  unfold Obligations.StepKeepsTheInvariant
  intro s t hinv hstep
  exact hinv.step hstep

end Sys2Proof.Machine

/-! Straight-line code (70_reset_and_hazards.md R322, R338, R339): how a fetched word passes from stage to stage, and what
a straight run from a launch retires. -/

namespace Sys2Proof.Machine

/-! ### A fetched word from stage to stage (R339) -/

theorem straight_iff {s : State} :
    s.straight = true ↔
      s.flows = true ∧ loadUse s = false ∧ s.redirects = none ∧ s.ports.now.iReady = true := by
  simp [State.straight, and_assoc]

theorem stalls_of_flows {s : State} (h : s.flows = true) : s.stalls = false := (flows_iff.1 h).2

/-- Without a data stall the word in MW retires, if there is one (45_memory_writeback.md R235). -/
theorem retires_of_flow {s : State} (hs : s.stalls = false) :
    retires s s.ports.now.dReady = if s.mw.valid then some s.mw.pc else none := by
  rw [State.stalls] at hs
  simp [retires, hs]

section
variable {s t : State} (h : step s = .next t)
include h

/-- A straight cycle fetches the word at PC and decodes the one in FD. -/
theorem front_of_straight (hs : s.straight = true) :
    t.pc = pcSeq referenceDec s (memRead s.cfg.endian s.mem s.pc .word) ∧
      t.fd = fetchOut referenceDec s (memRead s.cfg.endian s.mem s.pc .word) ∧ t.de = decodeOut referenceDec s := by
  obtain ⟨hflows, hu, hredirect, hready⟩ := straight_iff.1 hs
  rw [State.redirects] at hredirect
  obtain ⟨hpc, hfd, hde, -⟩ := front_of_flow (step_eq_next_iff.1 h) (stalls_of_flows hflows)
    (hredirect ▸ frontEnd_of_hit referenceDec (answers s) hu hready)
  exact ⟨hpc, hfd, hde⟩

/-- A word in execute leaves it for EM under its bundle. -/
theorem em_of_flows (hflows : s.flows = true) (hvalid : s.de.valid = true) :
    t.em.valid = true ∧ t.em.pc = s.de.pc ∧ t.em.ctrl = s.de.ctrl := by
  rw [em_of_flow (step_eq_next_iff.1 h) (stalls_of_flows hflows) hvalid]
  exact ⟨rfl, rfl, rfl⟩

/-- A word in EM leaves it for MW under its bundle. -/
theorem mw_of_flows (hflows : s.flows = true) (hvalid : s.em.valid = true) :
    t.mw.valid = true ∧ t.mw.pc = s.em.pc ∧ t.mw.ctrl = s.em.ctrl := by
  rw [mw_of_step h (stalls_of_flows hflows), memoryOut, if_pos hvalid]
  exact ⟨rfl, rfl, rfl⟩

/-- The word fetched in a straight cycle is decoded in the next one, unless that stalls or redirects. -/
theorem de_of_fetched {u : State} (hs : s.straight = true) (hflows : t.flows = true) (hu : loadUse t = false)
    (hredirect : t.redirects = none) (h' : step t = .next u) :
    ∃ a b p, u.de = .ofWord (memRead s.cfg.endian s.mem s.pc .word) a b
      (referenceDec (memRead s.cfg.endian s.mem s.pc .word)) s.pc p := by
  obtain ⟨-, hfd, -⟩ := front_of_straight h hs
  have hde : u.de = decodeOut referenceDec t :=
    de_of_no_redirect (step_eq_next_iff.1 h') (stalls_of_flows hflows) hredirect hu
  rw [hde, decodeOut_of_valid _ (congrArg FetchDecode.valid hfd), hfd]
  exact ⟨_, _, _, rfl⟩

end

/-- Memory bytes that decode to an instruction are a word that does. -/
theorem decodeWord_of_decode_readBytes {e : Endian} {m : Memory} {a : Word} {i : Instr} {rest : List Byte}
    (h : decode e (readBytes m a 4) = .decoded i rest) : decodeWord (memRead e m a .word) = some i := by
  obtain ⟨l, hl, hbytes, hi⟩ := decode_eq_decoded.1 h
  have hrest : rest = [] := by simpa [hl] using congrArg List.length hbytes
  rwa [← List.append_nil l, ← hrest, ← hbytes] at hi

/-- Settles O27: the fetched word is decoded in the second cycle, and is then in execute as the instruction it decodes
to. -/
theorem fetchedBytesReachExecute : Obligations.FetchedBytesReachExecute := by
  unfold Obligations.FetchedBytesReachExecute
  intro s t u i rest hdecode hs ht hflows hu hredirect hstep
  obtain ⟨-, hfd, -⟩ := front_of_straight ht hs
  obtain ⟨a, b, p, hde⟩ := de_of_fetched ht hs hflows hu hredirect hstep
  have hi : inExecute u.de = some i := by
    rw [hde, inExecute_ofWord, decodeWord_of_decode_readBytes hdecode]
  exact ⟨congrArg FetchDecode.valid hfd, congrArg FetchDecode.pc hfd, hi, congrArg DecodeExecute.pc hde,
    step_of_inExecute hi⟩

/-- Settles O40: one stage a cycle, from FD to MW, and a flowing cycle retires and writes back what MW holds. -/
theorem everyWordRetiresInItsFifthCycle : Obligations.EveryWordRetiresInItsFifthCycle := by
  unfold Obligations.EveryWordRetiresInItsFifthCycle
  intro s0 s1 s2 s3 s4 s5 hs0 hflows1 hu1 hredirect1 hflows2 hflows3 hflows4 h0 h1 h2 h3 h4 w
  obtain ⟨-, hfd, -⟩ := front_of_straight h0 hs0
  obtain ⟨a, b, p, hde⟩ := de_of_fetched h0 hs0 hflows1 hu1 hredirect1 h1
  obtain ⟨hem, hemPc, hemCtrl⟩ := em_of_flows h2 hflows2 (congrArg DecodeExecute.valid hde)
  rw [hde] at hemPc hemCtrl
  obtain ⟨hmw, hmwPc, hmwCtrl⟩ := mw_of_flows h3 hflows3 hem
  rw [hemPc] at hmwPc
  rw [hemCtrl] at hmwCtrl
  have hs4 := stalls_of_flows hflows4
  refine ⟨?fd, ?de, ⟨hem, hemPc, hemCtrl⟩, ⟨hmw, hmwPc, hmwCtrl⟩, ?retires, rf_of_step h4 hs4⟩
  case fd =>
    rw [hfd]
    exact ⟨rfl, rfl, rfl⟩
  case de =>
    rw [hde]
    exact ⟨rfl, rfl, ofWord_word ..⟩
  case retires => rw [retires_of_flow hs4, if_pos hmw, hmwPc, ofWord_pc]

/-! ### The words in flight (R322, R338) -/

/-- The address of the word a pipeline register holds, or none for a bubble. -/
def slot (valid : Bool) (pc : Word) : Option Word := if valid then some pc else none

/-- What the four pipeline registers hold, the oldest first: what retires in the next four flowing cycles, in order. -/
def State.inFlight (s : State) : List (Option Word) :=
  [slot s.mw.valid s.mw.pc, slot s.em.valid s.em.pc, slot s.de.valid s.de.pc, slot s.fd.valid s.fd.pc]

theorem inFlight_launch (cfg : Cfg) (size : Nat) (rf0 : RegFile) (mem0 : Memory) (ports : Readiness) :
    (State.launch cfg size rf0 mem0 ports).inFlight = List.replicate 4 none := rfl

/-- `k` words one after another, from `pc` up. -/
def wordsFrom (pc : Word) (k : Nat) : List Word := (List.range k).map fun j => pc + BitVec.ofNat 32 (4 * j)

theorem wordsFrom_succ (pc : Word) (k : Nat) : wordsFrom pc (k + 1) = pc :: wordsFrom (pc + 4#32) k := by
  have hnext (j : Nat) : pc + BitVec.ofNat 32 (4 * (j + 1)) = pc + 4#32 + BitVec.ofNat 32 (4 * j) := by
    rw [BitVec.add_assoc, ← BitVec.ofNat_add, Nat.mul_succ, Nat.add_comm 4]
  simp [wordsFrom, List.range_succ_eq_map, hnext]

theorem take_wordsFrom (pc : Word) {j k : Nat} (h : j ≤ k) : (wordsFrom pc k).take j = wordsFrom pc j := by
  rw [wordsFrom, ← List.map_take, List.take_range, Nat.min_eq_left h, wordsFrom]

theorem reduceOption_map_some (l : List Word) : (l.map some).reduceOption = l := by
  rw [List.reduceOption, List.filterMap_map]
  exact List.filterMap_some

section
variable {s t : State} (h : step s = .next t)
include h

theorem slot_em_of_flow (hs : s.stalls = false) : slot t.em.valid t.em.pc = slot s.de.valid s.de.pc := by
  obtain ⟨hde, hem⟩ | ⟨hde, hem⟩ := em_cases (step_eq_next_iff.1 h) hs <;> rw [hem, hde] <;> rfl

theorem slot_mw_of_flow (hs : s.stalls = false) : slot t.mw.valid t.mw.pc = slot s.em.valid s.em.pc := by
  rw [mw_of_step h hs, memoryOut]
  cases s.em.valid <;> rfl

theorem slot_de_of_straight (hs : s.straight = true) : slot t.de.valid t.de.pc = slot s.fd.valid s.fd.pc := by
  obtain ⟨-, -, hde⟩ := front_of_straight h hs
  rw [hde, decodeOut]
  cases s.fd.valid <;> rfl

/-- A straight cycle moves every word on by one stage and fetches the one at PC; what MW held has retired. -/
theorem inFlight_of_straight (hs : s.straight = true) :
    s.inFlight ++ [some s.pc] = retires s s.ports.now.dReady :: t.inFlight := by
  obtain ⟨-, hfd, -⟩ := front_of_straight h hs
  have hflow := stalls_of_flows (straight_iff.1 hs).1
  rw [State.inFlight, State.inFlight, retires_of_flow hflow, slot_mw_of_flow h hflow, slot_em_of_flow h hflow,
    slot_de_of_straight h hs, hfd]
  rfl

end

theorem runsStraight_succ {k : Nat} {s : State} (h : runsStraight (k + 1) s = true) :
    s.straight = true ∧ ∃ t, step s = .next t ∧ runsStraight k t = true := by
  obtain ⟨hs, hrest⟩ := Bool.and_eq_true_iff.1 h
  obtain ⟨t, ht⟩ := step_goes_on (flows_iff.1 (straight_iff.1 hs).1).1
  exact ⟨hs, t, ht, by simpa [ht] using hrest⟩

/-- A straight run retires what was in flight at its start and then what it fetched, one slot a cycle. -/
theorem retirements_of_straight {k : Nat} {s : State} (hdisabled : s.cfg.predEn = false)
    (h : runsStraight k s = true) :
    retirements k s = ((s.inFlight ++ (wordsFrom s.pc k).map some).take k).reduceOption := by
  induction k generalizing s with
  | zero => rfl
  | succ k ih =>
    obtain ⟨hs, t, ht, hrest⟩ := runsStraight_succ h
    have hpc : t.pc = s.pc + 4#32 := (front_of_straight ht hs).1.trans (pcSeq_of_disabled hdisabled _ _)
    rw [retirements_succ_of_next ht, ih ((step_keeps_options ht).1 ▸ hdisabled) hrest, hpc, wordsFrom_succ,
      List.map_cons, List.append_cons, inFlight_of_straight ht hs, List.cons_append, List.take_succ_cons]
    cases retires s s.ports.now.dReady <;> rfl

/-- Settles O41: the four slots of a launch are empty, so what a straight run retires is the words it fetched, but for the
four still in flight at its end. -/
theorem straightLineCodeRetiresInOrder : Obligations.StraightLineCodeRetiresInOrder := by
  unfold Obligations.StraightLineCodeRetiresInOrder
  intro e size n rf0 mem0 ports s hstraight
  have hpc : s.pc = 0#32 := rfl
  have htake : (List.replicate 4 none ++ (wordsFrom 0#32 (n + 4)).map some).take (n + 4) =
      List.replicate 4 none ++ (wordsFrom 0#32 n).map some := by
    rw [List.take_append, List.take_of_length_le (by simp), List.length_replicate, Nat.add_sub_cancel, ← List.map_take,
      take_wordsFrom _ (Nat.le_add_right n 4)]
  rw [retirements_of_straight rfl hstraight, inFlight_launch, hpc, htake, List.reduceOption_append,
    List.reduceOption_replicate_none, List.nil_append, reduceOption_map_some]
  simp [wordsFrom]

end Sys2Proof.Machine
